-- ==== Sys2Proof/Word.lean ====
section
/-! DEFINITION. The words of the machine: a 32-bit command or bus word (20_memory.md R60, 30_encoding.md R90) and a byte.
W-bit values are not here: W is a build parameter, and a W-bit value is the unsigned integer it stands for
(00_scope.md R11; assumption log 2). -/

namespace Sys2Proof

/-- A 32-bit word: a command word (30_encoding.md R90) or the data of one host access (20_memory.md R66). -/
abbrev Word := BitVec 32

/-- A byte: one byte lane of the bus (20_memory.md R65). -/
abbrev Byte := BitVec 8

end Sys2Proof
end

