-- ==== Sys2Proof/Config.lean ====
section
/-! DEFINITION. What an implementation fixes: the build parameters of 00_scope.md R6, with their constraints, the
reference sizes TOY of R9, and the free values the spec leaves open (opaque, so that no proof can see them). -/

namespace Sys2Proof

/-- The parameters of 00_scope.md R6. The block shows the first four in its information registers CFG_W, CFG_TMAX,
CFG_NMAX and CFG_NPOLY (10_state.md R41), so a build is part of the state, where no step changes it
(assumption log 1). -/
structure Build where
  /-- `W`: width in bits of every scalar register, coordinate, configuration word, coefficient and share. -/
  w : Nat
  /-- `T_MAX`: the largest degree bound a bank can hold. -/
  tMax : Nat
  /-- `N_MAX`: the largest share count of SHARE. -/
  nMax : Nat
  /-- `NPOLY`: the number of polynomial banks. -/
  nPoly : Nat
  /-- `BASE`: bus address of the block's 4 MiB window. -/
  base : Nat
deriving DecidableEq, Repr

/-- The constraints 00_scope.md R6 puts on the parameters. -/
abbrev Build.Valid (b : Build) : Prop :=
  (b.w % 32 = 0 ∧ 32 ≤ b.w ∧ b.w ≤ 512) ∧
  b.tMax ≤ 1023 ∧
  (2 ≤ b.nMax ∧ b.nMax ≤ 4096 ∧ b.nMax % 2 = 0 ∧ b.nMax ≤ 2 * (b.tMax + 1)) ∧
  (1 ≤ b.nPoly ∧ b.nPoly ≤ 16) ∧
  b.base % 0x400000 = 0

/-- The sizes of the reference configuration TOY (00_scope.md R9), at BASE 0. DESIGN CHOICE (assumption log 1): the
build of `State.reset`; every other definition takes the build from the state. -/
def Config.toy : Build := { w := 32, tMax := 15, nMax := 32, nPoly := 4, base := 0 }

/-- FREE VALUE (00_scope.md R16; 93_implementation_defined.md U6): the random source's answers past those the state's
`oracle` already holds. The answer to Draw(M) is this number reduced into [0, M) (assumption log 4). -/
opaque Config.freeDraw : Nat → Nat

/-- FREE VALUE (20_memory.md R70; 93_implementation_defined.md S1): the words that host reads of data locations,
SHARE_N and DEG return while STATUS.BUSY = 1 (assumption log 5). -/
opaque Config.freeWord : Nat → Word

end Sys2Proof
end

