-- ==== Sys2Proof/Syntax.lean ====
section
/-! DEFINITION. The command set: operand types (the classes of 30_encoding.md R92) and one constructor of `Instr` per
row of the opcode table (R95, R96), operands in the assembler's order (R101). -/

namespace Sys2Proof

/-- Class S: scalar register S0 to S15 (10_state.md R20). -/
abbrev SReg := Fin 16

/-- Class PD: point register PR0 to PR7 (10_state.md R22, R26). -/
abbrev PReg := Fin 8

/-- The generators, point source codes 8, 9 and 10 (10_state.md R26). -/
inductive Gen where
  | g | h | k
deriving DecidableEq, Repr

/-- Class PS: a point source (10_state.md R26). -/
inductive PSrc where
  | reg (r : PReg)
  | gen (code : Gen)
deriving DecidableEq, Repr

/-- Class BK: a bank number, 0 to NPOLY−1 once well formed (10_state.md R29). -/
abbrev Bank := Fin 16

/-- Class MF: the modulus of a field command (00_scope.md R18). -/
inductive FieldMod where
  | p | q | r
deriving DecidableEq, Repr

/-- Class MS: the modulus of a polynomial or Shamir command, the scalar field only. -/
inductive ScalarMod where
  | q | r
deriving DecidableEq, Repr

/-- Class CO: a coordinate of a point. -/
inductive Coord where
  | x | y | z
deriving DecidableEq, Repr

/-- The 24 commands of 30_encoding.md R95. -/
inductive Instr where
  | nop
  | fadd (m : FieldMod) (rd ra rb : SReg)
  | fsub (m : FieldMod) (rd ra rb : SReg)
  | fmul (m : FieldMod) (rd ra rb : SReg)
  | finv (m : FieldMod) (rd ra : SReg)
  | fexp (m : FieldMod) (rd ra rb : SReg)
  | frand (m : FieldMod) (rd : SReg)
  | mov (rd ra : SReg)
  | ldi (rd : SReg) (imm : Byte)
  | pget (rd : SReg) (src : PSrc) (c : Coord)
  | pput (rd : PReg) (c : Coord) (ra : SReg)
  | xadd (rd : PReg) (srcP srcQ srcDiff : PSrc)
  | xdbl (rd : PReg) (src : PSrc)
  | ladder (rd re : PReg) (ra : SReg) (base : PSrc)
  | recov (rd : PReg) (base srcK srcK1 : PSrc)
  | smul (rd : PReg) (ra : SReg) (base : PSrc)
  | prand (m : ScalarMod) (b : Bank) (ra : SReg)
  | peval (m : ScalarMod) (rd : SReg) (b : Bank) (ra : SReg)
  | pcget (rd : SReg) (b : Bank) (ra : SReg)
  | pcset (m : ScalarMod) (b : Bank) (ra rb : SReg)
  | psdeg (b : Bank) (ra : SReg)
  | pgdeg (rd : SReg) (b : Bank)
  | share (m : ScalarMod) (b : Bank) (ra : SReg)
  | sget (rd ra : SReg)
deriving DecidableEq, Repr

end Sys2Proof
end

