-- ==== Sys2Proof/WellFormed.lean ====
section
/-! DEFINITION. Which terms of `Instr` are commands of a block with `nPoly` banks. The operand types already keep
the classes S, PD, PS, MF, MS, CO and IM of 30_encoding.md R92; two checks remain: a bank number is below NPOLY (class
BK), and LADDER's destinations differ (the extra check of R96). -/

namespace Sys2Proof

/-- The bank a command names, if it has a field of class BK (30_encoding.md R96). -/
def Instr.bank? : Instr → Option Bank
  | .prand _ b _ => some b
  | .peval _ _ b _ => some b
  | .pcget _ b _ => some b
  | .pcset _ b _ _ => some b
  | .psdeg b _ => some b
  | .pgdeg _ b => some b
  | .share _ b _ => some b
  | .nop => none
  | .fadd _ _ _ _ => none
  | .fsub _ _ _ _ => none
  | .fmul _ _ _ _ => none
  | .finv _ _ _ => none
  | .fexp _ _ _ _ => none
  | .frand _ _ => none
  | .mov _ _ => none
  | .ldi _ _ => none
  | .pget _ _ _ => none
  | .pput _ _ _ => none
  | .xadd _ _ _ _ => none
  | .xdbl _ _ => none
  | .ladder _ _ _ _ => none
  | .recov _ _ _ _ => none
  | .smul _ _ _ => none
  | .sget _ _ => none

/-- Class BK of 30_encoding.md R92: bank numbers 0 to NPOLY−1. -/
def Instr.bankOk (nPoly : Nat) (i : Instr) : Bool :=
  match i.bank? with
  | some b => decide (b.val < nPoly)
  | none => true

/-- The extra check of 30_encoding.md R96: LADDER has rd ≠ rc. -/
def Instr.destsOk : Instr → Bool
  | .ladder rd re _ _ => decide (rd ≠ re)
  | _ => true

/-- A command of a block with `nPoly` banks (30_encoding.md R97). -/
def Instr.wellFormed (nPoly : Nat) (i : Instr) : Bool :=
  i.bankOk nPoly && i.destsOk

end Sys2Proof
end

