-- ==== Sys2Proof/Decode.lean ====
section
/-! DEFINITION. Decoding a command word (30_encoding.md R99), total on every 32-bit word, with a named reason for
every rejection (R97), and then the encoder, written from the same field layout (R91) and tables (R95, R96). -/

namespace Sys2Proof

/-- Why a word is ILLEGAL (30_encoding.md R97). Every reason gives the same error code (60_exceptions.md R227); the
block itself does not record which it was. -/
inductive Illegal where
  /-- The op field is not in the table of R95. -/
  | unassignedOp
  /-- A field of class Z is not 0. -/
  | fieldNotZero
  /-- A field of class PD is 8 or more. -/
  | pointDest
  /-- A field of class PS is 11 or more. -/
  | pointSource
  /-- A field of class BK is NPOLY or more. -/
  | bank
  /-- A field of class MF is 3. -/
  | fieldModulus
  /-- A field of class MS is 0 or 3. -/
  | scalarModulus
  /-- A field of class CO is 3 or more. -/
  | coordinate
  /-- LADDER with rd = rc. -/
  | equalDests
deriving DecidableEq, Repr

/-- The fields of a command word (30_encoding.md R91). -/
structure Fields where
  op : Nat
  m : Nat
  rd : Nat
  ra : Nat
  rb : Nat
  rc : Nat
  imm : Nat
deriving DecidableEq, Repr

/-- Bits `lo + len − 1` down to `lo` of a word, as an unsigned integer (00_scope.md R10). -/
def bitField (w : Word) (lo len : Nat) : Nat := w.toNat / 2 ^ lo % 2 ^ len

/-- The field layout of 30_encoding.md R91. -/
def fieldsOf (w : Word) : Fields :=
  { op := bitField w 26 6, m := bitField w 24 2, rd := bitField w 20 4, ra := bitField w 16 4,
    rb := bitField w 12 4, rc := bitField w 8 4, imm := bitField w 0 8 }

/-! The operand classes of 30_encoding.md R92: what a field's value stands for, or why it is ILLEGAL. -/

/-- Class S. A field of four bits is always below 16; the other case never arises from a word. -/
def classS (v : Nat) : Except Illegal SReg :=
  if h : v < 16 then .ok ⟨v, h⟩ else .error .fieldNotZero

/-- Class PD. -/
def classPD (v : Nat) : Except Illegal PReg :=
  if h : v < 8 then .ok ⟨v, h⟩ else .error .pointDest

/-- Class PS: codes 0 to 7 are PR0 to PR7, 8 is G, 9 is H, 10 is K (10_state.md R26). -/
def classPS (v : Nat) : Except Illegal PSrc :=
  if h : v < 8 then .ok (.reg ⟨v, h⟩)
  else if v = 8 then .ok (.gen .g)
  else if v = 9 then .ok (.gen .h)
  else if v = 10 then .ok (.gen .k)
  else .error .pointSource

/-- Class BK for a block with `nPoly` banks. -/
def classBK (nPoly v : Nat) : Except Illegal Bank :=
  if h : v < 16 then (if v < nPoly then .ok ⟨v, h⟩ else .error .bank) else .error .bank

/-- Class MF (00_scope.md R18). -/
def classMF (v : Nat) : Except Illegal FieldMod :=
  if v = 0 then .ok .p else if v = 1 then .ok .q else if v = 2 then .ok .r else .error .fieldModulus

/-- Class MS: 1 and 2 only. -/
def classMS (v : Nat) : Except Illegal ScalarMod :=
  if v = 1 then .ok .q else if v = 2 then .ok .r else .error .scalarModulus

/-- Class CO. -/
def classCO (v : Nat) : Except Illegal Coord :=
  if v = 0 then .ok .x else if v = 1 then .ok .y else if v = 2 then .ok .z else .error .coordinate

/-- Class IM: every value, unsigned (30_encoding.md R94). -/
def classIM (v : Nat) : Except Illegal Byte := .ok (BitVec.ofNat 8 v)

/-- Class Z: unused fields are 0. -/
def classZ (v : Nat) : Except Illegal Unit :=
  if v = 0 then .ok () else .error .fieldNotZero

/-! One decoder per command, its fields in the columns' order of 30_encoding.md R96. -/

def decodeNop (f : Fields) : Except Illegal Instr := do
  classZ f.m; classZ f.rd; classZ f.ra; classZ f.rb; classZ f.rc; classZ f.imm
  return .nop

/-- The commands with the columns MF S S S Z Z: FADD, FSUB, FMUL and FEXP. -/
def decodeField3 (mk : FieldMod → SReg → SReg → SReg → Instr) (f : Fields) : Except Illegal Instr := do
  let m ← classMF f.m
  let rd ← classS f.rd
  let ra ← classS f.ra
  let rb ← classS f.rb
  classZ f.rc; classZ f.imm
  return mk m rd ra rb

def decodeFinv (f : Fields) : Except Illegal Instr := do
  let m ← classMF f.m
  let rd ← classS f.rd
  let ra ← classS f.ra
  classZ f.rb; classZ f.rc; classZ f.imm
  return .finv m rd ra

def decodeFrand (f : Fields) : Except Illegal Instr := do
  let m ← classMF f.m
  let rd ← classS f.rd
  classZ f.ra; classZ f.rb; classZ f.rc; classZ f.imm
  return .frand m rd

/-- The commands with the columns Z S S Z Z Z: MOV and SGET. -/
def decodeScalar2 (mk : SReg → SReg → Instr) (f : Fields) : Except Illegal Instr := do
  classZ f.m
  let rd ← classS f.rd
  let ra ← classS f.ra
  classZ f.rb; classZ f.rc; classZ f.imm
  return mk rd ra

def decodeLdi (f : Fields) : Except Illegal Instr := do
  classZ f.m
  let rd ← classS f.rd
  classZ f.ra; classZ f.rb; classZ f.rc
  let imm ← classIM f.imm
  return .ldi rd imm

def decodePget (f : Fields) : Except Illegal Instr := do
  classZ f.m
  let rd ← classS f.rd
  let src ← classPS f.ra
  classZ f.rb; classZ f.rc
  let c ← classCO f.imm
  return .pget rd src c

def decodePput (f : Fields) : Except Illegal Instr := do
  classZ f.m
  let rd ← classPD f.rd
  let ra ← classS f.ra
  classZ f.rb; classZ f.rc
  let c ← classCO f.imm
  return .pput rd c ra

/-- The commands with the columns Z PD PS PS PS Z: XADD and RECOV. -/
def decodePoint3 (mk : PReg → PSrc → PSrc → PSrc → Instr) (f : Fields) : Except Illegal Instr := do
  classZ f.m
  let rd ← classPD f.rd
  let ra ← classPS f.ra
  let rb ← classPS f.rb
  let rc ← classPS f.rc
  classZ f.imm
  return mk rd ra rb rc

def decodeXdbl (f : Fields) : Except Illegal Instr := do
  classZ f.m
  let rd ← classPD f.rd
  let src ← classPS f.ra
  classZ f.rb; classZ f.rc; classZ f.imm
  return .xdbl rd src

/-- LADDER: the extra check rd ≠ rc comes last (30_encoding.md R99). -/
def decodeLadder (f : Fields) : Except Illegal Instr := do
  classZ f.m
  let rd ← classPD f.rd
  let ra ← classS f.ra
  let base ← classPS f.rb
  let re ← classPD f.rc
  classZ f.imm
  if rd = re then .error .equalDests else return .ladder rd re ra base

def decodeSmul (f : Fields) : Except Illegal Instr := do
  classZ f.m
  let rd ← classPD f.rd
  let ra ← classS f.ra
  let base ← classPS f.rb
  classZ f.rc; classZ f.imm
  return .smul rd ra base

/-- The commands with the columns MS Z S Z BK Z: PRAND and SHARE. -/
def decodeBankDraw (mk : ScalarMod → Bank → SReg → Instr) (nPoly : Nat) (f : Fields) :
    Except Illegal Instr := do
  let m ← classMS f.m
  classZ f.rd
  let ra ← classS f.ra
  classZ f.rb
  let b ← classBK nPoly f.rc
  classZ f.imm
  return mk m b ra

def decodePeval (nPoly : Nat) (f : Fields) : Except Illegal Instr := do
  let m ← classMS f.m
  let rd ← classS f.rd
  let ra ← classS f.ra
  classZ f.rb
  let b ← classBK nPoly f.rc
  classZ f.imm
  return .peval m rd b ra

def decodePcget (nPoly : Nat) (f : Fields) : Except Illegal Instr := do
  classZ f.m
  let rd ← classS f.rd
  let ra ← classS f.ra
  classZ f.rb
  let b ← classBK nPoly f.rc
  classZ f.imm
  return .pcget rd b ra

def decodePcset (nPoly : Nat) (f : Fields) : Except Illegal Instr := do
  let m ← classMS f.m
  classZ f.rd
  let ra ← classS f.ra
  let rb ← classS f.rb
  let b ← classBK nPoly f.rc
  classZ f.imm
  return .pcset m b ra rb

def decodePsdeg (nPoly : Nat) (f : Fields) : Except Illegal Instr := do
  classZ f.m; classZ f.rd
  let ra ← classS f.ra
  classZ f.rb
  let b ← classBK nPoly f.rc
  classZ f.imm
  return .psdeg b ra

def decodePgdeg (nPoly : Nat) (f : Fields) : Except Illegal Instr := do
  classZ f.m
  let rd ← classS f.rd
  classZ f.ra; classZ f.rb
  let b ← classBK nPoly f.rc
  classZ f.imm
  return .pgdeg rd b

/-- The opcode map of 30_encoding.md R95 over the fields of a word. -/
def decodeFields (nPoly : Nat) (f : Fields) : Except Illegal Instr :=
  if f.op = 0x00 then decodeNop f
  else if f.op = 0x01 then decodeField3 .fadd f
  else if f.op = 0x02 then decodeField3 .fsub f
  else if f.op = 0x03 then decodeField3 .fmul f
  else if f.op = 0x04 then decodeFinv f
  else if f.op = 0x05 then decodeField3 .fexp f
  else if f.op = 0x06 then decodeFrand f
  else if f.op = 0x08 then decodeScalar2 .mov f
  else if f.op = 0x09 then decodeLdi f
  else if f.op = 0x0A then decodePget f
  else if f.op = 0x0B then decodePput f
  else if f.op = 0x10 then decodePoint3 .xadd f
  else if f.op = 0x11 then decodeXdbl f
  else if f.op = 0x12 then decodeLadder f
  else if f.op = 0x13 then decodePoint3 .recov f
  else if f.op = 0x14 then decodeSmul f
  else if f.op = 0x20 then decodeBankDraw .prand nPoly f
  else if f.op = 0x21 then decodePeval nPoly f
  else if f.op = 0x22 then decodePcget nPoly f
  else if f.op = 0x23 then decodePcset nPoly f
  else if f.op = 0x24 then decodePsdeg nPoly f
  else if f.op = 0x25 then decodePgdeg nPoly f
  else if f.op = 0x28 then decodeBankDraw .share nPoly f
  else if f.op = 0x29 then decodeScalar2 .sget f
  else .error .unassignedOp

/-- `Decode(w)` of 30_encoding.md R99 for a block with `nPoly` banks. -/
def decode (nPoly : Nat) (w : Word) : Except Illegal Instr := decodeFields nPoly (fieldsOf w)

/-! The encoder. -/

/-- The modulus codes of 00_scope.md R18. -/
def FieldMod.code : FieldMod → Nat
  | .p => 0
  | .q => 1
  | .r => 2

/-- The modulus codes of 00_scope.md R18, scalar field only. -/
def ScalarMod.code : ScalarMod → Nat
  | .q => 1
  | .r => 2

/-- The point source codes of 10_state.md R26. -/
def PSrc.code : PSrc → Nat
  | .reg r => r.val
  | .gen .g => 8
  | .gen .h => 9
  | .gen .k => 10

/-- The coordinate codes of 30_encoding.md R92. -/
def Coord.code : Coord → Nat
  | .x => 0
  | .y => 1
  | .z => 2

/-- The opcodes of 30_encoding.md R95. -/
def Instr.opcode : Instr → Nat
  | .nop => 0x00
  | .fadd _ _ _ _ => 0x01
  | .fsub _ _ _ _ => 0x02
  | .fmul _ _ _ _ => 0x03
  | .finv _ _ _ => 0x04
  | .fexp _ _ _ _ => 0x05
  | .frand _ _ => 0x06
  | .mov _ _ => 0x08
  | .ldi _ _ => 0x09
  | .pget _ _ _ => 0x0A
  | .pput _ _ _ => 0x0B
  | .xadd _ _ _ _ => 0x10
  | .xdbl _ _ => 0x11
  | .ladder _ _ _ _ => 0x12
  | .recov _ _ _ _ => 0x13
  | .smul _ _ _ => 0x14
  | .prand _ _ _ => 0x20
  | .peval _ _ _ _ => 0x21
  | .pcget _ _ _ => 0x22
  | .pcset _ _ _ _ => 0x23
  | .psdeg _ _ => 0x24
  | .pgdeg _ _ => 0x25
  | .share _ _ _ => 0x28
  | .sget _ _ => 0x29

/-- The field values of a command: its columns of 30_encoding.md R96 and the mapping of R101. -/
def Instr.fields (i : Instr) : Fields :=
  let op := i.opcode
  match i with
  | .nop => ⟨op, 0, 0, 0, 0, 0, 0⟩
  | .fadd m rd ra rb => ⟨op, m.code, rd, ra, rb, 0, 0⟩
  | .fsub m rd ra rb => ⟨op, m.code, rd, ra, rb, 0, 0⟩
  | .fmul m rd ra rb => ⟨op, m.code, rd, ra, rb, 0, 0⟩
  | .finv m rd ra => ⟨op, m.code, rd, ra, 0, 0, 0⟩
  | .fexp m rd ra rb => ⟨op, m.code, rd, ra, rb, 0, 0⟩
  | .frand m rd => ⟨op, m.code, rd, 0, 0, 0, 0⟩
  | .mov rd ra => ⟨op, 0, rd, ra, 0, 0, 0⟩
  | .ldi rd imm => ⟨op, 0, rd, 0, 0, 0, imm.toNat⟩
  | .pget rd src c => ⟨op, 0, rd, src.code, 0, 0, c.code⟩
  | .pput rd c ra => ⟨op, 0, rd, ra, 0, 0, c.code⟩
  | .xadd rd p q d => ⟨op, 0, rd, p.code, q.code, d.code, 0⟩
  | .xdbl rd src => ⟨op, 0, rd, src.code, 0, 0, 0⟩
  | .ladder rd re ra base => ⟨op, 0, rd, ra, base.code, re, 0⟩
  | .recov rd base k k1 => ⟨op, 0, rd, base.code, k.code, k1.code, 0⟩
  | .smul rd ra base => ⟨op, 0, rd, ra, base.code, 0, 0⟩
  | .prand m b ra => ⟨op, m.code, 0, ra, 0, b, 0⟩
  | .peval m rd b ra => ⟨op, m.code, rd, ra, 0, b, 0⟩
  | .pcget rd b ra => ⟨op, 0, rd, ra, 0, b, 0⟩
  | .pcset m b ra rb => ⟨op, m.code, 0, ra, rb, b, 0⟩
  | .psdeg b ra => ⟨op, 0, 0, ra, 0, b, 0⟩
  | .pgdeg rd b => ⟨op, 0, rd, 0, 0, b, 0⟩
  | .share m b ra => ⟨op, m.code, 0, ra, 0, b, 0⟩
  | .sget rd ra => ⟨op, 0, rd, ra, 0, 0, 0⟩

/-- The word with the given fields (30_encoding.md R91). -/
def Fields.pack (f : Fields) : Word :=
  BitVec.ofNat 32 (f.op * 2 ^ 26 + f.m * 2 ^ 24 + f.rd * 2 ^ 20 + f.ra * 2 ^ 16 + f.rb * 2 ^ 12 + f.rc * 2 ^ 8 + f.imm)

/-- The word of a command. -/
def encode (i : Instr) : Word := i.fields.pack

/-- The instruction the decoder reads from the low `nbits` bits of `w`, for a block with TOY's number of banks
(`Config.toy`, the build of `State.reset`); every row of the opcode table has 32 bits. -/
def decodeTableWord (nbits w : Nat) : Option Instr :=
  match decode Config.toy.nPoly (BitVec.ofNat 32 (w % 2 ^ nbits)) with
  | .ok i => some i
  | .error _ => none

end Sys2Proof
end

