-- ==== Sys2Proof/Machine/State.lean ====
section
/-! DEFINITION. The state of the block: every piece of state of 10_state.md, the in-flight phase (R44), the reset
input, the build it was made with, and, as plain data, its environment: the inputs to come, the word last put on the
bus, and the random source's fixed answers. Then the reasons a step can stop, and the state after reset (R46). -/

namespace Sys2Proof.Machine

/-- A point register's coordinates (10_state.md R22), W bits each. -/
structure Point where
  x : Nat
  y : Nat
  z : Nat
deriving DecidableEq, Repr

/-- The configuration registers of 10_state.md R32, W bits each. -/
structure Cfg where
  p : Nat
  q : Nat
  r : Nat
  a : Nat
  a24 : Nat
  gx : Nat
  gy : Nat
  hx : Nat
  hy : Nat
  kx : Nat
  ky : Nat
deriving DecidableEq, Repr

/-- The fields of CTRL (10_state.md R37). -/
structure Ctrl where
  ie : Bool
  lock : Bool
deriving DecidableEq, Repr

/-- The error codes that are ever produced (60_exceptions.md R221); codes 5 to 15 have no constructor
(93_implementation_defined.md S11). -/
inductive ECode where
  | none | illegal | notInvertible | param | degenerate
deriving DecidableEq, Repr

/-- The fields of STATUS (10_state.md R39) but BUSY, which `Phase` holds (assumption log 17). -/
structure Status where
  done : Bool
  err : Bool
  inf : Bool
  ecode : ECode
  ovr : Bool
deriving DecidableEq, Repr

/-- What the engine is at: nothing, the initialisation after reset (70_reset_and_hazards.md R251), or the command
whose word is in CMD (10_state.md R44). STATUS.BUSY = 1 exactly when this is not `idle`. -/
inductive Phase where
  | idle | initialising | inFlight
deriving DecidableEq, Repr

/-- The block's memories, coefficients and shares, at the byte offsets 20_memory.md R62, R64 and R65 give them in the
window: pairs of an offset and a byte in canonical form (`Memory.wf`). An unlisted byte reads 0, the reset value of
10_state.md R46 (assumption log 16). -/
structure Memory where
  cells : List Host.Cell
deriving DecidableEq, Repr

/-- What the environment does to the block (assumption log 3). Addresses are bus addresses, sizes are in bytes. -/
inductive Input where
  /-- A host read. -/
  | read (addr size : Nat)
  /-- A host write; `v` is the written word of a 32-bit access. -/
  | write (addr size : Nat) (v : Word)
  /-- Time passes and the engine takes its next turn: it ends the initialisation or completes the command. -/
  | engine
  /-- The platform asserts the reset input (70_reset_and_hazards.md R250, R253). -/
  | assertReset
  /-- The platform releases the reset input (R251). -/
  | releaseReset
deriving DecidableEq, Repr

/-- The machine state. The last five fields are the model's own: `build` and the environment's. -/
structure State where
  /-- S0 to S15 (10_state.md R20). -/
  sreg : Vector Nat 16
  /-- PR0 to PR7 (R22). -/
  preg : Vector Point 8
  /-- DEG[0] to DEG[15]; entries at NPOLY and above belong to no bank (R29, R42). -/
  deg : Vector Nat 16
  /-- The coefficients C[b][j] and the shares SHM[i] (R29, R31). -/
  mem : Memory
  /-- SHARE_N (R31). -/
  shareN : Nat
  /-- The configuration registers (R32). -/
  cfg : Cfg
  /-- CTRL (R37). -/
  ctrl : Ctrl
  /-- STATUS but BUSY (R39). -/
  status : Status
  /-- The last accepted command word (R38). -/
  cmd : Word
  /-- The in-flight phase (R44). -/
  phase : Phase
  /-- The reset input is asserted (70_reset_and_hazards.md R250). -/
  resetLine : Bool
  /-- The build parameters (00_scope.md R6), which the information registers show (R41). -/
  build : Build
  /-- The environment's inputs still to come, oldest first. -/
  inputs : List Input
  /-- The word the block returned for the last host read, if there was one. -/
  response : Option Word
  /-- Answers of the random source that the environment has fixed, in order (00_scope.md R16). -/
  oracle : List Nat
  /-- How many opaque free values have been used. -/
  freeIx : Nat
deriving DecidableEq, Repr

/-- Why the machine stops. No command stops it. -/
inductive Fault where
  /-- Raised by a host access at a bus address outside the window, which the block does not decode (20_memory.md R67).
  Safe: nothing is said of what the rest of the bus does. -/
  | outsideWindow
  /-- Raised by a host access while reset is asserted: the stuck state of 93_implementation_defined.md S3
  (70_reset_and_hazards.md R250). Safe: the spec has no such step. -/
  | accessInReset
deriving DecidableEq, Repr

/-- Why a step has no meaning. -/
inductive Refusal where
  /-- Raised by `exec` for an instruction without a meaning yet (none in this package). Safe. -/
  | notModelled (mnemonic : String)
  /-- Raised by a host access to the window that is not an aligned 32-bit one: the platform's bus answers it
  (parameter BUS_BAD_ACCESS) and a model refuses it (20_memory.md R66, 93_implementation_defined.md S2). Safe. -/
  | busBadAccess
deriving DecidableEq, Repr

/-- Every configuration register at its reset value (10_state.md R46). -/
def Cfg.reset : Cfg :=
  { p := 0, q := 0, r := 0, a := 0, a24 := 0, gx := 0, gy := 0, hx := 0, hy := 0, kx := 0, ky := 0 }

/-- The block of build `b` right after its reset input is released (10_state.md R46, 70_reset_and_hazards.md R251):
every value is R46's and the initialisation is in progress. The environment's fields are empty (assumption
log 21). -/
def State.resetOf (b : Build) : State :=
  { sreg := Vector.replicate 16 0
    preg := Vector.replicate 8 { x := 0, y := 0, z := 0 }
    deg := Vector.replicate 16 0
    mem := { cells := [] }
    shareN := 0
    cfg := Cfg.reset
    ctrl := { ie := false, lock := false }
    status := { done := false, err := false, inf := false, ecode := .none, ovr := false }
    cmd := 0
    phase := .initialising
    resetLine := false
    build := b
    inputs := []
    response := none
    oracle := []
    freeIx := 0 }

/-- The machine right after reset, of the build with TOY's sizes (DESIGN CHOICE, assumption log 1). -/
def State.reset : State := State.resetOf Config.toy

end Sys2Proof.Machine
end

