-- ==== Sys2Proof/Machine/Arith.lean ====
section
/-! DEFINITION. Integer arithmetic of the rules: reduction, inverse and exponentiation modulo M (00_scope.md R12,
40_field.md R127), bit length (R10), and the 32-bit words of a W-bit value (20_memory.md R64). -/

namespace Sys2Proof.Machine

/-- `a mod M` for an integer `a` and M ≥ 1: in [0, M), never negative (00_scope.md R12). -/
def modZ (a : Int) (m : Nat) : Nat := (a % (m : Int)).toNat

/-- `bitlen(k)` of 00_scope.md R10. -/
def bitlen (k : Nat) : Nat := if k = 0 then 0 else k.log2 + 1

/-- Square-and-multiply over the low `n` bits of `e`, most significant first, from the accumulator `acc`. -/
def powLoop (a e m : Nat) : Nat → Nat → Nat
  | 0, acc => acc
  | i + 1, acc =>
    let sq := acc * acc % m
    powLoop a e m i (if e.testBit i then sq * a % m else sq)

/-- `(a ^ e) mod M`, with `a ^ 0 = 1` (40_field.md R125), in bitlen(e) steps (assumption log 22). -/
def powMod (a e m : Nat) : Nat := powLoop a e m (bitlen e) (1 % m)

/-- Euclid's algorithm on the remainders `r0`, `r1`, keeping a cofactor of each: it ends with the cofactor of the
greatest common divisor. `fuel` bounds the number of divisions. -/
def invLoop : Nat → Nat → Nat → Int → Int → Int
  | 0, _, _, t0, _ => t0
  | fuel + 1, r0, r1, t0, t1 =>
    if r1 = 0 then t0 else invLoop fuel r1 (r0 % r1) t1 (t0 - (r0 / r1 : Nat) * t1)

/-- `inv_M(a)`: when gcd(a, M) = 1, the x in [0, M) with (a·x) mod M = 1 mod M (00_scope.md R12; assumption log 22). -/
def invMod (a m : Nat) : Nat := modZ (invLoop (m + 1) m (a % m) 0 1) m

/-- Word `i` of a W-bit value: its bits 32·i + 31 down to 32·i (20_memory.md R64). -/
def wordOf (v i : Nat) : Word := BitVec.ofNat 32 (v / 2 ^ (32 * i))

/-- The value `v` with word `i` replaced by `x`, the other words unchanged (20_memory.md R64). -/
def withWord (v i : Nat) (x : Word) : Nat :=
  v / 2 ^ (32 * (i + 1)) * 2 ^ (32 * (i + 1)) + x.toNat * 2 ^ (32 * i) + v % 2 ^ (32 * i)

end Sys2Proof.Machine
end

