-- ==== Sys2Proof/Machine/Flags.lean ====
section
/-! DEFINITION. The 32-bit control registers and their flags: the STATUS word (10_state.md R39), the error codes
(60_exceptions.md R221), the CTRL word (R37), the constants of R41, and the output IRQ (R43). -/

namespace Sys2Proof.Machine

/-- The code STATUS.ECODE records (60_exceptions.md R221). -/
def ECode.code : ECode → Nat
  | .none => 0
  | .illegal => 1
  | .notInvertible => 2
  | .param => 3
  | .degenerate => 4

/-- ID, "PVSS" in ASCII (10_state.md R41). -/
def idValue : Word := 0x50565353#32

/-- VERSION, block spec 1.0 (10_state.md R41). -/
def versionValue : Word := 0x00010000#32

/-- A flag as the weight of its bit. -/
def flagAt (f : Bool) (bit : Nat) : Nat := if f then 2 ^ bit else 0

/-- STATUS.BUSY: a command or the reset initialisation is in progress (10_state.md R39). -/
def State.busy (s : State) : Bool := decide (s.phase ≠ .idle)

/-- STATUS as the host reads it (10_state.md R39): BUSY 0, DONE 1, ERR 2, INF 3, ECODE 7:4, OVR 8, 31:9 zero. -/
def State.statusWord (s : State) : Word :=
  BitVec.ofNat 32
    (flagAt s.busy 0 + flagAt s.status.done 1 + flagAt s.status.err 2 + flagAt s.status.inf 3 +
      s.status.ecode.code * 2 ^ 4 + flagAt s.status.ovr 8)

/-- CTRL as the host reads it (10_state.md R37): IE 0, LOCK 1, 31:2 zero. -/
def State.ctrlWord (s : State) : Word := BitVec.ofNat 32 (flagAt s.ctrl.ie 0 + flagAt s.ctrl.lock 1)

/-- The output IRQ = STATUS.DONE ∧ CTRL.IE, a level (10_state.md R43, 60_exceptions.md R230). -/
def State.irq (s : State) : Bool := s.status.done && s.ctrl.ie

/-- The result flags cleared, as acceptance does (60_exceptions.md R225); OVR keeps its value. -/
def Status.accepted (f : Status) : Status :=
  { f with done := false, err := false, inf := false, ecode := .none }

/-- The result flags of a completion with code `e` (60_exceptions.md R226): ERR is (e ≠ NONE), INF only survives
a success, OVR keeps its value. -/
def Status.completed (f : Status) (e : ECode) (inf : Bool) : Status :=
  { f with done := true, err := decide (e ≠ .none), inf := inf && decide (e = .none), ecode := e }

/-- A host write of STATUS: writing 1 clears DONE and OVR, every other bit is ignored (10_state.md R39). -/
def Status.written (f : Status) (v : Word) : Status :=
  { f with done := f.done && !v.toNat.testBit 1, ovr := f.ovr && !v.toNat.testBit 8 }

/-- STATUS.OVR set, by a host write that the busy window drops (70_reset_and_hazards.md R260). -/
def Status.overrun (f : Status) : Status := { f with ovr := true }

/-- A host write of CTRL: IE takes bit 0, LOCK is set by bit 1 and never cleared (10_state.md R37). -/
def Ctrl.written (c : Ctrl) (v : Word) : Ctrl :=
  { ie := v.toNat.testBit 0, lock := c.lock || v.toNat.testBit 1 }

end Sys2Proof.Machine
end

