-- ==== Sys2Proof/Machine/Ops.lean ====
section
/-! DEFINITION. The named operations over memory and registers, draws of the random source, the life cycle of a
command (acceptance, completion, and the one operation by which a command raises an error), and reset. -/

namespace Sys2Proof.Machine

/-! ## Bytes -/

/-- The byte listed at `a`, or 0 (10_state.md R46). -/
def readCells : List Host.Cell → Nat → Byte
  | [], _ => 0
  | (k, x) :: cs, a => if k = a then x else readCells cs a

/-- The cells with byte `v` at `a`, in canonical form again: a zero byte is not listed. -/
def writeCells : List Host.Cell → Nat → Byte → List Host.Cell
  | [], a, v => if v = 0 then [] else [(a, v)]
  | (k, x) :: cs, a, v =>
    if a < k then (if v = 0 then (k, x) :: cs else (a, v) :: (k, x) :: cs)
    else if a = k then (if v = 0 then cs else (a, v) :: cs)
    else (k, x) :: writeCells cs a v

/-- Every address listed is at least `lo`, the addresses rise strictly, and no zero byte is listed. -/
def cellsFrom : Nat → List Host.Cell → Bool
  | _, [] => true
  | lo, (k, x) :: cs => decide (lo ≤ k) && decide (x ≠ 0) && cellsFrom (k + 1) cs

/-- The canonical form of the memory: strictly rising addresses, no entry equal to what an unlisted byte reads. -/
def Memory.wf (m : Memory) : Bool := cellsFrom 0 m.cells

/-- The byte at window offset `a`. -/
def Memory.read (m : Memory) (a : Nat) : Byte := readCells m.cells a

/-- The memory with byte `v` at window offset `a`. -/
def Memory.write (m : Memory) (a : Nat) (v : Byte) : Memory := { cells := writeCells m.cells a v }

/-- The `n` bytes from `a` up as an unsigned integer, least significant byte first (20_memory.md R64, R65). -/
def Memory.readLE (m : Memory) : Nat → Nat → Nat
  | 0, _ => 0
  | n + 1, a => (m.read a).toNat + 256 * m.readLE n (a + 1)

/-- The memory with the low `n` bytes of `v` from `a` up, least significant first (20_memory.md R64, R65). -/
def Memory.writeLE (m : Memory) : Nat → Nat → Nat → Memory
  | 0, _, _ => m
  | n + 1, a, v => (m.write a (BitVec.ofNat 8 v)).writeLE n (a + 1) (v / 256)

/-- A list of values written to consecutive 64-byte slots (20_memory.md R62), `n` bytes each, the first at `a`. -/
def Memory.writeSlots (m : Memory) (n : Nat) : Nat → List Nat → Memory
  | _, [] => m
  | a, v :: vs => (m.writeLE n a v).writeSlots n (a + 0x40) vs

/-! ## Registers -/

/-- `S[i]` (10_state.md R20). -/
def State.getS (s : State) (i : SReg) : Nat := s.sreg[i]

/-- `S[i] <- v`. -/
def State.setS (s : State) (i : SReg) (v : Nat) : State := { s with sreg := s.sreg.set i v i.isLt }

/-- `PR[i]` (10_state.md R22). -/
def State.getPR (s : State) (i : PReg) : Point := s.preg[i]

/-- `PR[i] <- pt`. -/
def State.setPR (s : State) (i : PReg) (pt : Point) : State := { s with preg := s.preg.set i pt i.isLt }

/-- A point's coordinate. -/
def Point.coord (pt : Point) : Coord → Nat
  | .x => pt.x
  | .y => pt.y
  | .z => pt.z

/-- A point with one coordinate replaced; the other two keep their values (41_move.md R144). -/
def Point.withCoord (pt : Point) (c : Coord) (v : Nat) : Point :=
  match c with
  | .x => { pt with x := v }
  | .y => { pt with y := v }
  | .z => { pt with z := v }

/-- `DEG[b]` (10_state.md R29). -/
def State.getDeg (s : State) (b : Bank) : Nat := s.deg[b]

/-- `DEG[b] <- t`. -/
def State.setDeg (s : State) (b : Bank) (t : Nat) : State := { s with deg := s.deg.set b t b.isLt }

/-! ## Coefficients and shares -/

/-- The bytes of a W-bit value. -/
def valueBytes (b : Build) : Nat := b.w / 8

/-- Window offset of C[b][j] (20_memory.md R62). -/
def coeffAddr (b j : Nat) : Nat := 0x10000 + 0x10000 * b + 0x40 * j

/-- Window offset of SHM[i], i ≥ 1 (20_memory.md R62). -/
def shareAddr (i : Nat) : Nat := 0x200000 + 0x40 * (i - 1)

/-- `C[b][j]` (10_state.md R29). -/
def State.coeff (s : State) (b : Bank) (j : Nat) : Nat := s.mem.readLE (valueBytes s.build) (coeffAddr b j)

/-- `SHM[i]` (10_state.md R31). -/
def State.shm (s : State) (i : Nat) : Nat := s.mem.readLE (valueBytes s.build) (shareAddr i)

/-- `C[b][j] <- v`. -/
def State.setCoeff (s : State) (b : Bank) (j v : Nat) : State :=
  { s with mem := s.mem.writeLE (valueBytes s.build) (coeffAddr b j) v }

/-- `C[b][j] <- v₀`, `C[b][j+1] <- v₁`, and so on along the list. -/
def State.setCoeffs (s : State) (b : Bank) (j : Nat) (vs : List Nat) : State :=
  { s with mem := s.mem.writeSlots (valueBytes s.build) (coeffAddr b j) vs }

/-- A bank written whole (43_poly.md R180, 44_shamir.md R201): DEG[b] <- t, and for j from 0 to T_MAX, C[b][j] is entry
j of `cs` (t + 1 entries), or 0 past them. -/
def State.setBank (s : State) (b : Bank) (t : Nat) (cs : List Nat) : State :=
  (s.setDeg b t).setCoeffs b 0 (cs ++ List.replicate (s.build.tMax - t) 0)

/-- The share memory written whole (44_shamir.md R201): SHM[1] to SHM[N_MAX] from the list, and the share count. -/
def State.setShares (s : State) (n : Nat) (vs : List Nat) : State :=
  { s with mem := s.mem.writeSlots (valueBytes s.build) (shareAddr 1) vs, shareN := n }

/-- The Horner loop of 43_poly.md R188 over coefficients `n − 1` down to 0 of `c`. -/
def hornerLoop (c : Nat → Nat) (x m : Nat) : Nat → Nat → Nat
  | 0, acc => acc
  | j + 1, acc => hornerLoop c x m j ((acc * x + c j % m) % m)

/-- `Eval(b, x, M)` (43_poly.md R188). -/
def State.evalBank (s : State) (b : Bank) (x m : Nat) : Nat :=
  hornerLoop (s.coeff b) x m (s.getDeg b + 1) 0

/-! ## Draws -/

/-- The next answer of the random source, before reduction: the oldest fixed by the environment, else a free value. -/
def State.answer (s : State) : Nat :=
  match s.oracle with
  | v :: _ => v
  | [] => Config.freeDraw s.freeIx

/-- The state after one answer is taken. -/
def State.afterAnswer (s : State) : State :=
  match s.oracle with
  | _ :: vs => { s with oracle := vs }
  | [] => { s with freeIx := s.freeIx + 1 }

/-- `Draw(M)`: one answer in [0, M) (00_scope.md R16; assumption log 4). -/
def State.draw (s : State) (m : Nat) : Nat := s.answer % m

/-- `n` draws in order (92_eei_decisions.md D57): the answers and the state after them. -/
def State.draws (m : Nat) : Nat → State → List Nat × State
  | 0, s => ([], s)
  | n + 1, s =>
    let rest := State.draws m n s.afterAnswer
    (s.draw m :: rest.1, rest.2)

/-! ## The life cycle of a command -/

/-- Acceptance of word `v` (60_exceptions.md R225), all in one step. -/
def State.accept (s : State) (v : Word) : State :=
  { s with cmd := v, phase := .inFlight, status := s.status.accepted }

/-- Completion with code `e` (60_exceptions.md R226), on the state with every destination already written. -/
def State.complete (s : State) (e : ECode) (inf : Bool) : State :=
  { s with phase := .idle, status := s.status.completed e inf }

/-- `raise E` (00_scope.md R15): the command completes with code `e`, and no destination is written. This is the
block's whole answer to an error; it takes no trap (60_exceptions.md R232, R233). -/
def raiseError (e : ECode) (s : State) : Host.Outcome State Fault Refusal := .next (s.complete e false)

/-- A command completes without error; `s` has its destinations written, `inf` is the INF flag (42_curve.md R165). -/
def succeed (inf : Bool) (s : State) : Host.Outcome State Fault Refusal := .next (s.complete .none inf)

/-- The instruction of the accepted word (60_exceptions.md R226, 30_encoding.md R99). -/
def State.fetch (s : State) : Except Illegal Instr := decode s.build.nPoly s.cmd

/-! ## Reset -/

/-- The end of the initialisation phase: BUSY becomes 0, DONE stays 0 (70_reset_and_hazards.md R251). -/
def State.endInit (s : State) : State := { s with phase := .idle }

/-- Reset asserted (70_reset_and_hazards.md R250, R253): a command in flight is abandoned and every piece of state takes
its reset value; the build and the environment are not the block's to change (assumption log 8). -/
def State.assertReset (s : State) : State :=
  { State.resetOf s.build with
      resetLine := true, inputs := s.inputs, response := s.response, oracle := s.oracle, freeIx := s.freeIx }

/-- Reset released (70_reset_and_hazards.md R251): the initialisation phase begins. Without an asserted reset there is
nothing to release. -/
def State.releaseReset (s : State) : State :=
  if s.resetLine then { s with resetLine := false, phase := .initialising } else s

end Sys2Proof.Machine
end

