-- ==== Sys2Proof/Machine/Operands.lean ====
section
/-! DEFINITION. Operand forms: moduli (00_scope.md R18), reduced field operands (10_state.md R24), point sources
(R26), the XZ and affine readings of a point (R23, 42_curve.md R151, R152) and the writing of point results (R25). -/

namespace Sys2Proof.Machine

/-- `M(m)` for a field command: CFG.P, CFG.Q or CFG.R when the command executes (00_scope.md R18, 30_encoding.md R93). -/
def State.fieldMod (s : State) : FieldMod → Nat
  | .p => s.cfg.p
  | .q => s.cfg.q
  | .r => s.cfg.r

/-- `M(m)` for a polynomial or Shamir command: CFG.Q or CFG.R. -/
def State.scalarMod (s : State) : ScalarMod → Nat
  | .q => s.cfg.q
  | .r => s.cfg.r

/-- A bank field names a bank of this build; past NPOLY the command is ILLEGAL (30_encoding.md R92, R97). -/
def State.bankOk (s : State) (b : Bank) : Bool := decide (b.val < s.build.nPoly)

/-- `PointSource(f)`: PR0 to PR7, or a generator with Z = 1 (10_state.md R26). -/
def State.pointSource (s : State) : PSrc → Point
  | .reg r => s.getPR r
  | .gen .g => { x := s.cfg.gx, y := s.cfg.gy, z := 1 }
  | .gen .h => { x := s.cfg.hx, y := s.cfg.hy, z := 1 }
  | .gen .k => { x := s.cfg.kx, y := s.cfg.ky, z := 1 }

/-- A pair (X, Z) of residues (10_state.md R23). -/
structure XZ where
  x : Nat
  z : Nat
deriving DecidableEq, Repr

/-- (0, 0), no projective point (42_curve.md R151). -/
def XZ.isNull (a : XZ) : Bool := decide (a.x = 0) && decide (a.z = 0)

/-- `ReadXZ` before its check: X and Z reduced modulo P (42_curve.md R151). -/
def State.readXZ (s : State) (src : PSrc) : XZ :=
  { x := (s.pointSource src).x % s.cfg.p, z := (s.pointSource src).z % s.cfg.p }

/-- An affine point: the identity O or a finite point (42_curve.md R150). -/
inductive Affine where
  | identity
  | finite (x y : Nat)
deriving DecidableEq, Repr

/-- `ReadAff` (42_curve.md R152): O if z = 0, (x, y) if z = 1, and the error PARAM, here `none`, for any other z;
coordinates reduced modulo P. -/
def State.readAff (s : State) (src : PSrc) : Option Affine :=
  let pt := s.pointSource src
  if pt.z % s.cfg.p = 0 then some .identity
  else if pt.z % s.cfg.p = 1 then some (.finite (pt.x % s.cfg.p) (pt.y % s.cfg.p))
  else none

/-- How an affine result is stored (10_state.md R25): (x, y, 1), and O as (1, 1, 0). -/
def Affine.toPoint : Affine → Point
  | .identity => { x := 1, y := 1, z := 0 }
  | .finite x y => { x := x, y := y, z := 1 }

/-- The INF flag of an affine result (42_curve.md R165). -/
def Affine.isIdentity : Affine → Bool
  | .identity => true
  | .finite _ _ => false

/-- How an XZ result is stored (10_state.md R25): (X, 0, Z). -/
def XZ.toPoint (a : XZ) : Point := { x := a.x, y := 0, z := a.z }

end Sys2Proof.Machine
end

