-- ==== Sys2Proof/Machine/Bus.lean ====
section
/-! DEFINITION. The bus interface (20_memory.md): the address map of the window, host reads and host writes, the busy
window, the configuration lock and the write restrictions. -/

namespace Sys2Proof.Machine

/-! ## The address map -/

/-- The configuration registers, in the order of their slots (20_memory.md R62). -/
inductive CfgReg where
  | p | q | r | a | a24 | gx | gy | hx | hy | kx | ky
deriving DecidableEq, Repr

/-- The W-bit locations of 20_memory.md R62. -/
inductive DataLoc where
  | cfg (c : CfgReg)
  | scalar (i : SReg)
  | point (i : PReg) (c : Coord)
  | coeff (b : Bank) (j : Nat)
  | share (i : Nat)
deriving DecidableEq, Repr

/-- What a word offset of the window names (20_memory.md R61, R62, R67). -/
inductive Loc where
  | id | version | ctrl | status | cmd
  | cfgW | cfgTMax | cfgNMax | cfgNPoly
  | shareN
  | deg (b : Bank)
  /-- Word `word` of the slot of a data location; words W/32 to 15 of a slot hold nothing (R64). -/
  | data (l : DataLoc) (word : Nat)
  | reserved
deriving DecidableEq, Repr

/-- The configuration register of slot `k` (20_memory.md R62). -/
def cfgSlot : Nat → Option CfgReg
  | 0 => some .p
  | 1 => some .q
  | 2 => some .r
  | 3 => some .a
  | 4 => some .a24
  | 5 => some .gx
  | 6 => some .gy
  | 7 => some .hx
  | 8 => some .hy
  | 9 => some .kx
  | 10 => some .ky
  | _ => none

/-- The coordinate of slot `c` of a point register (20_memory.md R62); slot 3 is reserved. -/
def coordSlot : Nat → Option Coord
  | 0 => some .x
  | 1 => some .y
  | 2 => some .z
  | _ => none

/-- The control page (20_memory.md R61). -/
def controlLoc (off : Nat) : Loc :=
  if off = 0x000 then .id
  else if off = 0x004 then .version
  else if off = 0x008 then .ctrl
  else if off = 0x00C then .status
  else if off = 0x010 then .cmd
  else if off = 0x020 then .cfgW
  else if off = 0x024 then .cfgTMax
  else if off = 0x028 then .cfgNMax
  else if off = 0x02C then .cfgNPoly
  else if off = 0x030 then .shareN
  else if 0x040 ≤ off ∧ off < 0x080 then .deg ⟨off % 0x40 / 4, by omega⟩
  else .reserved

/-- The data location whose 64-byte slot holds offset `off`, if there is one (20_memory.md R62): the region by the
high part of the offset, the slot in it by the low part. -/
def slotAt (b : Build) (off : Nat) : Option DataLoc :=
  if 0x1000 ≤ off ∧ off < 0x2000 then (cfgSlot (off % 0x1000 / 0x40)).map .cfg
  else if 0x2000 ≤ off ∧ off < 0x2400 then some (.scalar ⟨off % 0x400 / 0x40, by omega⟩)
  else if 0x3000 ≤ off ∧ off < 0x3800 then
    (coordSlot (off % 0x100 / 0x40)).map (.point ⟨off % 0x800 / 0x100, by omega⟩)
  else if h : 0x10000 ≤ off ∧ off < 0x110000 then
    if off / 0x10000 - 1 < b.nPoly ∧ off % 0x10000 / 0x40 ≤ b.tMax then
      some (.coeff ⟨off / 0x10000 - 1, by omega⟩ (off % 0x10000 / 0x40))
    else none
  else if 0x200000 ≤ off ∧ off < 0x400000 ∧ off % 0x200000 / 0x40 + 1 ≤ b.nMax then
    some (.share (off % 0x200000 / 0x40 + 1))
  else none

/-- The location of a word offset of the window. -/
def locate (b : Build) (off : Nat) : Loc :=
  if off < 0x1000 then controlLoc off
  else
    match slotAt b off with
    | some l => .data l (off % 0x40 / 4)
    | none => .reserved

/-! ## Data locations -/

/-- The value of a configuration register. -/
def Cfg.get (c : Cfg) : CfgReg → Nat
  | .p => c.p
  | .q => c.q
  | .r => c.r
  | .a => c.a
  | .a24 => c.a24
  | .gx => c.gx
  | .gy => c.gy
  | .hx => c.hx
  | .hy => c.hy
  | .kx => c.kx
  | .ky => c.ky

/-- A configuration register written. -/
def Cfg.set (c : Cfg) (v : Nat) : CfgReg → Cfg
  | .p => { c with p := v }
  | .q => { c with q := v }
  | .r => { c with r := v }
  | .a => { c with a := v }
  | .a24 => { c with a24 := v }
  | .gx => { c with gx := v }
  | .gy => { c with gy := v }
  | .hx => { c with hx := v }
  | .hy => { c with hy := v }
  | .kx => { c with kx := v }
  | .ky => { c with ky := v }

/-- LOCK freezes every configuration register but CFG.R (10_state.md R35). -/
def CfgReg.lockable : CfgReg → Bool
  | .r => false
  | .p => true
  | .q => true
  | .a => true
  | .a24 => true
  | .gx => true
  | .gy => true
  | .hx => true
  | .hy => true
  | .kx => true
  | .ky => true

/-- The value a data location holds. -/
def State.dataValue (s : State) : DataLoc → Nat
  | .cfg c => s.cfg.get c
  | .scalar i => s.getS i
  | .point i c => (s.getPR i).coord c
  | .coeff b j => s.coeff b j
  | .share i => s.shm i

/-- Whether an idle block takes a host write of a data location: not a locked configuration register, not a
coefficient above DEG, not a share (20_memory.md R63, 10_state.md R35). -/
def State.hostMayWrite (s : State) : DataLoc → Bool
  | .cfg c => !(s.ctrl.lock && c.lockable)
  | .scalar _ => true
  | .point _ _ => true
  | .coeff b j => decide (j ≤ s.getDeg b)
  | .share _ => false

/-- A data location with the value `v`; a share is never written by the host. -/
def State.setData (s : State) (v : Nat) : DataLoc → State
  | .cfg c => { s with cfg := s.cfg.set v c }
  | .scalar i => s.setS i v
  | .point i c => s.setPR i ((s.getPR i).withCoord c v)
  | .coeff b j => s.setCoeff b j v
  | .share _ => s

/-- How many words of a slot hold the value: W/32 (20_memory.md R64). -/
def valueWords (b : Build) : Nat := b.w / 32

/-! ## Host accesses to the window -/

/-- Whether the value a location shows depends on the busy window: data locations, SHARE_N and DEG (20_memory.md R70). -/
def Loc.hiddenWhileBusy : Loc → Bool
  | .data _ _ => true
  | .shareN => true
  | .deg _ => true
  | .id => false
  | .version => false
  | .ctrl => false
  | .status => false
  | .cmd => false
  | .cfgW => false
  | .cfgTMax => false
  | .cfgNMax => false
  | .cfgNPoly => false
  | .reserved => false

/-- The defined value of a location (20_memory.md R61, R64, R67). -/
def State.locWord (s : State) : Loc → Word
  | .id => idValue
  | .version => versionValue
  | .ctrl => s.ctrlWord
  | .status => s.statusWord
  | .cmd => s.cmd
  | .cfgW => BitVec.ofNat 32 s.build.w
  | .cfgTMax => BitVec.ofNat 32 s.build.tMax
  | .cfgNMax => BitVec.ofNat 32 s.build.nMax
  | .cfgNPoly => BitVec.ofNat 32 s.build.nPoly
  | .shareN => BitVec.ofNat 32 s.shareN
  | .deg b => if b.val < s.build.nPoly then BitVec.ofNat 32 (s.getDeg b) else 0
  | .data l i => if i < valueWords s.build then wordOf (s.dataValue l) i else 0
  | .reserved => 0

/-- A host read of the word at offset `off`: the word and the free value it may use up. No other state changes
(20_memory.md R69, R70). -/
def State.hostRead (s : State) (off : Nat) : State :=
  if s.busy && (locate s.build off).hiddenWhileBusy then
    { s with response := some (Config.freeWord s.freeIx), freeIx := s.freeIx + 1 }
  else { s with response := some (s.locWord (locate s.build off)) }

/-- A host write of word `i` of a data location. Busy: dropped, and OVR is set (20_memory.md R71; assumption log 12 and
13). Idle: the word is replaced unless the write is one that is ignored (R63, R64). -/
def State.writeData (s : State) (l : DataLoc) (i : Nat) (v : Word) : State :=
  if s.busy then { s with status := s.status.overrun }
  else if s.hostMayWrite l && decide (i < valueWords s.build) then s.setData (withWord (s.dataValue l) i v) l
  else s

/-- A host write of CMD: accepted while idle, dropped with OVR while busy (10_state.md R38). -/
def State.writeCmd (s : State) (v : Word) : State :=
  if s.busy then { s with status := s.status.overrun } else s.accept v

/-- A host write of word `v` to a location (20_memory.md R61, R67, R69): read-only and reserved locations ignore it. -/
def State.writeLoc (s : State) (v : Word) : Loc → State
  | .ctrl => { s with ctrl := s.ctrl.written v }
  | .status => { s with status := s.status.written v }
  | .cmd => s.writeCmd v
  | .data l i => s.writeData l i v
  | .id => s
  | .version => s
  | .cfgW => s
  | .cfgTMax => s
  | .cfgNMax => s
  | .cfgNPoly => s
  | .shareN => s
  | .deg _ => s
  | .reserved => s

/-- A host write of word `v` at offset `off`. -/
def State.hostWrite (s : State) (off : Nat) (v : Word) : State := s.writeLoc v (locate s.build off)

/-! ## Bus accesses -/

/-- The size of the window (20_memory.md R60). -/
def windowSize : Nat := 0x400000

/-- Whether a bus address lies in the window at BASE (20_memory.md R60). -/
def inWindow (b : Build) (addr : Nat) : Bool := decide (b.base ≤ addr) && decide (addr < b.base + windowSize)

/-- Whether an access is one the spec defines: 32 bits wide, at an offset that is a multiple of 4 (20_memory.md R66). -/
def definedAccess (off size : Nat) : Bool := decide (size = 4) && decide (off % 4 = 0)

/-- A bus access of `size` bytes at `addr`, which does `act` at its offset when the block answers it: outside the window
the block does not decode it (20_memory.md R67), while reset is asserted no host step exists (70_reset_and_hazards.md R250),
and an access that R66 does not define is refused (assumption log 9, 10 and 11). -/
def busAccess (addr size : Nat) (act : State → Nat → State) (s : State) : Host.Outcome State Fault Refusal :=
  if inWindow s.build addr = false then .fault .outsideWindow
  else if s.resetLine then .fault .accessInReset
  else if definedAccess (addr - s.build.base) size = false then .refused .busBadAccess
  else .next (act s (addr - s.build.base))

/-- A host read on the bus. -/
def busRead (addr size : Nat) (s : State) : Host.Outcome State Fault Refusal :=
  busAccess addr size State.hostRead s

/-- A host write on the bus. -/
def busWrite (addr size : Nat) (v : Word) (s : State) : Host.Outcome State Fault Refusal :=
  busAccess addr size (fun t off => t.hostWrite off v) s

end Sys2Proof.Machine
end

