-- ==== Sys2Proof/Machine/Curve.lean ====
section
/-! DEFINITION. The Montgomery curve engine (42_curve.md): the XZ functions (R154, R155), the ladder (R156), the
recovery of y (R157), and the commands over them. The formulas are those the spec's rules state; that they are the
right curve arithmetic is the spec's own general knowledge (93_implementation_defined.md part 3; assumption log 23). -/

namespace Sys2Proof.Machine

/-- xADD (42_curve.md R154). -/
def xADD (P : Nat) (a b d : XZ) : XZ :=
  let U : Nat := modZ (((a.x : Int) - a.z) * ((b.x : Int) + b.z)) P
  let V : Nat := modZ (((a.x : Int) + a.z) * ((b.x : Int) - b.z)) P
  { x := modZ ((d.z : Int) * ((U : Int) + V) ^ 2) P
    z := modZ ((d.x : Int) * ((U : Int) - V) ^ 2) P }

/-- xDBL, with the reduced coefficient A24 (42_curve.md R155). -/
def xDBL (P A24 : Nat) (a : XZ) : XZ :=
  let sq : Nat := modZ (((a.x : Int) + a.z) ^ 2) P
  let df : Nat := modZ (((a.x : Int) - a.z) ^ 2) P
  let t : Nat := modZ ((sq : Int) - df) P
  { x := modZ ((sq : Int) * df) P
    z := modZ ((t : Int) * ((df : Int) + (A24 : Int) * t)) P }

/-- One step of the ladder for the bit `bit` of k: one xADD and one xDBL, both from the pair before the step
(42_curve.md R156). -/
def ladderStep (P A24 : Nat) (D : XZ) (bit : Bool) (l : XZ × XZ) : XZ × XZ :=
  if bit then (xADD P l.1 l.2 D, xDBL P A24 l.2) else (xDBL P A24 l.1, xADD P l.1 l.2 D)

/-- The ladder's loop over bits `i − 1` down to 0 of k (42_curve.md R156). -/
def ladderLoop (P A24 : Nat) (D : XZ) (k : Nat) : Nat → XZ × XZ → XZ × XZ
  | 0, l => l
  | i + 1, l => ladderLoop P A24 D k i (ladderStep P A24 D (k.testBit i) l)

/-- `Ladder(k, x)`: (x(kB), x((k+1)B)) in XZ form, from (O, B), in bitlen(k) steps (42_curve.md R156). -/
def ladder (P A24 k x : Nat) : XZ × XZ :=
  ladderLoop P A24 { x := x, z := 1 } k (bitlen k) ({ x := 1, z := 0 }, { x := x, z := 1 })

/-- The projective point (X′, Y′, Z′) that the recovery formula of 42_curve.md R157 computes from the base (x, y), every
line reduced modulo P. -/
def recoverXYZ (P A : Nat) (x y : Nat) (q r : XZ) : Point :=
  let v1 : Nat := modZ ((x : Int) * q.z) P
  let v2 : Nat := modZ ((q.x : Int) + v1) P
  let v3 : Nat := modZ (((q.x : Int) - v1) ^ 2 * r.x) P
  let w1 : Nat := modZ (2 * (A : Int) * q.z) P
  let w2 : Nat := modZ ((v2 : Int) + w1) P
  let v4 : Nat := modZ ((x : Int) * q.x + q.z) P
  let u2 : Nat := modZ ((w2 : Int) * v4) P
  let u1 : Nat := modZ ((w1 : Int) * q.z) P
  let t2 : Nat := modZ ((u2 : Int) - u1) P
  let s2 : Nat := modZ ((t2 : Int) * r.z) P
  let n1 : Nat := modZ (2 * (y : Int) * q.z * r.z) P
  { x := modZ ((n1 : Int) * q.x) P
    y := modZ ((s2 : Int) - v3) P
    z := modZ ((n1 : Int) * q.z) P }

/-- `Recover(B, Q, S)` for the finite base (x, y) (42_curve.md R157): O when ZQ = 0, −B when ZS = 0, and else the
formula's point made affine, with the errors DEGENERATE and NOT_INVERTIBLE of its denominator. -/
def recover (P A : Nat) (x y : Nat) (q r : XZ) : Except ECode Affine :=
  if q.z = 0 then .ok .identity
  else if r.z = 0 then .ok (.finite x (modZ ((P : Int) - y) P))
  else
    let pt := recoverXYZ P A x y q r
    if pt.z = 0 then .error .degenerate
    else if Nat.gcd pt.z P ≠ 1 then .error .notInvertible
    else .ok (.finite (pt.x * invMod pt.z P % P) (pt.y * invMod pt.z P % P))

/-- CFG.A mod P (42_curve.md R150). -/
def State.coeffA (s : State) : Nat := s.cfg.a % s.cfg.p

/-- CFG.A24 mod P (42_curve.md R150). -/
def State.coeffA24 (s : State) : Nat := s.cfg.a24 % s.cfg.p

/-- The end of RECOV and SMUL (42_curve.md R163, R164, R165): an affine result written to PR[rd] with its INF flag, or the
error the recovery raised. -/
def finishAffine (rd : PReg) (r : Except ECode Affine) (s : State) : Host.Outcome State Fault Refusal :=
  match r with
  | .ok pt => succeed pt.isIdentity (s.setPR rd pt.toPoint)
  | .error e => raiseError e s

/-- XADD, differential addition (42_curve.md R160). -/
def execXadd (rd : PReg) (srcP srcQ srcDiff : PSrc) (s : State) : Host.Outcome State Fault Refusal :=
  if s.cfg.p < 2 then raiseError .param s
  else
    let a := s.readXZ srcP
    let b := s.readXZ srcQ
    let d := s.readXZ srcDiff
    if a.isNull || b.isNull || d.isNull then raiseError .degenerate s
    else if d.z = 0 then raiseError .degenerate s
    else
      let r := xADD s.cfg.p a b d
      if r.isNull then raiseError .degenerate s
      else succeed false (s.setPR rd r.toPoint)

/-- XDBL, doubling (42_curve.md R161). -/
def execXdbl (rd : PReg) (src : PSrc) (s : State) : Host.Outcome State Fault Refusal :=
  if s.cfg.p < 2 then raiseError .param s
  else
    let a := s.readXZ src
    if a.isNull then raiseError .degenerate s
    else
      let r := xDBL s.cfg.p s.coeffA24 a
      if r.isNull then raiseError .degenerate s
      else succeed false (s.setPR rd r.toPoint)

/-- LADDER (42_curve.md R162); equal destinations are ILLEGAL (30_encoding.md R96, R97; assumption log 15). -/
def execLadder (rd re : PReg) (ra : SReg) (base : PSrc) (s : State) : Host.Outcome State Fault Refusal :=
  if rd = re then raiseError .illegal s
  else if s.cfg.p < 2 then raiseError .param s
  else
    match s.readAff base with
    | none => raiseError .param s
    | some .identity => raiseError .degenerate s
    | some (.finite x _) =>
      if x = 0 then raiseError .degenerate s
      else
        let l := ladder s.cfg.p s.coeffA24 (s.getS ra) x
        if l.1.isNull || l.2.isNull then raiseError .degenerate s
        else succeed false ((s.setPR rd l.1.toPoint).setPR re l.2.toPoint)

/-- RECOV, Y-coordinate recovery (42_curve.md R163). -/
def execRecov (rd : PReg) (base srcK srcK1 : PSrc) (s : State) : Host.Outcome State Fault Refusal :=
  if s.cfg.p < 2 then raiseError .param s
  else
    match s.readAff base with
    | none => raiseError .param s
    | some .identity => raiseError .degenerate s
    | some (.finite x y) =>
      let q := s.readXZ srcK
      let r := s.readXZ srcK1
      if q.isNull || r.isNull then raiseError .degenerate s
      else finishAffine rd (recover s.cfg.p s.coeffA x y q r) s

/-- SMUL, scalar multiplication: ladder then recovery (42_curve.md R164). -/
def execSmul (rd : PReg) (ra : SReg) (base : PSrc) (s : State) : Host.Outcome State Fault Refusal :=
  if s.cfg.p < 2 then raiseError .param s
  else
    match s.readAff base with
    | none => raiseError .param s
    | some .identity => finishAffine rd (.ok .identity) s
    | some (.finite x y) =>
      if x = 0 then raiseError .degenerate s
      else
        let l := ladder s.cfg.p s.coeffA24 (s.getS ra) x
        if l.1.isNull || l.2.isNull then raiseError .degenerate s
        else finishAffine rd (recover s.cfg.p s.coeffA x y l.1 l.2) s

end Sys2Proof.Machine
end

