-- ==== Sys2Proof/Machine/Field.lean ====
section
/-! DEFINITION. The field arithmetic commands (40_field.md). -/

namespace Sys2Proof.Machine

/-- The template of 40_field.md R120 for two field operands: the modulus check, the operands reduced, and S[rd]
written with `f` of them and M. -/
def fieldBinary (f : Nat → Nat → Nat → Nat) (m : FieldMod) (rd ra rb : SReg) (s : State) :
    Host.Outcome State Fault Refusal :=
  let M := s.fieldMod m
  if M < 2 then raiseError .param s
  else succeed false (s.setS rd (f (s.getS ra % M) (s.getS rb % M) M))

/-- FADD, modular addition (40_field.md R121). -/
def execFadd (m : FieldMod) (rd ra rb : SReg) (s : State) : Host.Outcome State Fault Refusal :=
  fieldBinary (fun a b M => (a + b) % M) m rd ra rb s

/-- FSUB, modular subtraction, never negative (40_field.md R122). -/
def execFsub (m : FieldMod) (rd ra rb : SReg) (s : State) : Host.Outcome State Fault Refusal :=
  fieldBinary (fun a b M => modZ ((a : Int) - (b : Int)) M) m rd ra rb s

/-- FMUL, modular multiplication of the exact product (40_field.md R123). -/
def execFmul (m : FieldMod) (rd ra rb : SReg) (s : State) : Host.Outcome State Fault Refusal :=
  fieldBinary (fun a b M => a * b % M) m rd ra rb s

/-- FINV, modular inverse, NOT_INVERTIBLE when gcd(a, M) ≠ 1 (40_field.md R124). -/
def execFinv (m : FieldMod) (rd ra : SReg) (s : State) : Host.Outcome State Fault Refusal :=
  let M := s.fieldMod m
  if M < 2 then raiseError .param s
  else
    let a := s.getS ra % M
    if Nat.gcd a M ≠ 1 then raiseError .notInvertible s
    else succeed false (s.setS rd (invMod a M))

/-- FEXP, modular exponentiation; the exponent is the raw register, not reduced (40_field.md R125). -/
def execFexp (m : FieldMod) (rd ra rb : SReg) (s : State) : Host.Outcome State Fault Refusal :=
  let M := s.fieldMod m
  if M < 2 then raiseError .param s
  else succeed false (s.setS rd (powMod (s.getS ra % M) (s.getS rb) M))

/-- FRAND, one draw in [0, M) (40_field.md R126). -/
def execFrand (m : FieldMod) (rd : SReg) (s : State) : Host.Outcome State Fault Refusal :=
  let M := s.fieldMod m
  if M < 2 then raiseError .param s
  else succeed false (s.afterAnswer.setS rd (s.draw M))

end Sys2Proof.Machine
end

