-- ==== Sys2Proof/Machine/Move.lean ====
section
/-! DEFINITION. The no-operation and move commands (41_move.md): none reads a modulus, reduces a value or draws. -/

namespace Sys2Proof.Machine

/-- NOP: no state written; it still passes through completion (41_move.md R140). -/
def execNop (s : State) : Host.Outcome State Fault Refusal := succeed false s

/-- MOV, a raw copy (41_move.md R141). -/
def execMov (rd ra : SReg) (s : State) : Host.Outcome State Fault Refusal :=
  succeed false (s.setS rd (s.getS ra))

/-- LDI, the immediate zero-extended (41_move.md R142). -/
def execLdi (rd : SReg) (imm : Byte) (s : State) : Host.Outcome State Fault Refusal :=
  succeed false (s.setS rd imm.toNat)

/-- PGET, one raw coordinate of a point source (41_move.md R143). -/
def execPget (rd : SReg) (src : PSrc) (c : Coord) (s : State) : Host.Outcome State Fault Refusal :=
  succeed false (s.setS rd ((s.pointSource src).coord c))

/-- PPUT, one coordinate of a point register, stored raw (41_move.md R144). -/
def execPput (rd : PReg) (c : Coord) (ra : SReg) (s : State) : Host.Outcome State Fault Refusal :=
  succeed false (s.setPR rd ((s.getPR rd).withCoord c (s.getS ra)))

end Sys2Proof.Machine
end

