-- ==== Sys2Proof/Machine/Poly.lean ====
section
/-! DEFINITION. The polynomial engine commands (43_poly.md). A bank number past NPOLY is ILLEGAL by decoding
(30_encoding.md R97); the meanings say so too, so that they are right on every term of `Instr` (assumption log 15). -/

namespace Sys2Proof.Machine

/-- PRAND, a random polynomial of degree bound t = S[ra] (43_poly.md R180). -/
def execPrand (m : ScalarMod) (b : Bank) (ra : SReg) (s : State) : Host.Outcome State Fault Refusal :=
  let M := s.scalarMod m
  let t := s.getS ra
  if s.bankOk b = false then raiseError .illegal s
  else if M < 2 then raiseError .param s
  else if s.build.tMax < t then raiseError .param s
  else
    let d := State.draws M (t + 1) s
    succeed false (d.2.setBank b t d.1)

/-- PEVAL, Horner evaluation at S[ra] mod M (43_poly.md R181, R188). -/
def execPeval (m : ScalarMod) (rd : SReg) (b : Bank) (ra : SReg) (s : State) : Host.Outcome State Fault Refusal :=
  let M := s.scalarMod m
  if s.bankOk b = false then raiseError .illegal s
  else if M < 2 then raiseError .param s
  else succeed false (s.setS rd (s.evalBank b (s.getS ra % M) M))

/-- PCGET, the raw coefficient j = S[ra] (43_poly.md R182). -/
def execPcget (rd : SReg) (b : Bank) (ra : SReg) (s : State) : Host.Outcome State Fault Refusal :=
  let j := s.getS ra
  if s.bankOk b = false then raiseError .illegal s
  else if s.getDeg b < j then raiseError .param s
  else succeed false (s.setS rd (s.coeff b j))

/-- PCSET, coefficient j = S[ra] written with S[rb] mod M (43_poly.md R185). -/
def execPcset (m : ScalarMod) (b : Bank) (ra rb : SReg) (s : State) : Host.Outcome State Fault Refusal :=
  let M := s.scalarMod m
  let j := s.getS ra
  if s.bankOk b = false then raiseError .illegal s
  else if M < 2 then raiseError .param s
  else if s.getDeg b < j then raiseError .param s
  else succeed false (s.setCoeff b j (s.getS rb % M))

/-- PSDEG, the degree bound set to t = S[ra] and the coefficients above it zeroed (43_poly.md R186). -/
def execPsdeg (b : Bank) (ra : SReg) (s : State) : Host.Outcome State Fault Refusal :=
  let t := s.getS ra
  if s.bankOk b = false then raiseError .illegal s
  else if s.build.tMax < t then raiseError .param s
  else succeed false ((s.setDeg b t).setCoeffs b (t + 1) (List.replicate (s.build.tMax - t) 0))

/-- PGDEG, the degree bound read (43_poly.md R187). -/
def execPgdeg (rd : SReg) (b : Bank) (s : State) : Host.Outcome State Fault Refusal :=
  if s.bankOk b = false then raiseError .illegal s
  else succeed false (s.setS rd (s.getDeg b))

end Sys2Proof.Machine
end

