-- ==== Sys2Proof/Machine/Shamir.lean ====
section
/-! DEFINITION. The Shamir sharing commands (44_shamir.md). -/

namespace Sys2Proof.Machine

/-- SHM[1] to SHM[N_MAX] for a share count n: the evaluations of the bank at 1 to n, then zeros (44_shamir.md R201). -/
def State.shareValues (s : State) (b : Bank) (n M : Nat) : List Nat :=
  (List.range s.build.nMax).map fun k => if k + 1 ≤ n then s.evalBank b (k + 1) M else 0

/-- SHARE, share generation for the count n = S[ra] (44_shamir.md R201). The shares are evaluated on the new bank. -/
def execShare (m : ScalarMod) (b : Bank) (ra : SReg) (s : State) : Host.Outcome State Fault Refusal :=
  let M := s.scalarMod m
  let n := s.getS ra
  if s.bankOk b = false then raiseError .illegal s
  else if M < 2 then raiseError .param s
  else if n % 2 = 1 then raiseError .param s
  else if n < 2 then raiseError .param s
  else if s.build.nMax < n then raiseError .param s
  else if M ≤ n then raiseError .param s
  else
    let t := n / 2 - 1
    let d := State.draws M (t + 1) s
    let s1 := d.2.setBank b t d.1
    succeed false (s1.setShares n (s1.shareValues b n M))

/-- SGET, share i = S[ra] read raw (44_shamir.md R202). -/
def execSget (rd ra : SReg) (s : State) : Host.Outcome State Fault Refusal :=
  let i := s.getS ra
  if i < 1 ∨ s.shareN < i then raiseError .param s
  else succeed false (s.setS rd (s.shm i))

end Sys2Proof.Machine
end

