-- ==== Sys2Proof/Machine/Dispatch.lean ====
section
/-! DEFINITION. One arm per command: its meaning, from the state at acceptance to the state after completion. -/

namespace Sys2Proof.Machine

def exec (i : Instr) (s : State) : Host.Outcome State Fault Refusal :=
  match i with
  | .nop => Sys2Proof.Machine.execNop s
  | .fadd m rd ra rb => Sys2Proof.Machine.execFadd m rd ra rb s
  | .fsub m rd ra rb => Sys2Proof.Machine.execFsub m rd ra rb s
  | .fmul m rd ra rb => Sys2Proof.Machine.execFmul m rd ra rb s
  | .finv m rd ra => Sys2Proof.Machine.execFinv m rd ra s
  | .fexp m rd ra rb => Sys2Proof.Machine.execFexp m rd ra rb s
  | .frand m rd => Sys2Proof.Machine.execFrand m rd s
  | .mov rd ra => Sys2Proof.Machine.execMov rd ra s
  | .ldi rd imm => Sys2Proof.Machine.execLdi rd imm s
  | .pget rd src c => Sys2Proof.Machine.execPget rd src c s
  | .pput rd c ra => Sys2Proof.Machine.execPput rd c ra s
  | .xadd rd srcP srcQ srcDiff => Sys2Proof.Machine.execXadd rd srcP srcQ srcDiff s
  | .xdbl rd src => Sys2Proof.Machine.execXdbl rd src s
  | .ladder rd re ra base => Sys2Proof.Machine.execLadder rd re ra base s
  | .recov rd base srcK srcK1 => Sys2Proof.Machine.execRecov rd base srcK srcK1 s
  | .smul rd ra base => Sys2Proof.Machine.execSmul rd ra base s
  | .prand m b ra => Sys2Proof.Machine.execPrand m b ra s
  | .peval m rd b ra => Sys2Proof.Machine.execPeval m rd b ra s
  | .pcget rd b ra => Sys2Proof.Machine.execPcget rd b ra s
  | .pcset m b ra rb => Sys2Proof.Machine.execPcset m b ra rb s
  | .psdeg b ra => Sys2Proof.Machine.execPsdeg b ra s
  | .pgdeg rd b => Sys2Proof.Machine.execPgdeg rd b s
  | .share m b ra => Sys2Proof.Machine.execShare m b ra s
  | .sget rd ra => Sys2Proof.Machine.execSget rd ra s

end Sys2Proof.Machine
end

