-- ==== Sys2Proof/Machine/Step.lean ====
section
/-! DEFINITION. One step of the machine: the oldest input of the environment, or, with none pending, the engine's own
turn (assumption log 3). And where the host places a command word for the very next step (assumption log 7). -/

namespace Sys2Proof.Machine

/-- The engine's turn: nothing while reset is asserted or while idle (60_exceptions.md R246), the end of the
initialisation (70_reset_and_hazards.md R251), or the completion of the command in flight (60_exceptions.md R226, R227). -/
def engineTurn (s : State) : Host.Outcome State Fault Refusal :=
  if s.resetLine then .next s
  else
    match s.phase with
    | .idle => .next s
    | .initialising => .next s.endInit
    | .inFlight =>
      match s.fetch with
      | .ok i => exec i s
      | .error _ => raiseError .illegal s

/-- One input taken by the block. -/
def takeInput (e : Input) (s : State) : Host.Outcome State Fault Refusal :=
  match e with
  | .read addr size => busRead addr size s
  | .write addr size v => busWrite addr size v s
  | .engine => engineTurn s
  | .assertReset => .next s.assertReset
  | .releaseReset => .next s.releaseReset

/-- One step: the oldest pending input, which is used up, or the engine's turn when none is pending. -/
def step (s : State) : Host.Outcome State Fault Refusal :=
  match s.inputs with
  | [] => engineTurn s
  | e :: es => takeInput e { s with inputs := es }

/-- `s` with the instruction of the low `nbits` bits of `w` accepted as the command in flight, as a host write of CMD
does (60_exceptions.md R225), and the engine's turn as the next input: the very next step completes it. -/
def State.withFetchWord (s : State) (nbits w : Nat) : State :=
  { s.accept (BitVec.ofNat 32 (w % 2 ^ nbits)) with resetLine := false, inputs := .engine :: s.inputs }

end Sys2Proof.Machine
end

