-- ==== Sys2Proof/Machine/Pseudo.lean ====
section
/-! DEFINITION. The pseudo-instructions of 30_encoding.md R102 and their expansions into commands. -/

namespace Sys2Proof.Machine

/-- The pseudo-instructions of 30_encoding.md R102. -/
inductive Pseudo where
  | clr (rd : SReg)
  | fsqr (m : FieldMod) (rd ra : SReg)
  | fdbl (m : FieldMod) (rd ra : SReg)
  | fdiv (m : FieldMod) (rd ra rb : SReg)
  | point (rd : PReg) (sx sy : SReg)
deriving DecidableEq, Repr

/-- The commands a pseudo-instruction stands for, in the order the host issues them; none where its condition
fails: FDIV needs d ≠ a, POINT needs x ≠ 15 and y ≠ 15 because it clobbers S15 (30_encoding.md R102). The host checks
STATUS.ERR between the two commands of FDIV; they are not one atomic command. -/
def Pseudo.expand : Pseudo → Option (List Instr)
  | .clr rd => some [.ldi rd 0]
  | .fsqr m rd ra => some [.fmul m rd ra ra]
  | .fdbl m rd ra => some [.fadd m rd ra ra]
  | .fdiv m rd ra rb => if rd = ra then none else some [.finv m rd rb, .fmul m rd ra rd]
  | .point rd sx sy =>
    if sx = 15 ∨ sy = 15 then none
    else some [.pput rd .x sx, .pput rd .y sy, .ldi 15 1, .pput rd .z 15]

end Sys2Proof.Machine
end

