-- ==== Sys2Proof/Safety.lean ====
section
/-! DEFINITION. The terms claims are made in: what a completion leaves unchanged (60_exceptions.md R229), the invariant of
every state a block of a valid build can reach, and the legality table of 30_encoding.md R92 and R96 said apart from
the decoder. -/

namespace Sys2Proof.Machine

/-! ## Completions and their frames -/

/-- The outcome STATUS records (60_exceptions.md R226): BUSY = 0, DONE = 1, ERR, INF and ECODE, with OVR kept. -/
structure Completed (s t : State) (e : ECode) (inf : Bool) : Prop where
  idle : t.phase = .idle
  done : t.status.done = true
  err : t.status.err = decide (e ≠ .none)
  ecode : t.status.ecode = e
  inf : t.status.inf = inf
  ovr : t.status.ovr = s.status.ovr

/-- No command writes these: configuration, CTRL, CMD (10_state.md R36, R38), the reset input, the build, and the
environment's inputs and last bus word. -/
structure ControlFrame (s t : State) : Prop where
  cfg : t.cfg = s.cfg
  ctrl : t.ctrl = s.ctrl
  cmd : t.cmd = s.cmd
  resetLine : t.resetLine = s.resetLine
  build : t.build = s.build
  inputs : t.inputs = s.inputs
  response : t.response = s.response

/-- No draw was taken and no free value used. -/
structure RandomFrame (s t : State) : Prop where
  oracle : t.oracle = s.oracle
  freeIx : t.freeIx = s.freeIx

/-- The banks, the shares and the share count, byte for byte. -/
structure BanksFrame (s t : State) : Prop where
  deg : ∀ b : Bank, t.getDeg b = s.getDeg b
  bytes : ∀ a : Nat, t.mem.read a = s.mem.read a
  shareN : t.shareN = s.shareN

/-- The command ended with success and wrote `v` to S[rd] and nothing else. -/
structure WroteScalar (s t : State) (rd : SReg) (v : Nat) : Prop where
  outcome : Completed s t .none false
  result : t.getS rd = v
  scalars : ∀ i : SReg, i ≠ rd → t.getS i = s.getS i
  points : ∀ i : PReg, t.getPR i = s.getPR i
  banks : BanksFrame s t
  control : ControlFrame s t
  random : RandomFrame s t

/-- The command ended with success, with the INF flag `inf`, and wrote `pt` to PR[rd] and nothing else. -/
structure WrotePoint (s t : State) (rd : PReg) (pt : Point) (inf : Bool) : Prop where
  outcome : Completed s t .none inf
  result : t.getPR rd = pt
  scalars : ∀ i : SReg, t.getS i = s.getS i
  points : ∀ i : PReg, i ≠ rd → t.getPR i = s.getPR i
  banks : BanksFrame s t
  control : ControlFrame s t
  random : RandomFrame s t

/-- The command completed with code `e` and wrote no destination (60_exceptions.md R229). -/
structure WroteNothing (s t : State) (e : ECode) : Prop where
  outcome : Completed s t e false
  scalars : ∀ i : SReg, t.getS i = s.getS i
  points : ∀ i : PReg, t.getPR i = s.getPR i
  banks : BanksFrame s t
  control : ControlFrame s t
  random : RandomFrame s t

/-- The command ended with success; DEG[b] and the coefficients of bank `b` may have changed, and nothing else but the
random source. -/
structure WroteBank (s t : State) (b : Bank) : Prop where
  outcome : Completed s t .none false
  scalars : ∀ i : SReg, t.getS i = s.getS i
  points : ∀ i : PReg, t.getPR i = s.getPR i
  degs : ∀ c : Bank, c ≠ b → t.getDeg c = s.getDeg c
  bytes : ∀ a : Nat,
    (∀ j : Nat, j ≤ s.build.tMax → a < coeffAddr b j ∨ coeffAddr b j + valueBytes s.build ≤ a) →
      t.mem.read a = s.mem.read a
  shareN : t.shareN = s.shareN
  control : ControlFrame s t

/-- The command ended with success; bank `b`, the shares and the share count may have changed, and nothing else but
the random source. -/
structure WroteShares (s t : State) (b : Bank) : Prop where
  outcome : Completed s t .none false
  scalars : ∀ i : SReg, t.getS i = s.getS i
  points : ∀ i : PReg, t.getPR i = s.getPR i
  degs : ∀ c : Bank, c ≠ b → t.getDeg c = s.getDeg c
  bytes : ∀ a : Nat,
    (∀ j : Nat, j ≤ s.build.tMax → a < coeffAddr b j ∨ coeffAddr b j + valueBytes s.build ≤ a) →
    (∀ i : Nat, 1 ≤ i → i ≤ s.build.nMax → a < shareAddr i ∨ shareAddr i + valueBytes s.build ≤ a) →
      t.mem.read a = s.mem.read a
  control : ControlFrame s t

/-! ## What a command names -/

/-- The modulus a command selects, if it selects one: the list of 60_exceptions.md R222. -/
def selectedModulus (i : Instr) (s : State) : Option Nat :=
  match i with
  | .fadd m _ _ _ => some (s.fieldMod m)
  | .fsub m _ _ _ => some (s.fieldMod m)
  | .fmul m _ _ _ => some (s.fieldMod m)
  | .finv m _ _ => some (s.fieldMod m)
  | .fexp m _ _ _ => some (s.fieldMod m)
  | .frand m _ => some (s.fieldMod m)
  | .xadd _ _ _ _ => some s.cfg.p
  | .xdbl _ _ => some s.cfg.p
  | .ladder _ _ _ _ => some s.cfg.p
  | .recov _ _ _ _ => some s.cfg.p
  | .smul _ _ _ => some s.cfg.p
  | .prand m _ _ => some (s.scalarMod m)
  | .peval m _ _ _ => some (s.scalarMod m)
  | .pcset m _ _ _ => some (s.scalarMod m)
  | .share m _ _ => some (s.scalarMod m)
  | .nop => none
  | .mov _ _ => none
  | .ldi _ _ => none
  | .pget _ _ _ => none
  | .pput _ _ _ => none
  | .pcget _ _ _ => none
  | .psdeg _ _ => none
  | .pgdeg _ _ => none
  | .sget _ _ => none

/-- The scalar register a command writes, from the list of 10_state.md R21. -/
def scalarDest : Instr → Option SReg
  | .fadd _ rd _ _ => some rd
  | .fsub _ rd _ _ => some rd
  | .fmul _ rd _ _ => some rd
  | .finv _ rd _ => some rd
  | .fexp _ rd _ _ => some rd
  | .frand _ rd => some rd
  | .mov rd _ => some rd
  | .ldi rd _ => some rd
  | .pget rd _ _ => some rd
  | .peval _ rd _ _ => some rd
  | .pcget rd _ _ => some rd
  | .pgdeg rd _ => some rd
  | .sget rd _ => some rd
  | .nop => none
  | .pput _ _ _ => none
  | .xadd _ _ _ _ => none
  | .xdbl _ _ => none
  | .ladder _ _ _ _ => none
  | .recov _ _ _ _ => none
  | .smul _ _ _ => none
  | .prand _ _ _ => none
  | .pcset _ _ _ _ => none
  | .psdeg _ _ => none
  | .share _ _ _ => none

/-- The point registers a command writes, from the list of 10_state.md R27. -/
def pointDests : Instr → List PReg
  | .pput rd _ _ => [rd]
  | .xadd rd _ _ _ => [rd]
  | .xdbl rd _ => [rd]
  | .ladder rd re _ _ => [rd, re]
  | .recov rd _ _ _ => [rd]
  | .smul rd _ _ => [rd]
  | .nop => []
  | .fadd _ _ _ _ => []
  | .fsub _ _ _ _ => []
  | .fmul _ _ _ _ => []
  | .finv _ _ _ => []
  | .fexp _ _ _ _ => []
  | .frand _ _ => []
  | .mov _ _ => []
  | .ldi _ _ => []
  | .pget _ _ _ => []
  | .prand _ _ _ => []
  | .peval _ _ _ _ => []
  | .pcget _ _ _ => []
  | .pcset _ _ _ _ => []
  | .psdeg _ _ => []
  | .pgdeg _ _ => []
  | .share _ _ _ => []
  | .sget _ _ => []

/-- The bank a command writes (10_state.md R30): PRAND, PCSET, PSDEG and SHARE write one. -/
def bankDest : Instr → Option Bank
  | .prand _ b _ => some b
  | .pcset _ b _ _ => some b
  | .psdeg b _ => some b
  | .share _ b _ => some b
  | .nop => none
  | .fadd _ _ _ _ => none
  | .fsub _ _ _ _ => none
  | .fmul _ _ _ _ => none
  | .finv _ _ _ => none
  | .fexp _ _ _ _ => none
  | .frand _ _ => none
  | .mov _ _ => none
  | .ldi _ _ => none
  | .pget _ _ _ => none
  | .pput _ _ _ => none
  | .xadd _ _ _ _ => none
  | .xdbl _ _ => none
  | .ladder _ _ _ _ => none
  | .recov _ _ _ _ => none
  | .smul _ _ _ => none
  | .peval _ _ _ _ => none
  | .pcget _ _ _ => none
  | .pgdeg _ _ => none
  | .sget _ _ => none

/-- Whether a command draws: FRAND, PRAND and SHARE (40_field.md R126, 43_poly.md R180, 44_shamir.md R201). -/
def takesDraws : Instr → Bool
  | .frand _ _ => true
  | .prand _ _ _ => true
  | .share _ _ _ => true
  | _ => false

/-! ## The address map, from the table alone -/

/-- Offset of the slot of a data location (20_memory.md R62). -/
def slotOffset : DataLoc → Nat
  | .cfg .p => 0x1000
  | .cfg .q => 0x1040
  | .cfg .r => 0x1080
  | .cfg .a => 0x10C0
  | .cfg .a24 => 0x1100
  | .cfg .gx => 0x1140
  | .cfg .gy => 0x1180
  | .cfg .hx => 0x11C0
  | .cfg .hy => 0x1200
  | .cfg .kx => 0x1240
  | .cfg .ky => 0x1280
  | .scalar i => 0x2000 + 0x40 * i
  | .point i .x => 0x3000 + 0x100 * i
  | .point i .y => 0x3000 + 0x100 * i + 0x40
  | .point i .z => 0x3000 + 0x100 * i + 0x80
  | .coeff b j => 0x10000 + 0x10000 * b + 0x40 * j
  | .share i => 0x200000 + 0x40 * (i - 1)

/-- Which data locations a build has (20_memory.md R62). -/
def locPresent (b : Build) : DataLoc → Bool
  | .cfg _ => true
  | .scalar _ => true
  | .point _ _ => true
  | .coeff k j => decide (k.val < b.nPoly ∧ j ≤ b.tMax)
  | .share i => decide (1 ≤ i ∧ i ≤ b.nMax)

/-! ## The invariant -/

/-- Byte `a` belongs to a coefficient of a bank of this build, or to one of its shares (20_memory.md R62). -/
def ownedByte (b : Build) (a : Nat) : Prop :=
  (∃ k j : Nat, k < b.nPoly ∧ j ≤ b.tMax ∧ coeffAddr k j ≤ a ∧ a < coeffAddr k j + valueBytes b) ∨
  (∃ i : Nat, 1 ≤ i ∧ i ≤ b.nMax ∧ shareAddr i ≤ a ∧ a < shareAddr i + valueBytes b)

/-- Every W-bit register holds a value below 2^W (00_scope.md R11, 10_state.md R20, R22, R32). -/
structure ValuesFit (s : State) : Prop where
  scalars : ∀ i : SReg, s.getS i < 2 ^ s.build.w
  points : ∀ (i : PReg) (c : Coord), (s.getPR i).coord c < 2 ^ s.build.w
  config : ∀ c : CfgReg, s.cfg.get c < 2 ^ s.build.w

/-- The banks: degree bounds in range (10_state.md R29), and the bank invariant (R30). -/
structure BanksOk (s : State) : Prop where
  degLe : ∀ b : Bank, s.getDeg b ≤ s.build.tMax
  zeroAbove : ∀ b : Bank, b.val < s.build.nPoly →
    ∀ j : Nat, s.getDeg b < j → j ≤ s.build.tMax → s.coeff b j = 0

/-- The shares (10_state.md R31): the count in range, and nothing above it. -/
structure SharesOk (s : State) : Prop where
  countLe : s.shareN ≤ s.build.nMax
  zeroAbove : ∀ i : Nat, s.shareN < i → i ≤ s.build.nMax → s.shm i = 0

/-- The memory: its canonical form, and no byte listed outside the coefficients and shares of this build. -/
structure MemoryOk (s : State) : Prop where
  wf : s.mem.wf = true
  owned : ∀ a : Nat, s.mem.read a ≠ 0 → ownedByte s.build a

/-- STATUS (10_state.md R39, R40): ERR equals (ECODE ≠ 0), INF only with success, and no result flag and no DONE while
BUSY (60_exceptions.md R225). -/
structure StatusOk (s : State) : Prop where
  err : s.status.err = decide (s.status.ecode ≠ .none)
  inf : s.status.inf = true → s.status.ecode = .none
  busy : s.phase ≠ .idle → s.status.done = false ∧ s.status.ecode = .none ∧ s.status.inf = false
  inReset : s.resetLine = true → s.phase = .initialising

/-- What holds of a block of a valid build at reset and after every step. -/
structure State.Inv (s : State) : Prop where
  build : s.build.Valid
  values : ValuesFit s
  banks : BanksOk s
  shares : SharesOk s
  memory : MemoryOk s
  status : StatusOk s

/-! ## Legal words, from the tables alone -/

/-- The operand classes of 30_encoding.md R92. -/
inductive FieldClass where
  | s | pd | ps | bk | mf | ms | co | im | z
deriving DecidableEq, Repr

/-- The values a class allows (30_encoding.md R92). -/
def FieldClass.allows (nPoly v : Nat) : FieldClass → Bool
  | .s => true
  | .pd => decide (v < 8)
  | .ps => decide (v < 11)
  | .bk => decide (v < nPoly)
  | .mf => decide (v ≠ 3)
  | .ms => decide (v = 1 ∨ v = 2)
  | .co => decide (v < 3)
  | .im => true
  | .z => decide (v = 0)

/-- The columns m, rd, ra, rb, rc, imm8 of a row of 30_encoding.md R96. -/
structure Columns where
  m : FieldClass
  rd : FieldClass
  ra : FieldClass
  rb : FieldClass
  rc : FieldClass
  imm : FieldClass
deriving DecidableEq, Repr

/-- The row of an assigned op value (30_encoding.md R95, R96). -/
def columnsOf (op : Nat) : Option Columns :=
  match op with
  | 0x00 => some ⟨.z, .z, .z, .z, .z, .z⟩
  | 0x01 => some ⟨.mf, .s, .s, .s, .z, .z⟩
  | 0x02 => some ⟨.mf, .s, .s, .s, .z, .z⟩
  | 0x03 => some ⟨.mf, .s, .s, .s, .z, .z⟩
  | 0x04 => some ⟨.mf, .s, .s, .z, .z, .z⟩
  | 0x05 => some ⟨.mf, .s, .s, .s, .z, .z⟩
  | 0x06 => some ⟨.mf, .s, .z, .z, .z, .z⟩
  | 0x08 => some ⟨.z, .s, .s, .z, .z, .z⟩
  | 0x09 => some ⟨.z, .s, .z, .z, .z, .im⟩
  | 0x0A => some ⟨.z, .s, .ps, .z, .z, .co⟩
  | 0x0B => some ⟨.z, .pd, .s, .z, .z, .co⟩
  | 0x10 => some ⟨.z, .pd, .ps, .ps, .ps, .z⟩
  | 0x11 => some ⟨.z, .pd, .ps, .z, .z, .z⟩
  | 0x12 => some ⟨.z, .pd, .s, .ps, .pd, .z⟩
  | 0x13 => some ⟨.z, .pd, .ps, .ps, .ps, .z⟩
  | 0x14 => some ⟨.z, .pd, .s, .ps, .z, .z⟩
  | 0x20 => some ⟨.ms, .z, .s, .z, .bk, .z⟩
  | 0x21 => some ⟨.ms, .s, .s, .z, .bk, .z⟩
  | 0x22 => some ⟨.z, .s, .s, .z, .bk, .z⟩
  | 0x23 => some ⟨.ms, .z, .s, .s, .bk, .z⟩
  | 0x24 => some ⟨.z, .z, .s, .z, .bk, .z⟩
  | 0x25 => some ⟨.z, .s, .z, .z, .bk, .z⟩
  | 0x28 => some ⟨.ms, .z, .s, .z, .bk, .z⟩
  | 0x29 => some ⟨.z, .s, .s, .z, .z, .z⟩
  | _ => none

/-- A word that is not ILLEGAL for a block with `nPoly` banks (30_encoding.md R97): its op is assigned, every field is
in its class, and LADDER's destinations differ. -/
def legalWord (nPoly : Nat) (w : Word) : Bool :=
  let f := fieldsOf w
  match columnsOf f.op with
  | none => false
  | some c =>
    c.m.allows nPoly f.m && c.rd.allows nPoly f.rd && c.ra.allows nPoly f.ra && c.rb.allows nPoly f.rb &&
      c.rc.allows nPoly f.rc && c.imm.allows nPoly f.imm && decide (f.op = 0x12 → f.rd ≠ f.rc)

end Sys2Proof.Machine
end

