-- ==== Sys2Proof/Certificates/Slice0/Obligations.lean ====
section
/-! DEFINITION. The statements for the provers. Each docstring names the rules of spec/ it formalises; hypotheses are
on the state and the operands alone. -/

open Sys2Proof Sys2Proof.Machine

/-! ## Encoding -/

/-- Decoding the word of a well-formed command gives the command back, for every number of banks (30_encoding.md R91,
R95, R96, R99, R101). -/
def Obligations.DecodeOfEncodeIsTheCommand : Prop :=
  ∀ (nPoly : Nat) (i : Instr), i.wellFormed nPoly = true → decode nPoly (encode i) = .ok i

/-- A word decodes to a command only if it is that command's own word, so no bit of a word is ignored, and the command
is well formed (30_encoding.md R98, R99). -/
def Obligations.DecodedWordIsTheEncoding : Prop :=
  ∀ (nPoly : Nat) (w : Word) (i : Instr), decode nPoly w = .ok i → encode i = w ∧ i.wellFormed nPoly = true

/-- A word is ILLEGAL exactly when the tables of 30_encoding.md R92, R95 and R96 say so, and an ILLEGAL word is
accepted like any command and, at the engine's turn, whatever inputs are pending, completes with code ILLEGAL, DONE,
the interrupt if enabled, and no other effect (R97; 60_exceptions.md R227). -/
def Obligations.IllegalWordsAreTheTablesAndCompleteIllegal : Prop :=
  (∀ (nPoly : Nat) (w : Word), (∃ r, decode nPoly w = .error r) ↔ legalWord nPoly w = false) ∧
  (∀ (s : State) (v : Word), s.phase = .idle → s.writeCmd v = s.accept v) ∧
  (∀ s : State, s.resetLine = false → s.phase = .inFlight → legalWord s.build.nPoly s.cmd = false →
    ∃ t, engineTurn s = .next t ∧ WroteNothing s t .illegal ∧ t.irq = s.ctrl.ie)

/-- A few words of 95_test_vectors.md decode to the commands they stand for, and a few do not decode. -/
def Obligations.SampleWordsDecode : Prop :=
  decode 4 0x05312000 = .ok (.fadd .q 3 1 2) ∧
  decode 4 0x2410001D = .ok (.ldi 1 29) ∧
  decode 4 0x40281800 = .ok (.xadd 2 (.gen .g) (.reg 1) (.gen .g)) ∧
  decode 4 0x48018100 = .ok (.ladder 0 1 1 (.gen .g)) ∧
  decode 4 0x8D012100 = .ok (.pcset .q 1 1 2) ∧
  decode 4 0xA4320000 = .ok (.sget 3 2) ∧
  decode 4 0x48018000 = .error .equalDests ∧
  decode 4 0x81010400 = .error .bank ∧
  decode 4 0xFFFFFFFF = .error .unassignedOp

/-! ## Steps and the life cycle of a command -/

/-- With a decodable command in flight, a step is exec of that command (60_exceptions.md R226; 30_encoding.md R99). Two
clauses are the model's choice: that in every state, also with an ILLEGAL word in flight, the step is the engine's turn
when no input is pending, or when that turn is the oldest input, which is then used up (DESIGN CHOICE, assumption log 3);
and that a word placed by withFetchWord, which also releases the reset line, runs in the very next step (DEDUCED,
assumption log 7). -/
def Obligations.StepRunsTheDecodedCommand : Prop :=
  ∀ (s : State) (i : Instr),
    (s.resetLine = false → s.phase = .inFlight → decode s.build.nPoly s.cmd = .ok i →
      (s.inputs = [] → step s = exec i s) ∧
      (∀ es, s.inputs = .engine :: es → step s = exec i { s with inputs := es })) ∧
    (s.inputs = [] → step s = engineTurn s) ∧
    (∀ es, s.inputs = .engine :: es → step s = engineTurn { s with inputs := es }) ∧
    (∀ w : Word, decode s.build.nPoly w = .ok i →
      step (s.withFetchWord 32 w.toNat) = exec i { s.accept w with resetLine := false })

/-- Every command completes, whatever its operands: exec answers a next state that is idle and DONE, with the
configuration registers, CTRL, CMD, the reset input, the build and the bus as they were (60_exceptions.md R220, R226;
70_reset_and_hazards.md R270; 10_state.md R36). -/
def Obligations.EveryCommandCompletes : Prop :=
  ∀ (i : Instr) (s : State), ∃ t e inf, exec i s = .next t ∧ Completed s t e inf ∧ ControlFrame s t

/-- A host write of CMD while idle, followed by the engine's turn, ends with BUSY = 0, DONE = 1 and the word readable in
CMD, whatever the word (60_exceptions.md R220, R225, R226). -/
def Obligations.AcceptedCommandCompletesAtTheEngineTurn : Prop :=
  ∀ (s : State) (v : Word) (es : List Input),
    s.resetLine = false → s.phase = .idle → s.inputs = .write (s.build.base + 0x010) 4 v :: .engine :: es →
      ∃ t u, step s = .next t ∧ step t = .next u ∧ t.phase = .inFlight ∧ t.irq = false ∧
        u.phase = .idle ∧ u.status.done = true ∧ u.cmd = v ∧ u.inputs = es

/-- Acceptance of a word while idle: CMD takes it, BUSY becomes 1, DONE, ERR, ECODE and INF become 0, OVR keeps its
value, and nothing else changes (60_exceptions.md R225). -/
def Obligations.AcceptanceClearsTheOutcome : Prop :=
  ∀ (s : State) (v : Word), s.resetLine = false → s.phase = .idle →
    ∃ t, takeInput (.write (s.build.base + 0x010) 4 v) s = .next t ∧
      t.cmd = v ∧ t.busy = true ∧ t.status.done = false ∧ t.status.err = false ∧ t.status.ecode = .none ∧
      t.status.inf = false ∧ t.status.ovr = s.status.ovr ∧
      t = { s with cmd := t.cmd, phase := t.phase, status := t.status }

/-- A command that ends with an error leaves everything but STATUS as it was at acceptance (60_exceptions.md R229;
00_scope.md R15). -/
def Obligations.ErrorsWriteNothing : Prop :=
  ∀ (i : Instr) (s t : State), exec i s = .next t → t.status.ecode ≠ .none → WroteNothing s t t.status.ecode

/-- The frame of every command: scalar registers but its destination (10_state.md R21) and point registers but its
destinations (R27) are unchanged; no command writes CTRL, CMD or a configuration register (R36, R38); the random source
is unchanged unless it draws. The banks, the shares and SHARE_N are unchanged unless it is PRAND, PCSET, PSDEG or SHARE
(R30, R31); of these, from a state with the invariant, each leaves the other banks' degree bounds, every byte of memory
outside the coefficients of its bank and, for SHARE, outside the shares, and, but for SHARE, every share and SHARE_N. -/
def Obligations.CommandsWriteOnlyTheirDestinations : Prop :=
  ∀ (i : Instr) (s t : State), exec i s = .next t →
    (∀ r : SReg, scalarDest i ≠ some r → t.getS r = s.getS r) ∧
    (∀ r : PReg, r ∉ pointDests i → t.getPR r = s.getPR r) ∧
    (bankDest i = none → BanksFrame s t) ∧
    (∀ b : Bank, bankDest i = some b → s.Inv →
      (∀ c : Bank, c ≠ b → t.getDeg c = s.getDeg c) ∧
      (∀ a : Nat,
        (∀ j, j ≤ s.build.tMax → a < coeffAddr b j ∨ coeffAddr b j + valueBytes s.build ≤ a) →
        ((∃ m c ra, i = .share m c ra) →
          ∀ k, 1 ≤ k → k ≤ s.build.nMax → a < shareAddr k ∨ shareAddr k + valueBytes s.build ≤ a) →
        t.mem.read a = s.mem.read a) ∧
      ((¬∃ m c ra, i = .share m c ra) →
        t.shareN = s.shareN ∧ ∀ k, 1 ≤ k → k ≤ s.build.nMax → t.shm k = s.shm k)) ∧
    (takesDraws i = false → RandomFrame s t) ∧
    ControlFrame s t

/-- A command's result does not depend on CTRL, on the CMD word, on OVR, on the reset input or on the bus: changing them
changes nothing else of the next state (70_reset_and_hazards.md R255 "No command's result depends on setup having been
locked"; 90_conflicts.md C9). -/
def Obligations.CommandsIgnoreControlState : Prop :=
  ∀ (i : Instr) (s t : State) (c : Ctrl) (w : Word) (f : Status) (l : Bool) (es : List Input) (r : Option Word),
    exec i s = .next t →
      exec i { s with ctrl := c, cmd := w, status := f, resetLine := l, inputs := es, response := r } =
        .next { t with
          ctrl := c, cmd := w, resetLine := l, inputs := es, response := r
          status := { t.status with ovr := f.ovr } }

/-- STATUS.INF is 1 exactly after a RECOV or SMUL that wrote O, which it writes as (1, 1, 0); every other completion has
INF = 0 (42_curve.md R165). -/
def Obligations.InfExactlyWhenTheIdentityIsWritten : Prop :=
  ∀ (i : Instr) (s t : State), exec i s = .next t →
    (t.status.inf = true ↔
      ∃ rd : PReg, ((∃ b k k1, i = .recov rd b k k1) ∨ (∃ ra b, i = .smul rd ra b)) ∧
        t.status.ecode = .none ∧ (t.getPR rd).z = 0 ∧ t.getPR rd = { x := 1, y := 1, z := 0 })

/-- Every command that selects a modulus raises PARAM when it is below 2, whatever else is wrong with its operands
(60_exceptions.md R222). -/
def Obligations.ModulusBelowTwoRaisesParam : Prop :=
  ∀ (i : Instr) (s : State) (M : Nat), i.wellFormed s.build.nPoly = true → selectedModulus i s = some M → M < 2 →
    ∃ t, exec i s = .next t ∧ WroteNothing s t .param

/-! ## Field arithmetic -/

/-- FADD, FSUB and FMUL with a modulus M of at least 2, the register CFG.P, CFG.Q or CFG.R that the suffix names
(00_scope.md R18), write the sum, the difference and the product modulo M of the raw registers, and nothing else
(40_field.md R120 to R123). The difference is the value in [0, M) that gives S[ra] back when S[rb] is added. -/
def Obligations.FaddFsubFmulResults : Prop :=
  ∀ (m : FieldMod) (rd ra rb : SReg) (s : State),
    let M : Nat := match m with
      | .p => s.cfg.p
      | .q => s.cfg.q
      | .r => s.cfg.r
    2 ≤ M →
    (∃ t, exec (.fadd m rd ra rb) s = .next t ∧ WroteScalar s t rd ((s.getS ra + s.getS rb) % M)) ∧
    (∃ t v, exec (.fsub m rd ra rb) s = .next t ∧ WroteScalar s t rd v ∧ v < M ∧
      (v + s.getS rb) % M = s.getS ra % M) ∧
    (∃ t, exec (.fmul m rd ra rb) s = .next t ∧ WroteScalar s t rd (s.getS ra * s.getS rb % M))

/-- FINV: for gcd(S[ra], M) = 1 it writes the inverse of S[ra] in [0, M); else it raises NOT_INVERTIBLE and writes
nothing (40_field.md R124; 00_scope.md R12). -/
def Obligations.FinvIsTheInverseOrNotInvertible : Prop :=
  ∀ (m : FieldMod) (rd ra : SReg) (s : State), 2 ≤ s.fieldMod m →
    (Nat.gcd (s.getS ra) (s.fieldMod m) = 1 →
      ∃ t v, exec (.finv m rd ra) s = .next t ∧ WroteScalar s t rd v ∧ v < s.fieldMod m ∧
        s.getS ra * v % s.fieldMod m = 1) ∧
    (Nat.gcd (s.getS ra) (s.fieldMod m) ≠ 1 →
      ∃ t, exec (.finv m rd ra) s = .next t ∧ WroteNothing s t .notInvertible)

/-- FEXP writes S[ra] to the power of the raw, unreduced S[rb], modulo M, with a⁰ = 1 (40_field.md R125). -/
def Obligations.FexpIsTheModularPower : Prop :=
  ∀ (m : FieldMod) (rd ra rb : SReg) (s : State), 2 ≤ s.fieldMod m →
    ∃ t, exec (.fexp m rd ra rb) s = .next t ∧ WroteScalar s t rd (s.getS ra ^ s.getS rb % s.fieldMod m)

/-- FRAND writes a value of [0, M), one draw, and changes nothing else but the random source (40_field.md R126;
00_scope.md R16). How a draw is answered is the model's choice (DESIGN CHOICE, assumption log 4): the environment's next
fixed answer modulo M, then used up (so every value of [0, M) occurs), or else a free value, which is counted. -/
def Obligations.FrandWritesOneDraw : Prop :=
  ∀ (m : FieldMod) (rd : SReg) (s : State), 2 ≤ s.fieldMod m →
    ∃ t, exec (.frand m rd) s = .next t ∧ Completed s t .none false ∧ t.getS rd < s.fieldMod m ∧
      (∀ r : SReg, r ≠ rd → t.getS r = s.getS r) ∧ (∀ r : PReg, t.getPR r = s.getPR r) ∧
      BanksFrame s t ∧ ControlFrame s t ∧
      (∀ v rest, s.oracle = v :: rest →
        t.getS rd = v % s.fieldMod m ∧ t.oracle = rest ∧ t.freeIx = s.freeIx) ∧
      (s.oracle = [] → t.oracle = [] ∧ t.freeIx = s.freeIx + 1)

/-- The expansion of FDIV (30_encoding.md R102; 40_field.md R128): FINV then FMUL leave in S[rd] the value of [0, M)
that times S[rb] is S[ra] modulo M, when S[rb] is invertible; else the FINV raises NOT_INVERTIBLE and writes nothing;
with rd = ra there is no expansion. -/
def Obligations.FdivExpansionDivides : Prop :=
  ∀ (m : FieldMod) (rd ra rb : SReg) (s : State), 2 ≤ s.fieldMod m →
    (rd = ra → (Pseudo.fdiv m rd ra rb).expand = none) ∧
    (rd ≠ ra → Nat.gcd (s.getS rb) (s.fieldMod m) = 1 →
      ∃ i j t u, (Pseudo.fdiv m rd ra rb).expand = some [i, j] ∧ exec i s = .next t ∧ t.status.err = false ∧
        exec j t = .next u ∧ u.status.err = false ∧ u.getS rd < s.fieldMod m ∧
        u.getS rd * s.getS rb % s.fieldMod m = s.getS ra % s.fieldMod m) ∧
    (rd ≠ ra → Nat.gcd (s.getS rb) (s.fieldMod m) ≠ 1 →
      ∃ i j t, (Pseudo.fdiv m rd ra rb).expand = some [i, j] ∧ exec i s = .next t ∧
        WroteNothing s t .notInvertible)

/-! ## Moves -/

/-- NOP is the word 0 and the only word with op 0; it is accepted like any command, writes nothing, completes with ERR =
0, ECODE = 0 and INF = 0, so STATUS reads 0x0000_0002 if OVR = 0, and raises the interrupt if it is enabled (41_move.md
R140). -/
def Obligations.NopOnlyCompletes : Prop :=
  encode .nop = 0 ∧ (∀ nPoly : Nat, decode nPoly 0 = .ok .nop) ∧
  (∀ s : State, s.phase = .idle → s.hostWrite 0x010 0 = s.accept 0) ∧
  (∀ (nPoly : Nat) (w : Word), w.toNat / 2 ^ 26 = 0 → w ≠ 0 → ∃ r, decode nPoly w = .error r) ∧
  (∀ s : State, ∃ t, exec .nop s = .next t ∧ WroteNothing s t .none ∧ t.irq = s.ctrl.ie ∧
    (s.status.ovr = false → t.statusWord = 0x00000002#32))

/-- MOV copies the raw register and LDI writes the immediate zero-extended; nothing else changes (41_move.md R141,
R142). -/
def Obligations.MovLdiResults : Prop :=
  ∀ (rd ra : SReg) (imm : Byte) (s : State),
    (∃ t, exec (.mov rd ra) s = .next t ∧ WroteScalar s t rd (s.getS ra)) ∧
    (∃ t, exec (.ldi rd imm) s = .next t ∧ WroteScalar s t rd imm.toNat)

/-- PGET writes the raw coordinate of a point register, or of a generator, whose Z is 1 (41_move.md R143; 10_state.md
R26). -/
def Obligations.PgetReadsTheRawCoordinate : Prop :=
  ∀ (rd : SReg) (c : Coord) (s : State),
    (∀ r : PReg, ∃ t, exec (.pget rd (.reg r) c) s = .next t ∧ WroteScalar s t rd ((s.getPR r).coord c)) ∧
    (∃ t, exec (.pget rd (.gen .g) c) s = .next t ∧
      WroteScalar s t rd (Point.coord { x := s.cfg.gx, y := s.cfg.gy, z := 1 } c)) ∧
    (∃ t, exec (.pget rd (.gen .h) c) s = .next t ∧
      WroteScalar s t rd (Point.coord { x := s.cfg.hx, y := s.cfg.hy, z := 1 } c)) ∧
    (∃ t, exec (.pget rd (.gen .k) c) s = .next t ∧
      WroteScalar s t rd (Point.coord { x := s.cfg.kx, y := s.cfg.ky, z := 1 } c))

/-- PPUT writes the raw register to one coordinate of a point register; the other two coordinates keep their values
(41_move.md R144). -/
def Obligations.PputWritesOneCoordinate : Prop :=
  ∀ (rd : PReg) (c : Coord) (ra : SReg) (s : State),
    ∃ t pt, exec (.pput rd c ra) s = .next t ∧ WrotePoint s t rd pt false ∧ pt.coord c = s.getS ra ∧
      ∀ d : Coord, d ≠ c → pt.coord d = (s.getPR rd).coord d

/-! ## Curve engine -/

/-- XADD on operands of which none is (0, 0) and whose difference has Z ≠ 0: the residues it writes are those of the
formula of 42_curve.md R154, (ZD·(U+V)², XD·(U−V)²), stored as (X3, 0, Z3), unless both are 0, which raises DEGENERATE
(R160). -/
def Obligations.XaddFormula : Prop :=
  ∀ (rd : PReg) (srcP srcQ srcDiff : PSrc) (s : State),
    let P := s.cfg.p
    let p := s.pointSource srcP
    let q := s.pointSource srcQ
    let d := s.pointSource srcDiff
    let U : ZMod P := ((p.x : ZMod P) - p.z) * (q.x + q.z)
    let V : ZMod P := ((p.x : ZMod P) + p.z) * (q.x - q.z)
    let X3 : ZMod P := d.z * (U + V) ^ 2
    let Z3 : ZMod P := d.x * (U - V) ^ 2
    2 ≤ P → ¬(p.x % P = 0 ∧ p.z % P = 0) → ¬(q.x % P = 0 ∧ q.z % P = 0) → d.z % P ≠ 0 →
      (¬(X3 = 0 ∧ Z3 = 0) →
        ∃ t x z, exec (.xadd rd srcP srcQ srcDiff) s = .next t ∧
          WrotePoint s t rd { x := x, y := 0, z := z } false ∧ x < P ∧ z < P ∧
          (x : ZMod P) = X3 ∧ (z : ZMod P) = Z3) ∧
      (X3 = 0 ∧ Z3 = 0 →
        ∃ t, exec (.xadd rd srcP srcQ srcDiff) s = .next t ∧ WroteNothing s t .degenerate)

/-- XDBL on an operand that is not (0, 0): the residues it writes are ((X+Z)²(X−Z)², T·((X−Z)² + A24·T)) with T = 4XZ
(42_curve.md R155), stored as (X2, 0, Z2), unless both are 0, which raises DEGENERATE (R161). -/
def Obligations.XdblFormula : Prop :=
  ∀ (rd : PReg) (src : PSrc) (s : State),
    let P := s.cfg.p
    let p := s.pointSource src
    let T : ZMod P := 4 * p.x * p.z
    let X2 : ZMod P := ((p.x : ZMod P) + p.z) ^ 2 * ((p.x : ZMod P) - p.z) ^ 2
    let Z2 : ZMod P := T * (((p.x : ZMod P) - p.z) ^ 2 + s.cfg.a24 * T)
    2 ≤ P → ¬(p.x % P = 0 ∧ p.z % P = 0) →
      (¬(X2 = 0 ∧ Z2 = 0) →
        ∃ t x z, exec (.xdbl rd src) s = .next t ∧
          WrotePoint s t rd { x := x, y := 0, z := z } false ∧ x < P ∧ z < P ∧
          (x : ZMod P) = X2 ∧ (z : ZMod P) = Z2) ∧
      (X2 = 0 ∧ Z2 = 0 → ∃ t, exec (.xdbl rd src) s = .next t ∧ WroteNothing s t .degenerate)

/-- LADDER on a finite base with x ≠ 0 whose two outputs are points: it writes them, as (X, 0, Z), to PR[rd] and PR[re]
and changes nothing else; where an output is (0, 0) it raises DEGENERATE (42_curve.md R162). The outputs are those of
the ladder function of R156 on the raw scalar. -/
def Obligations.LadderWritesItsTwoOutputs : Prop :=
  ∀ (rd re : PReg) (ra : SReg) (base : PSrc) (s : State),
    let P := s.cfg.p
    let b := s.pointSource base
    let l := ladder P (s.cfg.a24 % P) (s.getS ra) (b.x % P)
    2 ≤ P → rd ≠ re → b.z % P = 1 → b.x % P ≠ 0 →
      (¬(l.1.x = 0 ∧ l.1.z = 0) → ¬(l.2.x = 0 ∧ l.2.z = 0) →
        ∃ t, exec (.ladder rd re ra base) s = .next t ∧ Completed s t .none false ∧
          t.getPR rd = { x := l.1.x, y := 0, z := l.1.z } ∧ t.getPR re = { x := l.2.x, y := 0, z := l.2.z } ∧
          (∀ r : PReg, r ≠ rd → r ≠ re → t.getPR r = s.getPR r) ∧ (∀ r : SReg, t.getS r = s.getS r) ∧
          BanksFrame s t ∧ ControlFrame s t ∧ RandomFrame s t) ∧
      ((l.1.x = 0 ∧ l.1.z = 0) ∨ (l.2.x = 0 ∧ l.2.z = 0) →
        ∃ t, exec (.ladder rd re ra base) s = .next t ∧ WroteNothing s t .degenerate)

/-- The ladder reads its scalar most significant bit first (42_curve.md R156): the outputs for 2j + b (not 0) are one
step from the outputs (L0, L1) for j, (xADD(L0, L1, D), xDBL(L1)) for b = 1 and (xDBL(L0), xADD(L0, L1, D)) for b = 0;
and the outputs for 0 are (1, 0, 0) and (x, 0, 1). -/
def Obligations.LadderStepsByBits : Prop :=
  ∀ (rd re : PReg) (ra : SReg) (base : PSrc) (s t u : State) (j : Nat) (b : Bool),
    exec (.ladder rd re ra base) (s.setS ra j) = .next t → t.status.ecode = .none →
    exec (.ladder rd re ra base) (s.setS ra (2 * j + b.toNat)) = .next u → u.status.ecode = .none →
      (0 < 2 * j + b.toNat →
        let P := s.cfg.p
        let A24 := s.cfg.a24 % P
        let D : XZ := { x := (s.pointSource base).x % P, z := 1 }
        let L0 : XZ := { x := (t.getPR rd).x, z := (t.getPR rd).z }
        let L1 : XZ := { x := (t.getPR re).x, z := (t.getPR re).z }
        let M0 : XZ := { x := (u.getPR rd).x, z := (u.getPR rd).z }
        let M1 : XZ := { x := (u.getPR re).x, z := (u.getPR re).z }
        (b = true → M0 = xADD P L0 L1 D ∧ M1 = xDBL P A24 L1) ∧
        (b = false → M0 = xDBL P A24 L0 ∧ M1 = xADD P L0 L1 D)) ∧
      (j = 0 →
        t.getPR rd = { x := 1, y := 0, z := 0 } ∧
        t.getPR re = { x := (s.pointSource base).x % s.cfg.p, y := 0, z := 1 })

/-- RECOV on a finite base with XZ operands of non-zero Z: with the recovery denominator 2·y·ZQ²·ZS invertible modulo P
it writes the affine point (Xp/Zp, Yp/Zp) of the formula of 42_curve.md R157; with the denominator 0 modulo P it
raises DEGENERATE, and with a denominator that is neither it raises NOT_INVERTIBLE (R163). -/
def Obligations.RecovFormula : Prop :=
  ∀ (rd : PReg) (base srcK srcK1 : PSrc) (s : State),
    let P := s.cfg.p
    let b := s.pointSource base
    let q := s.pointSource srcK
    let r := s.pointSource srcK1
    let den : Nat := 2 * b.y * q.z * r.z * q.z
    let x : ZMod P := b.x
    let A : ZMod P := s.cfg.a
    let Xp : ZMod P := 2 * b.y * q.z * r.z * q.x
    let Yp : ZMod P :=
      ((q.x + x * q.z + 2 * A * q.z) * (x * q.x + q.z) - 2 * A * q.z ^ 2) * r.z - (q.x - x * q.z) ^ 2 * r.x
    2 ≤ P → b.z % P = 1 → q.z % P ≠ 0 → r.z % P ≠ 0 →
      (Nat.gcd den P = 1 →
        ∃ t u v, exec (.recov rd base srcK srcK1) s = .next t ∧
          WrotePoint s t rd { x := u, y := v, z := 1 } false ∧ u < P ∧ v < P ∧
          (u : ZMod P) * (den : ZMod P) = Xp ∧ (v : ZMod P) * (den : ZMod P) = Yp) ∧
      (den % P = 0 → ∃ t, exec (.recov rd base srcK srcK1) s = .next t ∧ WroteNothing s t .degenerate) ∧
      (den % P ≠ 0 → Nat.gcd den P ≠ 1 →
        ∃ t, exec (.recov rd base srcK srcK1) s = .next t ∧ WroteNothing s t .notInvertible)

/-- The two early answers of the recovery on a finite base (42_curve.md R157, R163; 90_conflicts.md C1, C2): ZQ = 0
gives O with INF = 1, even if ZS = 0, and ZS = 0 with ZQ ≠ 0 gives −B. -/
def Obligations.RecovEarlyAnswers : Prop :=
  ∀ (rd : PReg) (base srcK srcK1 : PSrc) (s : State),
    let P := s.cfg.p
    let b := s.pointSource base
    let q := s.pointSource srcK
    let r := s.pointSource srcK1
    2 ≤ P → b.z % P = 1 → ¬(q.x % P = 0 ∧ q.z % P = 0) → ¬(r.x % P = 0 ∧ r.z % P = 0) →
      (q.z % P = 0 →
        ∃ t, exec (.recov rd base srcK srcK1) s = .next t ∧ WrotePoint s t rd { x := 1, y := 1, z := 0 } true) ∧
      (q.z % P ≠ 0 → r.z % P = 0 →
        ∃ t v, exec (.recov rd base srcK srcK1) s = .next t ∧
          WrotePoint s t rd { x := b.x % P, y := v, z := 1 } false ∧ v < P ∧ (v + b.y) % P = 0)

/-- SMUL is LADDER followed by RECOV on the ladder's outputs (42_curve.md R164 "composes ladder + recovery"): where the
ladder succeeds into two registers that do not hold the base, SMUL ends with the recovery's code and INF, and writes
the recovery's point. -/
def Obligations.SmulIsLadderThenRecov : Prop :=
  ∀ (rd re rx : PReg) (ra : SReg) (base : PSrc) (s t u v : State),
    base ≠ .reg rd → base ≠ .reg re →
    exec (.ladder rd re ra base) s = .next t → t.status.ecode = .none →
    exec (.recov rx base (.reg rd) (.reg re)) t = .next u → exec (.smul rx ra base) s = .next v →
      v.status.ecode = u.status.ecode ∧ v.status.inf = u.status.inf ∧
      (u.status.ecode = .none → v.getPR rx = u.getPR rx)

/-- SMUL on a finite base with x ≠ 0 whose ladder outputs are points ends as the recovery of R157 from those outputs and
the raw scalar does: it writes the recovered point, with INF = 1 exactly for O, or raises the recovery's error and
writes nothing; where a ladder output is (0, 0) it raises DEGENERATE (42_curve.md R164, R165). -/
def Obligations.SmulWritesTheRecoveredPoint : Prop :=
  ∀ (rd : PReg) (ra : SReg) (base : PSrc) (s : State),
    let P := s.cfg.p
    let b := s.pointSource base
    let l := ladder P (s.cfg.a24 % P) (s.getS ra) (b.x % P)
    let r := recover P (s.cfg.a % P) (b.x % P) (b.y % P) l.1 l.2
    2 ≤ P → b.z % P = 1 → b.x % P ≠ 0 →
      (¬(l.1.x = 0 ∧ l.1.z = 0) → ¬(l.2.x = 0 ∧ l.2.z = 0) →
        (∀ x y, r = .ok (.finite x y) →
          ∃ t, exec (.smul rd ra base) s = .next t ∧ WrotePoint s t rd { x := x, y := y, z := 1 } false) ∧
        (r = .ok .identity →
          ∃ t, exec (.smul rd ra base) s = .next t ∧ WrotePoint s t rd { x := 1, y := 1, z := 0 } true) ∧
        (∀ e, r = .error e → ∃ t, exec (.smul rd ra base) s = .next t ∧ WroteNothing s t e)) ∧
      ((l.1.x = 0 ∧ l.1.z = 0) ∨ (l.2.x = 0 ∧ l.2.z = 0) →
        ∃ t, exec (.smul rd ra base) s = .next t ∧ WroteNothing s t .degenerate)

/-- SMUL of a base O is O with INF = 1, and SMUL by the scalar 0 of a finite base with x ≠ 0 is O with INF = 1
(42_curve.md R164; the source's "fast_multiply(0,P) = identity"). -/
def Obligations.SmulGivesTheIdentity : Prop :=
  ∀ (rd : PReg) (ra : SReg) (base : PSrc) (s : State), 2 ≤ s.cfg.p →
    ((s.pointSource base).z % s.cfg.p = 0 →
      ∃ t, exec (.smul rd ra base) s = .next t ∧ WrotePoint s t rd { x := 1, y := 1, z := 0 } true) ∧
    ((s.pointSource base).z % s.cfg.p = 1 → (s.pointSource base).x % s.cfg.p ≠ 0 → s.getS ra = 0 →
      ∃ t, exec (.smul rd ra base) s = .next t ∧ WrotePoint s t rd { x := 1, y := 1, z := 0 } true)

/-- SMUL by the scalar 1 gives the base (42_curve.md R158, the source's "fast_multiply(1,P) = P"): for an odd prime P, a
non-singular curve (70_reset_and_hazards.md R256), 4·A24 = A + 2 modulo P (10_state.md R34), and a base on the curve
with x ≠ 0. -/
def Obligations.SmulByOneGivesTheBase : Prop :=
  ∀ (rd : PReg) (ra : SReg) (base : PSrc) (s : State),
    let P := s.cfg.p
    let b := s.pointSource base
    let A : ZMod P := s.cfg.a
    Nat.Prime P → P ≠ 2 → A ^ 2 ≠ 4 → 4 * (s.cfg.a24 : ZMod P) = A + 2 →
    b.z % P = 1 → b.x % P ≠ 0 → (b.y : ZMod P) ^ 2 = (b.x : ZMod P) ^ 3 + A * (b.x : ZMod P) ^ 2 + b.x →
    s.getS ra = 1 →
      ∃ t, exec (.smul rd ra base) s = .next t ∧ WrotePoint s t rd { x := b.x % P, y := b.y % P, z := 1 } false

/-- The error codes of the curve commands' operand checks, with CFG.P at least 2 (42_curve.md R151 to R153;
60_exceptions.md R223, R224): a base whose Z is neither 0 nor 1 is PARAM, a base O is DEGENERATE for LADDER and RECOV, a
base with x = 0 is DEGENERATE for LADDER and SMUL, and an XZ operand (0, 0) or a difference with Z = 0 is
DEGENERATE. -/
def Obligations.CurveOperandErrors : Prop :=
  ∀ (rd re : PReg) (ra : SReg) (base a b d : PSrc) (s : State),
    let P := s.cfg.p
    let pt := s.pointSource base
    let null := fun src : PSrc => (s.pointSource src).x % P = 0 ∧ (s.pointSource src).z % P = 0
    2 ≤ P → rd ≠ re →
      (pt.z % P ≠ 0 → pt.z % P ≠ 1 → ∀ i ∈ [Instr.ladder rd re ra base, .recov rd base a b, .smul rd ra base],
        ∃ t, exec i s = .next t ∧ WroteNothing s t .param) ∧
      (pt.z % P = 0 → ∀ i ∈ [Instr.ladder rd re ra base, .recov rd base a b],
        ∃ t, exec i s = .next t ∧ WroteNothing s t .degenerate) ∧
      (pt.z % P = 1 → pt.x % P = 0 → ∀ i ∈ [Instr.ladder rd re ra base, .smul rd ra base],
        ∃ t, exec i s = .next t ∧ WroteNothing s t .degenerate) ∧
      (pt.z % P = 1 → null a ∨ null b →
        ∃ t, exec (.recov rd base a b) s = .next t ∧ WroteNothing s t .degenerate) ∧
      (null a ∨ null b ∨ null d ∨ (s.pointSource d).z % P = 0 →
        ∃ t, exec (.xadd rd a b d) s = .next t ∧ WroteNothing s t .degenerate) ∧
      (null a → ∃ t, exec (.xdbl rd a) s = .next t ∧ WroteNothing s t .degenerate)

/-! ## Polynomial engine -/

/-- PRAND with t = S[ra] ≤ T_MAX and M ≥ 2 sets DEG[b] = t, fills C[b][0..t] with draws below M, zeroes the coefficients
above t, and changes nothing else but the random source (43_poly.md R180). How a draw is answered is the model's choice
(DESIGN CHOICE, assumption log 4): where the environment has fixed t + 1 answers, coefficient j is answer j modulo M,
and they are used up. -/
def Obligations.PrandFillsTheBank : Prop :=
  ∀ (m : ScalarMod) (b : Bank) (ra : SReg) (s : State),
    s.build.Valid → s.mem.wf = true → b.val < s.build.nPoly → 2 ≤ s.scalarMod m → s.scalarMod m ≤ 2 ^ s.build.w →
    s.getS ra ≤ s.build.tMax →
      ∃ t, exec (.prand m b ra) s = .next t ∧ WroteBank s t b ∧ t.getDeg b = s.getS ra ∧
        (∀ j, j ≤ s.getS ra → t.coeff b j < s.scalarMod m) ∧
        (∀ j, s.getS ra < j → j ≤ s.build.tMax → t.coeff b j = 0) ∧
        (∀ as rest, s.oracle = as ++ rest → as.length = s.getS ra + 1 →
          (∀ (j : Nat) (h : j < as.length), t.coeff b j = as[j] % s.scalarMod m) ∧ t.oracle = rest ∧
            t.freeIx = s.freeIx)

/-- PEVAL writes the value of the bank's polynomial at S[ra] modulo M, the register CFG.Q or CFG.R that the suffix names
(00_scope.md R18): Σ C[b][j]·x^j for j from 0 to DEG[b], and nothing else (43_poly.md R181, R188). -/
def Obligations.PevalIsThePolynomialValue : Prop :=
  ∀ (m : ScalarMod) (rd : SReg) (b : Bank) (ra : SReg) (s : State),
    let M : Nat := match m with
      | .q => s.cfg.q
      | .r => s.cfg.r
    b.val < s.build.nPoly → 2 ≤ M →
    ∃ t, exec (.peval m rd b ra) s = .next t ∧
      WroteScalar s t rd ((∑ j ∈ Finset.range (s.getDeg b + 1), s.coeff b j * s.getS ra ^ j) % M)

/-- PCGET writes the raw coefficient C[b][S[ra]] for an index up to DEG[b], raises PARAM for an index above it, and
PGDEG writes DEG[b] (43_poly.md R182, R187). -/
def Obligations.PcgetPgdegResults : Prop :=
  ∀ (rd : SReg) (b : Bank) (ra : SReg) (s : State), b.val < s.build.nPoly →
    (s.getS ra ≤ s.getDeg b →
      ∃ t, exec (.pcget rd b ra) s = .next t ∧ WroteScalar s t rd (s.coeff b (s.getS ra))) ∧
    (s.getDeg b < s.getS ra → ∃ t, exec (.pcget rd b ra) s = .next t ∧ WroteNothing s t .param) ∧
    (∃ t, exec (.pgdeg rd b) s = .next t ∧ WroteScalar s t rd (s.getDeg b))

/-- PCSET with j = S[ra] ≤ DEG[b] and M ≥ 2 writes S[rb] mod M to C[b][j]: every byte of memory outside that
coefficient, and everything else, keeps its value; with j > DEG[b] it raises PARAM (43_poly.md R185). -/
def Obligations.PcsetWritesOneCoefficient : Prop :=
  ∀ (m : ScalarMod) (b : Bank) (ra rb : SReg) (s : State),
    s.build.Valid → s.mem.wf = true → b.val < s.build.nPoly → 2 ≤ s.scalarMod m → s.scalarMod m ≤ 2 ^ s.build.w →
      (s.getS ra ≤ s.getDeg b →
        ∃ t, exec (.pcset m b ra rb) s = .next t ∧ Completed s t .none false ∧
          t.coeff b (s.getS ra) = s.getS rb % s.scalarMod m ∧
          (∀ a : Nat, (a < coeffAddr b (s.getS ra) ∨ coeffAddr b (s.getS ra) + valueBytes s.build ≤ a) →
            t.mem.read a = s.mem.read a) ∧
          (∀ r : SReg, t.getS r = s.getS r) ∧ (∀ r : PReg, t.getPR r = s.getPR r) ∧
          (∀ c : Bank, t.getDeg c = s.getDeg c) ∧ t.shareN = s.shareN ∧ ControlFrame s t ∧ RandomFrame s t) ∧
      (s.getDeg b < s.getS ra → ∃ t, exec (.pcset m b ra rb) s = .next t ∧ WroteNothing s t .param)

/-- PSDEG with t = S[ra] ≤ T_MAX sets DEG[b] = t, keeps coefficients 0 to t and zeroes those above, and changes nothing
else (43_poly.md R186). -/
def Obligations.PsdegTruncatesTheBank : Prop :=
  ∀ (b : Bank) (ra : SReg) (s : State),
    s.build.Valid → s.mem.wf = true → b.val < s.build.nPoly → s.getS ra ≤ s.build.tMax →
      ∃ t, exec (.psdeg b ra) s = .next t ∧ WroteBank s t b ∧ RandomFrame s t ∧ t.getDeg b = s.getS ra ∧
        (∀ j, j ≤ s.getS ra → t.coeff b j = s.coeff b j) ∧
        (∀ j, s.getS ra < j → j ≤ s.build.tMax → t.coeff b j = 0)

/-- PRAND and PSDEG with a degree above T_MAX raise PARAM and take no draw (43_poly.md R180, R186; 60_exceptions.md
R223). -/
def Obligations.DegreeAboveTheBankRaisesParam : Prop :=
  ∀ (m : ScalarMod) (b : Bank) (ra : SReg) (s : State), b.val < s.build.nPoly → s.build.tMax < s.getS ra →
    (∃ t, exec (.prand m b ra) s = .next t ∧ WroteNothing s t .param) ∧
    (∃ t, exec (.psdeg b ra) s = .next t ∧ WroteNothing s t .param)

/-! ## Shamir sharing -/

/-- SHARE with an even count n = S[ra], 2 ≤ n ≤ N_MAX and n < M: DEG[b] = n/2 − 1, coefficients below M, zero above the
bound, SHM[i] the polynomial's value at i for 1 ≤ i ≤ n and 0 for i above n, SHARE_N = n, and nothing else but the
random source changes (44_shamir.md R200, R201). How a draw is answered is the model's choice (DESIGN CHOICE, assumption
log 4): where the environment has fixed the n/2 answers, they are the coefficients modulo M in order, and they are used
up. -/
def Obligations.ShareIsTheEvaluations : Prop :=
  ∀ (m : ScalarMod) (b : Bank) (ra : SReg) (s : State),
    let M := s.scalarMod m
    let n := s.getS ra
    s.build.Valid → s.mem.wf = true → b.val < s.build.nPoly → M ≤ 2 ^ s.build.w →
    n % 2 = 0 → 2 ≤ n → n ≤ s.build.nMax → n < M →
      ∃ t, exec (.share m b ra) s = .next t ∧ WroteShares s t b ∧ t.getDeg b = n / 2 - 1 ∧ t.shareN = n ∧
        (∀ j, j ≤ n / 2 - 1 → t.coeff b j < M) ∧
        (∀ j, n / 2 - 1 < j → j ≤ s.build.tMax → t.coeff b j = 0) ∧
        (∀ i, 1 ≤ i → i ≤ n → t.shm i = (∑ j ∈ Finset.range (n / 2), t.coeff b j * i ^ j) % M) ∧
        (∀ i, n < i → i ≤ s.build.nMax → t.shm i = 0) ∧
        (∀ as rest, s.oracle = as ++ rest → as.length = n / 2 →
          (∀ (j : Nat) (h : j < as.length), t.coeff b j = as[j] % M) ∧ t.oracle = rest ∧ t.freeIx = s.freeIx)

/-- SHARE with an odd count, a count below 2 or above N_MAX, or a count not below M, raises PARAM and changes neither
the bank, the shares nor the share count; there is no other mode for odd counts (44_shamir.md R201, R206). -/
def Obligations.ShareRejectsBadCounts : Prop :=
  ∀ (m : ScalarMod) (b : Bank) (ra : SReg) (s : State), b.val < s.build.nPoly →
    (s.getS ra % 2 = 1 ∨ s.getS ra < 2 ∨ s.build.nMax < s.getS ra ∨ s.scalarMod m ≤ s.getS ra) →
      ∃ t, exec (.share m b ra) s = .next t ∧ WroteNothing s t .param

/-- SGET writes SHM[i] for an index 1 ≤ i ≤ SHARE_N, and raises PARAM for every other index; the index is not reduced
(44_shamir.md R202). -/
def Obligations.SgetReadsTheShare : Prop :=
  ∀ (rd ra : SReg) (s : State),
    (1 ≤ s.getS ra → s.getS ra ≤ s.shareN →
      ∃ t, exec (.sget rd ra) s = .next t ∧ WroteScalar s t rd (s.shm (s.getS ra))) ∧
    (s.getS ra = 0 ∨ s.shareN < s.getS ra →
      ∃ t, exec (.sget rd ra) s = .next t ∧ WroteNothing s t .param)

/-- Reconstruction (44_shamir.md R204, R205): for a prime modulus, n/2 shares at distinct indices determine the
polynomial: any list of n/2 coefficients below M that agrees with SHARE's result on them is the bank's. -/
def Obligations.SharesDetermineThePolynomial : Prop :=
  ∀ (m : ScalarMod) (b : Bank) (ra : SReg) (s t : State) (I : Finset Nat) (c : Nat → Nat),
    let M := s.scalarMod m
    let n := s.getS ra
    s.build.Valid → s.mem.wf = true → M ≤ 2 ^ s.build.w → Nat.Prime M →
    exec (.share m b ra) s = .next t → t.status.ecode = .none →
    (∀ i ∈ I, 1 ≤ i ∧ i ≤ n) → I.card = n / 2 → (∀ j, j < n / 2 → c j < M) →
    (∀ i ∈ I, (∑ j ∈ Finset.range (n / 2), c j * i ^ j) % M = t.shm i) →
      ∀ j, j < n / 2 → c j = t.coeff b j

/-- Secrecy (44_shamir.md R204, R205): for a prime modulus, n/2 − 1 shares do not determine the secret: for every value
v below M exactly one polynomial of n/2 coefficients below M has the secret v and agrees with them. To read R204's
independence as this count, and not as a probability, is the model's reading (DEDUCED, assumption log 20). -/
def Obligations.FewerSharesLeaveEverySecret : Prop :=
  ∀ (m : ScalarMod) (b : Bank) (ra : SReg) (s t : State) (I : Finset Nat) (v : Nat),
    let M := s.scalarMod m
    let n := s.getS ra
    s.build.Valid → s.mem.wf = true → M ≤ 2 ^ s.build.w → Nat.Prime M →
    exec (.share m b ra) s = .next t → t.status.ecode = .none →
    (∀ i ∈ I, 1 ≤ i ∧ i ≤ n) → I.card = n / 2 - 1 → v < M →
      ∃! c : List Nat, c.length = n / 2 ∧ (∀ x ∈ c, x < M) ∧ c.getD 0 0 = v ∧
        ∀ i ∈ I, (∑ j ∈ Finset.range (n / 2), c.getD j 0 * i ^ j) % M = t.shm i

/-! ## Invariants of every step -/

/-- Every step keeps the invariant of Safety.lean: values fit W bits (00_scope.md R11), the memory keeps its canonical
form and its place, degree bounds stay in range and the bank invariant holds (10_state.md R29, R30), shares above
SHARE_N are 0 (R31), ERR equals (ECODE ≠ 0) and no result flag stands while BUSY (R39, R40). -/
def Obligations.EveryStepKeepsTheInvariant : Prop :=
  ∀ s t : State, s.Inv → step s = .next t → t.Inv

/-- The state after reset has the invariant, for every valid build; State.reset is the one with TOY's sizes, which is
the model's choice (assumption log 1). -/
def Obligations.ResetHasTheInvariant : Prop :=
  (∀ b : Build, b.Valid → (State.resetOf b).Inv) ∧ State.reset.Inv

/-- The configuration lock (10_state.md R35): unlocked and idle, a host write replaces a word of any configuration
register; locked, a host write of a lockable register changes nothing while CFG.R stays writable; and once LOCK = 1 no
step but an asserted reset clears LOCK or changes a lockable register. -/
def Obligations.LockFreezesTheConfiguration : Prop :=
  (∀ (s : State) (c : CfgReg) (i : Nat) (v : Word), s.build.Valid → s.phase = .idle → i < valueWords s.build →
    (s.ctrl.lock = false ∨ c = .r →
      (s.hostWrite (slotOffset (.cfg c) + 4 * i) v).cfg.get c = withWord (s.cfg.get c) i v) ∧
    (s.ctrl.lock = true → c ≠ .r → s.hostWrite (slotOffset (.cfg c) + 4 * i) v = s)) ∧
  (∀ s t : State, step s = .next t → s.ctrl.lock = true → s.inputs.head? ≠ some .assertReset →
    t.ctrl.lock = true ∧ ∀ c : CfgReg, c ≠ .r → t.cfg.get c = s.cfg.get c)

/-- The identification and information registers (10_state.md R41): at every time, busy or not, they read their
constants, writes to them are ignored, and no step changes the build they show. -/
def Obligations.InformationRegistersAreConstant : Prop :=
  (∀ s t : State, step s = .next t → t.build = s.build) ∧
  (∀ (s : State) (v : Word),
    (∀ off ∈ [0x000, 0x004, 0x020, 0x024, 0x028, 0x02C], s.hostWrite off v = s) ∧
    s.hostRead 0x000 = { s with response := some 0x50565353#32 } ∧
    s.hostRead 0x004 = { s with response := some 0x00010000#32 } ∧
    s.hostRead 0x020 = { s with response := some (BitVec.ofNat 32 s.build.w) } ∧
    s.hostRead 0x024 = { s with response := some (BitVec.ofNat 32 s.build.tMax) } ∧
    s.hostRead 0x028 = { s with response := some (BitVec.ofNat 32 s.build.nMax) } ∧
    s.hostRead 0x02C = { s with response := some (BitVec.ofNat 32 s.build.nPoly) })

/-- SHM and SHARE_N are written only by SHARE and by reset (10_state.md R31): a step of a state with the invariant that
changes a share or the count took an asserted reset, or was the engine's turn that completed a SHARE (that a step with
no input pending is that turn is the model's choice, DESIGN CHOICE, assumption log 3). -/
def Obligations.OnlyShareAndResetWriteShares : Prop :=
  ∀ s t : State, s.Inv → step s = .next t →
    (t.shareN ≠ s.shareN ∨ ∃ i, 1 ≤ i ∧ i ≤ s.build.nMax ∧ t.shm i ≠ s.shm i) →
      s.inputs.head? = some .assertReset ∨
        (s.phase = .inFlight ∧ t.phase = .idle ∧ (s.inputs = [] ∨ s.inputs.head? = some .engine) ∧
          ∃ m b ra, decode s.build.nPoly s.cmd = .ok (.share m b ra))

/-! ## The bus -/

/-- The address map of data locations (20_memory.md R62): for a valid build, word i of the slot of every present
location is at the table's offset plus 4·i, and an aligned offset above the control page that is no such word is
reserved. -/
def Obligations.AddressMapOfDataLocations : Prop :=
  ∀ b : Build, b.Valid →
    (∀ (l : DataLoc) (i : Nat), locPresent b l = true → i < 16 → locate b (slotOffset l + 4 * i) = .data l i) ∧
    (∀ off : Nat, 0x1000 ≤ off → off % 4 = 0 →
      (¬∃ l i, locPresent b l = true ∧ i < 16 ∧ off = slotOffset l + 4 * i) → locate b off = .reserved)

/-- What the host reads of the data locations of an idle block: word i is bits 32·i + 31 to 32·i of the value that the
host or a command last left there, a share too, and 0 for the words of the slot at W/32 and above; the read changes
nothing but the bus (20_memory.md R62, R64, R69, R75; 10_state.md R31). And a host write of a word that the block takes is
read back; every other word of every data location, STATUS, CTRL, CMD, the phase, the degree bounds and SHARE_N keep
their values. -/
def Obligations.HostWriteThenRead : Prop :=
  (∀ (s : State) (l : DataLoc) (i : Nat),
    s.build.Valid → s.phase = .idle → locPresent s.build l = true → i < 16 →
      let value : Nat := match l with
        | .cfg c => s.cfg.get c
        | .scalar r => s.getS r
        | .point r c => (s.getPR r).coord c
        | .coeff b j => s.coeff b j
        | .share k => s.shm k
      (32 * i < s.build.w → s.hostRead (slotOffset l + 4 * i) =
        { s with response := some (BitVec.ofNat 32 (value / 2 ^ (32 * i))) }) ∧
      (s.build.w ≤ 32 * i → s.hostRead (slotOffset l + 4 * i) = { s with response := some 0 })) ∧
  (∀ (s : State) (l : DataLoc) (i : Nat) (v : Word),
    s.build.Valid → s.mem.wf = true → s.resetLine = false → s.phase = .idle → locPresent s.build l = true →
    s.hostMayWrite l = true → i < valueWords s.build →
      ∃ t u, takeInput (.write (s.build.base + (slotOffset l + 4 * i)) 4 v) s = .next t ∧
        takeInput (.read (s.build.base + (slotOffset l + 4 * i)) 4) t = .next u ∧ u.response = some v ∧
        u = { t with response := u.response } ∧
        (∀ (l' : DataLoc) (j : Nat), locPresent s.build l' = true → (l', j) ≠ (l, i) →
          t.locWord (.data l' j) = s.locWord (.data l' j)) ∧
        t.status = s.status ∧ t.ctrl = s.ctrl ∧ t.cmd = s.cmd ∧ t.phase = s.phase ∧
        (∀ b : Bank, t.getDeg b = s.getDeg b) ∧ t.shareN = s.shareN)

/-- Ignored host writes of an idle block change no state and set no flag: a coefficient above DEG[b], a share, a locked
configuration register, and the words of a slot at W/32 and above (20_memory.md R63, R64). -/
def Obligations.IgnoredWritesChangeNothing : Prop :=
  ∀ (s : State) (v : Word) (i : Nat), s.build.Valid → s.phase = .idle → i < 16 →
    (∀ (b : Bank) (j : Nat), b.val < s.build.nPoly → s.getDeg b < j → j ≤ s.build.tMax →
      s.hostWrite (slotOffset (.coeff b j) + 4 * i) v = s) ∧
    (∀ k : Nat, 1 ≤ k → k ≤ s.build.nMax → s.hostWrite (slotOffset (.share k) + 4 * i) v = s) ∧
    (∀ c : CfgReg, s.ctrl.lock = true → c ≠ .r → s.hostWrite (slotOffset (.cfg c) + 4 * i) v = s) ∧
    (∀ l : DataLoc, locPresent s.build l = true → valueWords s.build ≤ i →
      s.hostWrite (slotOffset l + 4 * i) v = s)

/-- The busy window (70_reset_and_hazards.md R260; 20_memory.md R70, R71): while BUSY = 1 a host write of CMD or of a
word of a data location is dropped and sets OVR and nothing else, and a host read of such a word changes nothing but the
bus and the count of free values; and OVR, once set, is cleared only by a host write of STATUS with bit 8 set, or by
reset. These are the model's choice: the word read is a free value that is counted (DESIGN CHOICE, assumption log 5);
OVR is set also where an idle block ignores the write, a share, a locked register or a coefficient above DEG (DEDUCED,
log 12); the words of a slot at W/32 and above count as the data location (DEDUCED, log 13). -/
def Obligations.BusyWindowDropsWrites : Prop :=
  (∀ (s : State) (v : Word), s.build.Valid → s.phase ≠ .idle →
    s.hostWrite 0x010 v = { s with status := { s.status with ovr := true } } ∧
    (∀ (l : DataLoc) (i : Nat), locPresent s.build l = true → i < 16 →
      s.hostWrite (slotOffset l + 4 * i) v = { s with status := { s.status with ovr := true } } ∧
      s.hostRead (slotOffset l + 4 * i) =
        { s with response := some (Config.freeWord s.freeIx), freeIx := s.freeIx + 1 })) ∧
  (∀ s t : State, step s = .next t → s.status.ovr = true → t.status.ovr = false →
    s.inputs.head? = some .assertReset ∨
      ∃ v : Word, s.inputs.head? = some (.write (s.build.base + 0x00C) 4 v) ∧ v.getLsbD 8 = true)

/-- Reserved offsets of the window read 0 and ignore writes at every time, also the unlisted offsets of the control page
(20_memory.md R61, R67). -/
def Obligations.ReservedOffsetsReadZero : Prop :=
  ∀ (s : State) (v : Word) (off : Nat), s.build.Valid → off % 4 = 0 →
    (0x1000 ≤ off ∧ (¬∃ l i, locPresent s.build l = true ∧ i < 16 ∧ off = slotOffset l + 4 * i) ∨
      off < 0x1000 ∧ off ∉ [0x000, 0x004, 0x008, 0x00C, 0x010, 0x020, 0x024, 0x028, 0x02C, 0x030] ∧
        (off < 0x040 ∨ 0x080 ≤ off)) →
      s.hostRead off = { s with response := some 0 } ∧ s.hostWrite off v = s

/-- Accesses the block does not answer: one that is not an aligned 32-bit access is refused (20_memory.md R66), and, by
the model's choice (assumption log 9 and 10), one outside the window or while reset is asserted faults (R67;
70_reset_and_hazards.md R250). -/
def Obligations.UndefinedAccessesStop : Prop :=
  ∀ (s : State) (addr size : Nat) (v : Word),
    (addr < s.build.base ∨ s.build.base + 0x400000 ≤ addr →
      takeInput (.read addr size) s = .fault .outsideWindow ∧ takeInput (.write addr size v) s = .fault .outsideWindow) ∧
    (s.build.base ≤ addr → addr < s.build.base + 0x400000 → s.resetLine = true →
      takeInput (.read addr size) s = .fault .accessInReset ∧ takeInput (.write addr size v) s = .fault .accessInReset) ∧
    (s.build.base ≤ addr → addr < s.build.base + 0x400000 → s.resetLine = false →
      (size ≠ 4 ∨ (addr - s.build.base) % 4 ≠ 0) →
      takeInput (.read addr size) s = .refused .busBadAccess ∧
        takeInput (.write addr size v) s = .refused .busBadAccess)

/-- STATUS as the host reads it, at any time (10_state.md R39; 20_memory.md R61, R70): BUSY in bit 0, DONE 1, ERR 2, INF
3, ECODE 7:4, OVR 8, and 0 above; ECODE holds 0 to 4 for NONE, ILLEGAL, NOT_INVERTIBLE, PARAM and DEGENERATE
(60_exceptions.md R221). -/
def Obligations.StatusWordBits : Prop :=
  ∀ s : State, ∃ w : Word,
    s.hostRead 0x00C = { s with response := some w } ∧ w = s.statusWord ∧
    w.getLsbD 0 = s.busy ∧ w.getLsbD 1 = s.status.done ∧ w.getLsbD 2 = s.status.err ∧ w.getLsbD 3 = s.status.inf ∧
    w.extractLsb' 4 4 = (match s.status.ecode with
      | .none => 0#4
      | .illegal => 1#4
      | .notInvertible => 2#4
      | .param => 3#4
      | .degenerate => 4#4) ∧
    w.getLsbD 8 = s.status.ovr ∧ ∀ k, 9 ≤ k → w.getLsbD k = false

/-- Host writes of STATUS and CTRL, at any time: writing 1 clears DONE and OVR and every other bit of STATUS is ignored
(10_state.md R39); IE takes bit 0, LOCK is set by bit 1 and never cleared, and the other bits of CTRL are ignored (R37);
nothing else changes. -/
def Obligations.StatusAndCtrlWrites : Prop :=
  ∀ (s : State) (v : Word),
    s.hostWrite 0x00C v =
      { s with status := { s.status with
          done := s.status.done && !v.getLsbD 1, ovr := s.status.ovr && !v.getLsbD 8 } } ∧
    s.hostWrite 0x008 v = { s with ctrl := { ie := v.getLsbD 0, lock := s.ctrl.lock || v.getLsbD 1 } }

/-- The interrupt (60_exceptions.md R230; 10_state.md R43): it is the level DONE ∧ IE; every completion, ILLEGAL too,
raises it exactly if IE = 1; no step but a completion sets DONE; acceptance, writing 1 to DONE, and writing IE = 0 lower
it. -/
def Obligations.InterruptFollowsCompletion : Prop :=
  (∀ s : State, s.irq = true ↔ s.statusWord.getLsbD 1 = true ∧ s.ctrlWord.getLsbD 0 = true) ∧
  (∀ s t : State, step s = .next t → s.status.done = false → t.status.done = true →
    s.phase = .inFlight ∧ t.phase = .idle) ∧
  (∀ (i : Instr) (s t : State), exec i s = .next t → t.irq = s.ctrl.ie) ∧
  (∀ (s t : State), s.resetLine = false → s.phase = .inFlight → engineTurn s = .next t → t.irq = s.ctrl.ie) ∧
  (∀ (s : State) (v : Word), s.phase = .idle → (s.hostWrite 0x010 v).irq = false) ∧
  (∀ (s : State) (v : Word), v.getLsbD 1 = true → (s.hostWrite 0x00C v).irq = false) ∧
  (∀ (s : State) (v : Word), v.getLsbD 0 = false → (s.hostWrite 0x008 v).irq = false)

/-! ## Reset -/

/-- Reset asserted and released from any state, a command in flight or not, leaves every piece of state at its reset
value and STATUS reading BUSY = 1; the engine's turn then ends the initialisation, with STATUS reading 0, no DONE and no
interrupt, and nothing else changed (10_state.md R46; 70_reset_and_hazards.md R251, R253). -/
def Obligations.ResetLeavesEveryResetValue : Prop :=
  ∀ s : State,
    ∃ a t u, takeInput .assertReset s = .next a ∧ takeInput .releaseReset a = .next t ∧
      (∀ r : SReg, t.getS r = 0) ∧ (∀ r : PReg, t.getPR r = { x := 0, y := 0, z := 0 }) ∧
      (∀ b : Bank, t.getDeg b = 0) ∧ (∀ b j, t.coeff b j = 0) ∧ (∀ i, t.shm i = 0) ∧ t.shareN = 0 ∧
      (∀ c : CfgReg, t.cfg.get c = 0) ∧ t.ctrlWord = 0 ∧ t.cmd = 0 ∧ t.irq = false ∧ t.build = s.build ∧
      t.statusWord = 1 ∧ takeInput .engine t = .next u ∧ u.statusWord = 0 ∧ u.irq = false ∧
      u = { t with phase := u.phase }

/-! ## Reads of the control page -/

/-- The other registers of the control page as the host reads them (20_memory.md R61, R70; 10_state.md R37, R38, R42):
CTRL, with IE in bit 0, LOCK in bit 1 and 0 above, and the last accepted word of CMD at every time; SHARE_N and DEG[b],
0 for b at NPOLY and above, while idle. Host writes to SHARE_N and DEG are ignored at every time. That the unspecified
words of SHARE_N and DEG while BUSY = 1 are free values that are counted is the model's choice (DESIGN CHOICE,
assumption log 5). -/
def Obligations.ControlPageReads : Prop :=
  ∀ (s : State) (v : Word) (b : Bank),
    (∃ w : Word, s.hostRead 0x008 = { s with response := some w } ∧ w.getLsbD 0 = s.ctrl.ie ∧
      w.getLsbD 1 = s.ctrl.lock ∧ ∀ k, 2 ≤ k → w.getLsbD k = false) ∧
    s.hostRead 0x010 = { s with response := some s.cmd } ∧
    (s.phase = .idle →
      s.hostRead 0x030 = { s with response := some (BitVec.ofNat 32 s.shareN) } ∧
      (b.val < s.build.nPoly →
        s.hostRead (0x040 + 4 * b.val) = { s with response := some (BitVec.ofNat 32 (s.getDeg b)) }) ∧
      (s.build.nPoly ≤ b.val → s.hostRead (0x040 + 4 * b.val) = { s with response := some 0 })) ∧
    (s.phase ≠ .idle → ∀ off ∈ [0x030, 0x040 + 4 * b.val],
      s.hostRead off = { s with response := some (Config.freeWord s.freeIx), freeIx := s.freeIx + 1 }) ∧
    s.hostWrite 0x030 v = s ∧ s.hostWrite (0x040 + 4 * b.val) v = s
end

