-- ==== Sys2Proof/Laws/Arith.lean ====
section
/-! SUPPORT. What the arithmetic of Machine/Arith.lean computes: reduction, exponentiation, inverse, the words of a
value. -/

namespace Sys2Proof.Machine

/-! ## Reduction -/

theorem modZ_lt (a : Int) {m : Nat} (hm : 0 < m) : modZ a m < m := by
  have h1 := Int.emod_lt_of_pos a (by exact_mod_cast hm : (0 : Int) < m)
  have h0 := Int.emod_nonneg a (by exact_mod_cast hm.ne' : (m : Int) ≠ 0)
  unfold modZ; omega

theorem modZ_cast (a : Int) {m : Nat} (hm : 0 < m) : ((modZ a m : Nat) : Int) = a % m :=
  Int.toNat_of_nonneg (Int.emod_nonneg a (by exact_mod_cast hm.ne'))

@[simp] theorem modZ_natCast (a m : Nat) : modZ (a : Int) m = a % m := by
  unfold modZ; rw [← Int.natCast_mod]; rfl

/-- A reduced value is the residue class of what it reduces. -/
theorem modZ_zmod (a : Int) {m : Nat} (hm : 0 < m) : ((modZ a m : Nat) : ZMod m) = (a : ZMod m) := by
  have h := congrArg (Int.cast : Int → ZMod m) (modZ_cast a hm)
  simpa using h

/-! ## Exponentiation -/

theorem lt_two_pow_bitlen (k : Nat) : k < 2 ^ bitlen k := by
  unfold bitlen; split
  · omega
  · exact Nat.lt_log2_self

@[simp] theorem bitlen_zero : bitlen 0 = 0 := rfl

theorem bitlen_double_add (k : Nat) (b : Bool) (h : 0 < 2 * k + b.toNat) :
    bitlen (2 * k + b.toNat) = bitlen k + 1 := by
  have hb : b.toNat ≤ 1 := by cases b <;> simp
  unfold bitlen
  rcases Nat.eq_zero_or_pos k with rfl | hk
  · have : b.toNat = 1 := by omega
    rw [this]; rfl
  · rw [if_neg (by omega), if_neg (by omega), Nat.log2_def (2 * k + b.toNat), if_pos (by omega),
      show (2 * k + b.toNat) / 2 = k by omega]

theorem shiftRight_succ_step (e i : Nat) : e >>> i = 2 * (e >>> (i + 1)) + (e.testBit i).toNat := by
  rw [Nat.shiftRight_succ, Nat.testBit_eq_decide_div_mod_eq, Nat.shiftRight_eq_div_pow]
  have : e / 2 ^ i % 2 < 2 := Nat.mod_lt _ (by omega)
  by_cases h : e / 2 ^ i % 2 = 1
  · simp only [h, decide_true, Bool.toNat_true]; omega
  · simp only [h, decide_false, Bool.toNat_false]; omega

/-- The loop invariant of square-and-multiply: the accumulator holds the power of the bits already read. -/
theorem powLoop_eq (a e m n acc : Nat) (h : acc = a ^ (e >>> n) % m) : powLoop a e m n acc = a ^ e % m := by
  induction n generalizing acc with
  | zero => simpa [powLoop] using h
  | succ i ih =>
    apply ih
    have hstep := shiftRight_succ_step e i
    have hsq : acc * acc % m = a ^ (2 * (e >>> (i + 1))) % m := by
      rw [h, ← Nat.mul_mod, ← pow_add, two_mul]
    cases hb : e.testBit i
    · rw [hb] at hstep
      simp [hstep, hsq]
    · rw [hb] at hstep
      simp [hstep, hsq, pow_succ, Nat.mod_mul_mod]

theorem powMod_eq (a e m : Nat) : powMod a e m = a ^ e % m := by
  apply powLoop_eq
  rw [Nat.shiftRight_eq_div_pow, Nat.div_eq_of_lt (lt_two_pow_bitlen e), pow_zero]

/-! ## Inverse -/

/-- The loop of Euclid's algorithm keeps `t·a ≡ r` for both remainders, and ends with that of their greatest common
divisor. -/
theorem invLoop_spec (a : Int) (m : Nat) (fuel r0 r1 : Nat) (t0 t1 : Int) (hf : r1 < fuel)
    (h0 : t0 * a ≡ r0 [ZMOD m]) (h1 : t1 * a ≡ r1 [ZMOD m]) :
    invLoop fuel r0 r1 t0 t1 * a ≡ (Nat.gcd r0 r1 : Nat) [ZMOD m] := by
  induction fuel generalizing r0 r1 t0 t1 with
  | zero => omega
  | succ f ih =>
    unfold invLoop
    split
    · next h => subst h; simpa using h0
    · next h =>
      have hlt : r0 % r1 < r1 := Nat.mod_lt _ (by omega)
      have hgcd : Nat.gcd r0 r1 = Nat.gcd r1 (r0 % r1) := by
        rw [Nat.gcd_comm, Nat.gcd_rec, Nat.gcd_comm]
      rw [hgcd]
      refine ih r1 (r0 % r1) t1 _ (by omega) h1 ?_
      have hr : ((r0 % r1 : Nat) : Int) = (r0 : Int) - (r0 / r1 : Nat) * (r1 : Int) := by
        have := Nat.div_add_mod r0 r1
        have h2 : (r0 : Int) = r1 * (r0 / r1 : Nat) + (r0 % r1 : Nat) := by exact_mod_cast this.symm
        linarith [mul_comm (r1 : Int) ((r0 / r1 : Nat) : Int)]
      rw [hr, sub_mul, mul_assoc]
      exact h0.sub (h1.mul_left _)

theorem invMod_lt (a : Nat) {m : Nat} (hm : 0 < m) : invMod a m < m := modZ_lt _ hm

/-- The defining property of `inv_M(a)` (00_scope.md R12). -/
theorem mul_invMod (a : Nat) {m : Nat} (hm : 0 < m) (hg : Nat.gcd a m = 1) : a * invMod a m % m = 1 % m := by
  have hspec := invLoop_spec (a : Int) m (m + 1) m (a % m) 0 1 (by have := Nat.mod_lt a hm; omega)
    (by simp [Int.ModEq]) (by simp [Int.ModEq])
  have hgcd : Nat.gcd m (a % m) = 1 := by rw [Nat.gcd_comm, ← Nat.gcd_rec, Nat.gcd_comm]; exact hg
  rw [hgcd] at hspec
  have hz : ((a * invMod a m : Nat) : Int) ≡ (1 : Nat) [ZMOD m] := by
    push_cast [invMod, modZ_cast _ hm]
    calc (a : Int) * (invLoop (m + 1) m (a % m) 0 1 % m)
        ≡ a * invLoop (m + 1) m (a % m) 0 1 [ZMOD m] := (Int.mod_modEq _ _).mul_left _
      _ = invLoop (m + 1) m (a % m) 0 1 * a := mul_comm _ _
      _ ≡ (1 : Nat) [ZMOD m] := hspec
  exact (Int.natCast_modEq_iff).1 hz

/-- In the ring of residues the inverse is an inverse. -/
theorem invMod_zmod (a : Nat) {m : Nat} (hm : 0 < m) (hg : Nat.gcd a m = 1) :
    (a : ZMod m) * (invMod a m : ZMod m) = 1 := by
  have h := mul_invMod a hm hg
  have h2 : ((a * invMod a m : Nat) : ZMod m) = ((1 : Nat) : ZMod m) :=
    (ZMod.natCast_eq_natCast_iff _ _ _).2 h
  simpa using h2

/-! ## Words of a value -/

theorem digit_append_lt {x K l B : Nat} (hx : x < K) (hl : l < B) : x * B + l < K * B :=
  calc x * B + l < x * B + B := by omega
    _ = (x + 1) * B := by ring
    _ ≤ K * B := Nat.mul_le_mul_right _ hx

theorem withWord_lt {v i n : Nat} (x : Word) (hi : i < n) (hv : v < 2 ^ (32 * n)) :
    withWord v i x < 2 ^ (32 * n) := by
  obtain ⟨d, rfl⟩ : ∃ d, n = i + 1 + d := ⟨n - (i + 1), by omega⟩
  have hx : x.toNat < 2 ^ 32 := x.isLt
  have hlow : v % 2 ^ (32 * i) < 2 ^ (32 * i) := Nat.mod_lt _ (by positivity)
  have hsplit : 2 ^ (32 * (i + 1 + d)) = 2 ^ (32 * (i + 1)) * 2 ^ (32 * d) := by rw [← pow_add]; ring_nf
  have hhigh : v / 2 ^ (32 * (i + 1)) < 2 ^ (32 * d) := by
    rw [Nat.div_lt_iff_lt_mul (by positivity), mul_comm, ← hsplit]; exact hv
  have hstep : 2 ^ (32 * (i + 1)) = 2 ^ 32 * 2 ^ (32 * i) := by rw [← pow_add]; ring_nf
  have hxl : x.toNat * 2 ^ (32 * i) + v % 2 ^ (32 * i) < 2 ^ (32 * (i + 1)) := by
    rw [hstep]; exact digit_append_lt hx hlow
  unfold withWord
  rw [hsplit, Nat.add_assoc, Nat.mul_comm (2 ^ (32 * (i + 1))) (2 ^ (32 * d))]
  exact digit_append_lt hhigh hxl

/-- Word `i` of a value whose word `i` was replaced by `x` is `x`. -/
theorem wordOf_withWord_same (v i : Nat) (x : Word) : wordOf (withWord v i x) i = x := by
  have hlow : v % 2 ^ (32 * i) < 2 ^ (32 * i) := Nat.mod_lt _ (by positivity)
  have hstep : 2 ^ (32 * (i + 1)) = 2 ^ (32 * i) * 2 ^ 32 := by rw [← pow_add]; ring_nf
  apply BitVec.eq_of_toNat_eq
  unfold wordOf withWord
  rw [BitVec.toNat_ofNat, hstep,
    show v / (2 ^ (32 * i) * 2 ^ 32) * (2 ^ (32 * i) * 2 ^ 32) + x.toNat * 2 ^ (32 * i) + v % 2 ^ (32 * i) =
      v % 2 ^ (32 * i) + 2 ^ (32 * i) * (2 ^ 32 * (v / (2 ^ (32 * i) * 2 ^ 32)) + x.toNat) by ring,
    Nat.add_mul_div_left _ _ (by positivity), Nat.div_eq_of_lt hlow, Nat.zero_add, Nat.mul_add_mod,
    Nat.mod_eq_of_lt x.isLt]

/-- The other words keep their bits. -/
theorem wordOf_withWord_ne {v i j : Nat} (x : Word) (h : j ≠ i) : wordOf (withWord v i x) j = wordOf v j := by
  have hstep : 2 ^ (32 * (i + 1)) = 2 ^ (32 * i) * 2 ^ 32 := by rw [← pow_add]; ring_nf
  have hx : x.toNat < 2 ^ 32 := x.isLt
  have hlow : v % 2 ^ (32 * i) < 2 ^ (32 * i) := Nat.mod_lt _ (by positivity)
  apply BitVec.eq_of_toNat_eq
  unfold wordOf withWord
  rw [BitVec.toNat_ofNat, BitVec.toNat_ofNat]
  rcases Nat.lt_or_ge j i with hji | hij
  · obtain ⟨d, rfl⟩ : ∃ d, i = j + 1 + d := ⟨i - (j + 1), by omega⟩
    have e1 : 2 ^ (32 * (j + 1 + d)) = 2 ^ (32 * j) * (2 ^ 32 * 2 ^ (32 * d)) := by
      rw [← pow_add, ← pow_add]; ring_nf
    have key : ∀ r c : Nat,
        (r + 2 ^ (32 * (j + 1 + d)) * c) / 2 ^ (32 * j) % 2 ^ 32 = r / 2 ^ (32 * j) % 2 ^ 32 := by
      intro r c
      rw [e1, show 2 ^ (32 * j) * (2 ^ 32 * 2 ^ (32 * d)) * c = 2 ^ (32 * j) * (2 ^ 32 * (2 ^ (32 * d) * c)) by ring,
        Nat.add_mul_div_left _ _ (by positivity), Nat.add_mul_mod_self_left]
    have hv : v / 2 ^ (32 * j) % 2 ^ 32 = v % 2 ^ (32 * (j + 1 + d)) / 2 ^ (32 * j) % 2 ^ 32 := by
      conv_lhs => rw [← Nat.mod_add_div v (2 ^ (32 * (j + 1 + d)))]
      exact key _ _
    rw [hv, hstep, show ∀ c r : Nat, c * (2 ^ (32 * (j + 1 + d)) * 2 ^ 32) + x.toNat * 2 ^ (32 * (j + 1 + d)) + r =
      r + 2 ^ (32 * (j + 1 + d)) * (c * 2 ^ 32 + x.toNat) from fun c r => by ring]
    exact key _ _
  · obtain ⟨d, rfl⟩ : ∃ d, j = i + 1 + d := ⟨j - (i + 1), by omega⟩
    have e1 : 2 ^ (32 * (i + 1 + d)) = 2 ^ (32 * (i + 1)) * 2 ^ (32 * d) := by rw [← pow_add]; ring_nf
    rw [e1, ← Nat.div_div_eq_div_mul, ← Nat.div_div_eq_div_mul]
    have hsmall : x.toNat * 2 ^ (32 * i) + v % 2 ^ (32 * i) < 2 ^ (32 * (i + 1)) := by
      rw [hstep, Nat.mul_comm (2 ^ (32 * i))]; exact digit_append_lt hx hlow
    rw [Nat.add_assoc, Nat.add_comm (v / 2 ^ (32 * (i + 1)) * 2 ^ (32 * (i + 1))),
      Nat.add_mul_div_right _ _ (by positivity), Nat.div_eq_of_lt hsmall, Nat.zero_add]

end Sys2Proof.Machine
end

