-- ==== Sys2Proof/Laws/Decode.lean ====
section
/-! SUPPORT. Fields of a packed word, and what each operand class answers. -/

namespace Sys2Proof

theorem bitField_lt (w : Word) (lo len : Nat) : bitField w lo len < 2 ^ len := Nat.mod_lt _ (by positivity)

/-- The values a word's fields can hold (30_encoding.md R91). -/
structure Fields.InRange (f : Fields) : Prop where
  op : f.op < 64
  m : f.m < 4
  rd : f.rd < 16
  ra : f.ra < 16
  rb : f.rb < 16
  rc : f.rc < 16
  imm : f.imm < 256

theorem fieldsOf_inRange (w : Word) : (fieldsOf w).InRange :=
  ⟨bitField_lt w 26 6, bitField_lt w 24 2, bitField_lt w 20 4, bitField_lt w 16 4, bitField_lt w 12 4,
    bitField_lt w 8 4, bitField_lt w 0 8⟩

/-- The fields of a packed word are the fields packed. -/
theorem fieldsOf_pack {f : Fields} (h : f.InRange) : fieldsOf f.pack = f := by
  obtain ⟨op, m, rd, ra, rb, rc, imm⟩ := f
  obtain ⟨h1, h2, h3, h4, h5, h6, h7⟩ := h
  simp only at h1 h2 h3 h4 h5 h6 h7
  simp only [fieldsOf, Fields.pack, bitField, BitVec.toNat_ofNat, Fields.mk.injEq]
  refine ⟨?_, ?_, ?_, ?_, ?_, ?_, ?_⟩ <;> omega

/-- A word is determined by its fields. -/
theorem pack_fieldsOf (w : Word) : (fieldsOf w).pack = w := by
  apply BitVec.eq_of_toNat_eq
  have := w.isLt
  simp only [fieldsOf, Fields.pack, bitField, BitVec.toNat_ofNat]
  omega

theorem FieldMod.code_lt (m : FieldMod) : m.code < 4 := by cases m <;> decide

theorem ScalarMod.code_lt (m : ScalarMod) : m.code < 4 := by cases m <;> decide

theorem PSrc.code_lt (p : PSrc) : p.code < 16 := by
  rcases p with r | gen
  · have := r.isLt; simp only [PSrc.code]; omega
  · cases gen <;> decide

theorem Coord.code_lt (c : Coord) : c.code < 256 := by cases c <;> decide

theorem Instr.opcode_lt (i : Instr) : i.opcode < 64 := by cases i <;> simp [Instr.opcode]

/-! What each class answers, one lemma a class. -/

theorem classS_ok {v : Nat} {r : SReg} : classS v = .ok r ↔ v = r.val := by
  unfold classS
  split
  · next h =>
    constructor
    · intro e; cases e; rfl
    · rintro rfl; rfl
  · next h => simp only [reduceCtorEq, false_iff]; intro e; exact h (e ▸ r.isLt)

theorem classPD_ok {v : Nat} {r : PReg} : classPD v = .ok r ↔ v = r.val := by
  unfold classPD
  split
  · next h =>
    constructor
    · intro e; cases e; rfl
    · rintro rfl; rfl
  · next h => simp only [reduceCtorEq, false_iff]; intro e; exact h (e ▸ r.isLt)

theorem classPS_ok {v : Nat} {p : PSrc} : classPS v = .ok p ↔ v = p.code := by
  unfold classPS
  split
  · next h =>
    constructor
    · intro e; cases e; rfl
    · intro e
      rcases p with r | gen
      · simp only [PSrc.code] at e; subst e; rfl
      · cases gen <;> simp only [PSrc.code] at e <;> omega
  · next h =>
    rcases p with r | gen
    · have := r.isLt
      simp only [PSrc.code]
      split_ifs <;> simp_all <;> omega
    · cases gen <;> simp only [PSrc.code] <;> split_ifs <;> simp_all

theorem classBK_ok {nPoly v : Nat} {b : Bank} : classBK nPoly v = .ok b ↔ v = b.val ∧ b.val < nPoly := by
  unfold classBK
  split
  · next h =>
    split
    · next h2 =>
      constructor
      · intro e; cases e; exact ⟨rfl, h2⟩
      · rintro ⟨rfl, _⟩; rfl
    · next h2 => simp only [reduceCtorEq, false_iff]; rintro ⟨rfl, h3⟩; exact h2 h3
  · next h => simp only [reduceCtorEq, false_iff]; rintro ⟨rfl, _⟩; exact h b.isLt

theorem classMF_ok {v : Nat} {m : FieldMod} : classMF v = .ok m ↔ v = m.code := by
  unfold classMF
  cases m <;> simp only [FieldMod.code] <;> split_ifs <;> simp_all

theorem classMS_ok {v : Nat} {m : ScalarMod} : classMS v = .ok m ↔ v = m.code := by
  unfold classMS
  cases m <;> simp only [ScalarMod.code] <;> split_ifs <;> simp_all

theorem classCO_ok {v : Nat} {c : Coord} : classCO v = .ok c ↔ v = c.code := by
  unfold classCO
  cases c <;> simp only [Coord.code] <;> split_ifs <;> simp_all

theorem classZ_ok {v : Nat} {u : Unit} : classZ v = .ok u ↔ v = 0 := by
  unfold classZ; split <;> simp_all

theorem classIM_ok {v : Nat} {x : Byte} (hv : v < 256) : classIM v = .ok x ↔ v = x.toNat := by
  unfold classIM
  constructor
  · intro e; cases e; simp [BitVec.toNat_ofNat]; omega
  · rintro rfl; simp

end Sys2Proof
end

