-- ==== Sys2Proof/Laws/Memory.lean ====
section
/-! SUPPORT. The memory: every operation keeps its canonical form, reads see the last write, and equal memories are
equal data. -/

namespace Sys2Proof.Machine

/-! ## Cells -/

theorem cellsFrom_mono {lo lo' : Nat} (h : lo' ≤ lo) {cs : List Host.Cell} (hc : cellsFrom lo cs = true) :
    cellsFrom lo' cs = true := by
  cases cs with
  | nil => rfl
  | cons c cs =>
    simp only [cellsFrom, Bool.and_eq_true, decide_eq_true_eq] at hc ⊢
    exact ⟨⟨by omega, hc.1.2⟩, hc.2⟩

/-- Below the lowest listed address every byte reads 0. -/
theorem readCells_below {lo a : Nat} {cs : List Host.Cell} (hc : cellsFrom lo cs = true) (h : a < lo) :
    readCells cs a = 0 := by
  induction cs generalizing lo with
  | nil => rfl
  | cons c cs ih =>
    simp only [cellsFrom, Bool.and_eq_true, decide_eq_true_eq] at hc
    rw [readCells, if_neg (by omega)]
    exact ih hc.2 (by omega)

theorem readCells_writeCells_ne (cs : List Host.Cell) {a b : Nat} (v : Byte) (h : b ≠ a) :
    readCells (writeCells cs a v) b = readCells cs b := by
  induction cs with
  | nil => simp only [writeCells]; split <;> simp [readCells, h.symm]
  | cons c cs ih =>
    obtain ⟨k, x⟩ := c
    simp only [writeCells]
    split
    · split
      · rfl
      · rw [readCells, if_neg (Ne.symm h)]
    · split
      · next hk =>
        split
        · rw [readCells, if_neg (by omega)]
        · rw [readCells, if_neg (Ne.symm h), readCells, if_neg (by omega)]
      · rw [readCells, readCells, ih]

theorem readCells_writeCells_same {lo : Nat} {cs : List Host.Cell} (hc : cellsFrom lo cs = true) (a : Nat) (v : Byte) :
    readCells (writeCells cs a v) a = v := by
  induction cs generalizing lo with
  | nil => simp only [writeCells]; split <;> simp_all [readCells]
  | cons c cs ih =>
    obtain ⟨k, x⟩ := c
    have hcs := hc
    simp only [cellsFrom, Bool.and_eq_true, decide_eq_true_eq] at hc
    simp only [writeCells]
    split
    · next hk =>
      split
      · next hv =>
        rw [readCells, if_neg (by omega), hv]
        exact readCells_below hc.2 (by omega)
      · simp [readCells]
    · split
      · next hk =>
        split
        · next hv => rw [hv]; exact readCells_below hc.2 (by omega)
        · simp [readCells]
      · next h1 h2 => rw [readCells, if_neg (Ne.symm h2)]; exact ih hc.2

theorem cellsFrom_writeCells {lo a : Nat} {cs : List Host.Cell} (v : Byte) (ha : lo ≤ a)
    (hc : cellsFrom lo cs = true) : cellsFrom lo (writeCells cs a v) = true := by
  induction cs generalizing lo with
  | nil => simp only [writeCells]; split <;> simp_all [cellsFrom]
  | cons c cs ih =>
    obtain ⟨k, x⟩ := c
    have hcs := hc
    simp only [cellsFrom, Bool.and_eq_true, decide_eq_true_eq] at hc
    simp only [writeCells]
    split
    · next hk =>
      split
      · exact hcs
      · next hv =>
        simp only [cellsFrom, Bool.and_eq_true, decide_eq_true_eq]
        exact ⟨⟨ha, hv⟩, ⟨by omega, hc.1.2⟩, hc.2⟩
    · split
      · split
        · exact cellsFrom_mono (by omega) hc.2
        · next hk hv =>
          simp only [cellsFrom, Bool.and_eq_true, decide_eq_true_eq]
          exact ⟨⟨ha, hv⟩, by rw [hk]; exact hc.2⟩
      · next h1 h2 =>
        simp only [cellsFrom, Bool.and_eq_true, decide_eq_true_eq]
        exact ⟨hc.1, ih (by omega) hc.2⟩

/-- Two canonical lists that read alike are the same list. -/
theorem cells_ext {lo : Nat} {cs ds : List Host.Cell} (hc : cellsFrom lo cs = true) (hd : cellsFrom lo ds = true)
    (h : ∀ a, readCells cs a = readCells ds a) : cs = ds := by
  induction cs generalizing lo ds with
  | nil =>
    cases ds with
    | nil => rfl
    | cons d ds =>
      obtain ⟨l, y⟩ := d
      simp only [cellsFrom, Bool.and_eq_true, decide_eq_true_eq] at hd
      have := h l
      simp only [readCells, if_true] at this
      exact absurd this.symm hd.1.2
  | cons c cs ih =>
    obtain ⟨k, x⟩ := c
    simp only [cellsFrom, Bool.and_eq_true, decide_eq_true_eq] at hc
    cases ds with
    | nil =>
      have := h k
      simp only [readCells, if_true] at this
      exact absurd this hc.1.2
    | cons d ds =>
      obtain ⟨l, y⟩ := d
      simp only [cellsFrom, Bool.and_eq_true, decide_eq_true_eq] at hd
      have hkl : k = l := by
        rcases Nat.lt_trichotomy k l with hlt | heq | hgt
        · have := h k
          simp only [readCells, if_true, if_neg (show ¬ l = k by omega)] at this
          exact absurd (this.trans (readCells_below hd.2 (by omega))) hc.1.2
        · exact heq
        · have := h l
          simp only [readCells, if_true, if_neg (show ¬ k = l by omega)] at this
          exact absurd (this.symm.trans (readCells_below hc.2 (by omega))) hd.1.2
      subst hkl
      have hx : x = y := by simpa [readCells] using h k
      subst hx
      rw [ih hc.2 hd.2 (fun a => ?_)]
      by_cases ha : a = k
      · subst ha
        rw [readCells_below hc.2 (by omega), readCells_below hd.2 (by omega)]
      · have := h a
        simpa [readCells, Ne.symm ha] using this

/-! ## One byte -/

@[simp] theorem Memory.read_empty (a : Nat) : ({ cells := [] } : Memory).read a = 0 := rfl

theorem Memory.read_write_same {m : Memory} (hm : m.wf = true) (a : Nat) (v : Byte) : (m.write a v).read a = v :=
  readCells_writeCells_same hm a v

theorem Memory.read_write_ne (m : Memory) {a b : Nat} (v : Byte) (h : b ≠ a) : (m.write a v).read b = m.read b :=
  readCells_writeCells_ne m.cells v h

theorem Memory.write_wf {m : Memory} (hm : m.wf = true) (a : Nat) (v : Byte) : (m.write a v).wf = true :=
  cellsFrom_writeCells v (Nat.zero_le a) hm

/-- Canonical memories that read alike are equal data. -/
theorem Memory.ext_read {m n : Memory} (hm : m.wf = true) (hn : n.wf = true) (h : ∀ a, m.read a = n.read a) :
    m = n := by
  cases m; cases n; exact congrArg Memory.mk (cells_ext hm hn h)

/-! ## Little-endian values -/

theorem Memory.readLE_lt (m : Memory) (n a : Nat) : m.readLE n a < 256 ^ n := by
  induction n generalizing a with
  | zero => simp [Memory.readLE]
  | succ n ih =>
    have h1 := (m.read a).isLt
    have h2 := ih (a + 1)
    rw [Memory.readLE, pow_succ]; omega

/-- A value only depends on its own bytes. -/
theorem Memory.readLE_congr {m m' : Memory} {n a : Nat} (h : ∀ b, a ≤ b → b < a + n → m.read b = m'.read b) :
    m.readLE n a = m'.readLE n a := by
  induction n generalizing a with
  | zero => rfl
  | succ n ih =>
    rw [Memory.readLE, Memory.readLE, h a (by omega) (by omega), ih fun b h1 h2 => h b (by omega) (by omega)]

theorem Memory.writeLE_wf {m : Memory} (hm : m.wf = true) (n a v : Nat) : (m.writeLE n a v).wf = true := by
  induction n generalizing m a v with
  | zero => exact hm
  | succ n ih => exact ih (m.write_wf hm _ _) _ _

theorem Memory.read_writeLE_outside (m : Memory) {n a b : Nat} (v : Nat) (h : b < a ∨ a + n ≤ b) :
    (m.writeLE n a v).read b = m.read b := by
  induction n generalizing m a v with
  | zero => rfl
  | succ n ih => rw [Memory.writeLE, ih _ _ (by omega), Memory.read_write_ne _ _ (by omega)]

/-- A written value reads back, reduced to the bytes that hold it. -/
theorem Memory.readLE_writeLE_same {m : Memory} (hm : m.wf = true) (n a v : Nat) :
    (m.writeLE n a v).readLE n a = v % 256 ^ n := by
  induction n generalizing m a v with
  | zero => simp [Memory.readLE, Nat.mod_one]
  | succ n ih =>
    have hw := m.write_wf hm a (BitVec.ofNat 8 v)
    rw [Memory.writeLE, Memory.readLE, Memory.read_writeLE_outside _ _ (by omega), Memory.read_write_same hm, ih hw,
      BitVec.toNat_ofNat, show 256 ^ (n + 1) = 256 * 256 ^ n from Nat.pow_succ', Nat.mod_mul]

theorem Memory.readLE_writeLE_disjoint (m : Memory) {n a k c : Nat} (v : Nat) (h : c + k ≤ a ∨ a + n ≤ c) :
    (m.writeLE n a v).readLE k c = m.readLE k c :=
  Memory.readLE_congr fun b h1 h2 => Memory.read_writeLE_outside m v (by omega)

/-- Writing 0 only clears bytes. -/
theorem Memory.read_writeLE_zero {m : Memory} (hm : m.wf = true) {n a b : Nat} (h : (m.writeLE n a 0).read b ≠ 0) :
    m.read b ≠ 0 := by
  induction n generalizing m a with
  | zero => exact h
  | succ n ih =>
    have h2 := ih (m.write_wf hm a 0) h
    by_cases hb : b = a
    · subst hb; rw [Memory.read_write_same hm] at h2; exact absurd rfl h2
    · rwa [Memory.read_write_ne _ _ hb] at h2

/-! ## Slots -/

theorem Memory.writeSlots_wf {m : Memory} (hm : m.wf = true) (n a : Nat) (vs : List Nat) :
    (m.writeSlots n a vs).wf = true := by
  induction vs generalizing m a with
  | nil => exact hm
  | cons v vs ih => exact ih (m.writeLE_wf hm _ _ _) _

theorem Memory.read_writeSlots_outside (m : Memory) {n a b : Nat} (vs : List Nat)
    (h : ∀ i, i < vs.length → b < a + 0x40 * i ∨ a + 0x40 * i + n ≤ b) :
    (m.writeSlots n a vs).read b = m.read b := by
  induction vs generalizing m a with
  | nil => rfl
  | cons v vs ih =>
    rw [Memory.writeSlots, ih, Memory.read_writeLE_outside _ _ (by simpa using h 0 (by simp))]
    intro i hi
    have := h (i + 1) (by simpa using hi)
    omega

theorem Memory.readLE_writeSlots_disjoint (m : Memory) {n a k c : Nat} (vs : List Nat)
    (h : c + k ≤ a ∨ a + 0x40 * vs.length ≤ c) (hn : n ≤ 0x40) :
    (m.writeSlots n a vs).readLE k c = m.readLE k c :=
  Memory.readLE_congr fun b h1 h2 => Memory.read_writeSlots_outside m vs fun i hi => by omega

/-- Slot `i` of a list of values written to slots reads entry `i`, reduced to the bytes that hold it. -/
theorem Memory.readLE_writeSlots {m : Memory} (hm : m.wf = true) {n : Nat} (hn : n ≤ 0x40) (a : Nat) (vs : List Nat)
    (i : Nat) (hi : i < vs.length) : (m.writeSlots n a vs).readLE n (a + 0x40 * i) = vs[i] % 256 ^ n := by
  induction vs generalizing m a i with
  | nil => simp at hi
  | cons v vs ih =>
    cases i with
    | zero =>
      rw [Memory.writeSlots, Nat.mul_zero, Memory.readLE_writeSlots_disjoint _ _ (by omega) hn, Nat.add_zero,
        Memory.readLE_writeLE_same hm, List.getElem_cons_zero]
    | succ i =>
      rw [Memory.writeSlots, show a + 0x40 * (i + 1) = a + 0x40 + 0x40 * i by ring,
        ih (m.writeLE_wf hm _ _ _) _ _ (by simpa using hi), List.getElem_cons_succ]

end Sys2Proof.Machine
end

