-- ==== Sys2Proof/Laws/State.lean ====
section
/-! SUPPORT. One lemma per field per update of the state, true by rfl, and the same for the accessors of registers,
banks and shares, so that no later proof unfolds a record update. -/

namespace Sys2Proof.Machine

variable (s : State)

/-! ### setS -/

@[simp] theorem State.setS_sreg (i : SReg) (v : Nat) : (s.setS i v).sreg = s.sreg.set i v i.isLt := rfl
@[simp] theorem State.setS_preg (i : SReg) (v : Nat) : (s.setS i v).preg = s.preg := rfl
@[simp] theorem State.setS_deg (i : SReg) (v : Nat) : (s.setS i v).deg = s.deg := rfl
@[simp] theorem State.setS_mem (i : SReg) (v : Nat) : (s.setS i v).mem = s.mem := rfl
@[simp] theorem State.setS_shareN (i : SReg) (v : Nat) : (s.setS i v).shareN = s.shareN := rfl
@[simp] theorem State.setS_cfg (i : SReg) (v : Nat) : (s.setS i v).cfg = s.cfg := rfl
@[simp] theorem State.setS_ctrl (i : SReg) (v : Nat) : (s.setS i v).ctrl = s.ctrl := rfl
@[simp] theorem State.setS_status (i : SReg) (v : Nat) : (s.setS i v).status = s.status := rfl
@[simp] theorem State.setS_cmd (i : SReg) (v : Nat) : (s.setS i v).cmd = s.cmd := rfl
@[simp] theorem State.setS_phase (i : SReg) (v : Nat) : (s.setS i v).phase = s.phase := rfl
@[simp] theorem State.setS_resetLine (i : SReg) (v : Nat) : (s.setS i v).resetLine = s.resetLine := rfl
@[simp] theorem State.setS_build (i : SReg) (v : Nat) : (s.setS i v).build = s.build := rfl
@[simp] theorem State.setS_inputs (i : SReg) (v : Nat) : (s.setS i v).inputs = s.inputs := rfl
@[simp] theorem State.setS_response (i : SReg) (v : Nat) : (s.setS i v).response = s.response := rfl
@[simp] theorem State.setS_oracle (i : SReg) (v : Nat) : (s.setS i v).oracle = s.oracle := rfl
@[simp] theorem State.setS_freeIx (i : SReg) (v : Nat) : (s.setS i v).freeIx = s.freeIx := rfl

/-! ### setPR -/

@[simp] theorem State.setPR_sreg (i : PReg) (pt : Point) : (s.setPR i pt).sreg = s.sreg := rfl
@[simp] theorem State.setPR_preg (i : PReg) (pt : Point) : (s.setPR i pt).preg = s.preg.set i pt i.isLt := rfl
@[simp] theorem State.setPR_deg (i : PReg) (pt : Point) : (s.setPR i pt).deg = s.deg := rfl
@[simp] theorem State.setPR_mem (i : PReg) (pt : Point) : (s.setPR i pt).mem = s.mem := rfl
@[simp] theorem State.setPR_shareN (i : PReg) (pt : Point) : (s.setPR i pt).shareN = s.shareN := rfl
@[simp] theorem State.setPR_cfg (i : PReg) (pt : Point) : (s.setPR i pt).cfg = s.cfg := rfl
@[simp] theorem State.setPR_ctrl (i : PReg) (pt : Point) : (s.setPR i pt).ctrl = s.ctrl := rfl
@[simp] theorem State.setPR_status (i : PReg) (pt : Point) : (s.setPR i pt).status = s.status := rfl
@[simp] theorem State.setPR_cmd (i : PReg) (pt : Point) : (s.setPR i pt).cmd = s.cmd := rfl
@[simp] theorem State.setPR_phase (i : PReg) (pt : Point) : (s.setPR i pt).phase = s.phase := rfl
@[simp] theorem State.setPR_resetLine (i : PReg) (pt : Point) : (s.setPR i pt).resetLine = s.resetLine := rfl
@[simp] theorem State.setPR_build (i : PReg) (pt : Point) : (s.setPR i pt).build = s.build := rfl
@[simp] theorem State.setPR_inputs (i : PReg) (pt : Point) : (s.setPR i pt).inputs = s.inputs := rfl
@[simp] theorem State.setPR_response (i : PReg) (pt : Point) : (s.setPR i pt).response = s.response := rfl
@[simp] theorem State.setPR_oracle (i : PReg) (pt : Point) : (s.setPR i pt).oracle = s.oracle := rfl
@[simp] theorem State.setPR_freeIx (i : PReg) (pt : Point) : (s.setPR i pt).freeIx = s.freeIx := rfl

/-! ### setDeg -/

@[simp] theorem State.setDeg_sreg (b : Bank) (d : Nat) : (s.setDeg b d).sreg = s.sreg := rfl
@[simp] theorem State.setDeg_preg (b : Bank) (d : Nat) : (s.setDeg b d).preg = s.preg := rfl
@[simp] theorem State.setDeg_deg (b : Bank) (d : Nat) : (s.setDeg b d).deg = s.deg.set b d b.isLt := rfl
@[simp] theorem State.setDeg_mem (b : Bank) (d : Nat) : (s.setDeg b d).mem = s.mem := rfl
@[simp] theorem State.setDeg_shareN (b : Bank) (d : Nat) : (s.setDeg b d).shareN = s.shareN := rfl
@[simp] theorem State.setDeg_cfg (b : Bank) (d : Nat) : (s.setDeg b d).cfg = s.cfg := rfl
@[simp] theorem State.setDeg_ctrl (b : Bank) (d : Nat) : (s.setDeg b d).ctrl = s.ctrl := rfl
@[simp] theorem State.setDeg_status (b : Bank) (d : Nat) : (s.setDeg b d).status = s.status := rfl
@[simp] theorem State.setDeg_cmd (b : Bank) (d : Nat) : (s.setDeg b d).cmd = s.cmd := rfl
@[simp] theorem State.setDeg_phase (b : Bank) (d : Nat) : (s.setDeg b d).phase = s.phase := rfl
@[simp] theorem State.setDeg_resetLine (b : Bank) (d : Nat) : (s.setDeg b d).resetLine = s.resetLine := rfl
@[simp] theorem State.setDeg_build (b : Bank) (d : Nat) : (s.setDeg b d).build = s.build := rfl
@[simp] theorem State.setDeg_inputs (b : Bank) (d : Nat) : (s.setDeg b d).inputs = s.inputs := rfl
@[simp] theorem State.setDeg_response (b : Bank) (d : Nat) : (s.setDeg b d).response = s.response := rfl
@[simp] theorem State.setDeg_oracle (b : Bank) (d : Nat) : (s.setDeg b d).oracle = s.oracle := rfl
@[simp] theorem State.setDeg_freeIx (b : Bank) (d : Nat) : (s.setDeg b d).freeIx = s.freeIx := rfl

/-! ### setCoeff -/

@[simp] theorem State.setCoeff_sreg (b : Bank) (j v : Nat) : (s.setCoeff b j v).sreg = s.sreg := rfl
@[simp] theorem State.setCoeff_preg (b : Bank) (j v : Nat) : (s.setCoeff b j v).preg = s.preg := rfl
@[simp] theorem State.setCoeff_deg (b : Bank) (j v : Nat) : (s.setCoeff b j v).deg = s.deg := rfl
@[simp] theorem State.setCoeff_mem (b : Bank) (j v : Nat) : (s.setCoeff b j v).mem = s.mem.writeLE (valueBytes s.build) (coeffAddr b j) v := rfl
@[simp] theorem State.setCoeff_shareN (b : Bank) (j v : Nat) : (s.setCoeff b j v).shareN = s.shareN := rfl
@[simp] theorem State.setCoeff_cfg (b : Bank) (j v : Nat) : (s.setCoeff b j v).cfg = s.cfg := rfl
@[simp] theorem State.setCoeff_ctrl (b : Bank) (j v : Nat) : (s.setCoeff b j v).ctrl = s.ctrl := rfl
@[simp] theorem State.setCoeff_status (b : Bank) (j v : Nat) : (s.setCoeff b j v).status = s.status := rfl
@[simp] theorem State.setCoeff_cmd (b : Bank) (j v : Nat) : (s.setCoeff b j v).cmd = s.cmd := rfl
@[simp] theorem State.setCoeff_phase (b : Bank) (j v : Nat) : (s.setCoeff b j v).phase = s.phase := rfl
@[simp] theorem State.setCoeff_resetLine (b : Bank) (j v : Nat) : (s.setCoeff b j v).resetLine = s.resetLine := rfl
@[simp] theorem State.setCoeff_build (b : Bank) (j v : Nat) : (s.setCoeff b j v).build = s.build := rfl
@[simp] theorem State.setCoeff_inputs (b : Bank) (j v : Nat) : (s.setCoeff b j v).inputs = s.inputs := rfl
@[simp] theorem State.setCoeff_response (b : Bank) (j v : Nat) : (s.setCoeff b j v).response = s.response := rfl
@[simp] theorem State.setCoeff_oracle (b : Bank) (j v : Nat) : (s.setCoeff b j v).oracle = s.oracle := rfl
@[simp] theorem State.setCoeff_freeIx (b : Bank) (j v : Nat) : (s.setCoeff b j v).freeIx = s.freeIx := rfl

/-! ### setCoeffs -/

@[simp] theorem State.setCoeffs_sreg (b : Bank) (j : Nat) (vs : List Nat) : (s.setCoeffs b j vs).sreg = s.sreg := rfl
@[simp] theorem State.setCoeffs_preg (b : Bank) (j : Nat) (vs : List Nat) : (s.setCoeffs b j vs).preg = s.preg := rfl
@[simp] theorem State.setCoeffs_deg (b : Bank) (j : Nat) (vs : List Nat) : (s.setCoeffs b j vs).deg = s.deg := rfl
@[simp] theorem State.setCoeffs_mem (b : Bank) (j : Nat) (vs : List Nat) : (s.setCoeffs b j vs).mem = s.mem.writeSlots (valueBytes s.build) (coeffAddr b j) vs := rfl
@[simp] theorem State.setCoeffs_shareN (b : Bank) (j : Nat) (vs : List Nat) : (s.setCoeffs b j vs).shareN = s.shareN := rfl
@[simp] theorem State.setCoeffs_cfg (b : Bank) (j : Nat) (vs : List Nat) : (s.setCoeffs b j vs).cfg = s.cfg := rfl
@[simp] theorem State.setCoeffs_ctrl (b : Bank) (j : Nat) (vs : List Nat) : (s.setCoeffs b j vs).ctrl = s.ctrl := rfl
@[simp] theorem State.setCoeffs_status (b : Bank) (j : Nat) (vs : List Nat) : (s.setCoeffs b j vs).status = s.status := rfl
@[simp] theorem State.setCoeffs_cmd (b : Bank) (j : Nat) (vs : List Nat) : (s.setCoeffs b j vs).cmd = s.cmd := rfl
@[simp] theorem State.setCoeffs_phase (b : Bank) (j : Nat) (vs : List Nat) : (s.setCoeffs b j vs).phase = s.phase := rfl
@[simp] theorem State.setCoeffs_resetLine (b : Bank) (j : Nat) (vs : List Nat) : (s.setCoeffs b j vs).resetLine = s.resetLine := rfl
@[simp] theorem State.setCoeffs_build (b : Bank) (j : Nat) (vs : List Nat) : (s.setCoeffs b j vs).build = s.build := rfl
@[simp] theorem State.setCoeffs_inputs (b : Bank) (j : Nat) (vs : List Nat) : (s.setCoeffs b j vs).inputs = s.inputs := rfl
@[simp] theorem State.setCoeffs_response (b : Bank) (j : Nat) (vs : List Nat) : (s.setCoeffs b j vs).response = s.response := rfl
@[simp] theorem State.setCoeffs_oracle (b : Bank) (j : Nat) (vs : List Nat) : (s.setCoeffs b j vs).oracle = s.oracle := rfl
@[simp] theorem State.setCoeffs_freeIx (b : Bank) (j : Nat) (vs : List Nat) : (s.setCoeffs b j vs).freeIx = s.freeIx := rfl

/-! ### setBank -/

@[simp] theorem State.setBank_sreg (b : Bank) (d : Nat) (vs : List Nat) : (s.setBank b d vs).sreg = s.sreg := rfl
@[simp] theorem State.setBank_preg (b : Bank) (d : Nat) (vs : List Nat) : (s.setBank b d vs).preg = s.preg := rfl
@[simp] theorem State.setBank_deg (b : Bank) (d : Nat) (vs : List Nat) : (s.setBank b d vs).deg = s.deg.set b d b.isLt := rfl
@[simp] theorem State.setBank_mem (b : Bank) (d : Nat) (vs : List Nat) : (s.setBank b d vs).mem = s.mem.writeSlots (valueBytes s.build) (coeffAddr b 0) (vs ++ List.replicate (s.build.tMax - d) 0) := rfl
@[simp] theorem State.setBank_shareN (b : Bank) (d : Nat) (vs : List Nat) : (s.setBank b d vs).shareN = s.shareN := rfl
@[simp] theorem State.setBank_cfg (b : Bank) (d : Nat) (vs : List Nat) : (s.setBank b d vs).cfg = s.cfg := rfl
@[simp] theorem State.setBank_ctrl (b : Bank) (d : Nat) (vs : List Nat) : (s.setBank b d vs).ctrl = s.ctrl := rfl
@[simp] theorem State.setBank_status (b : Bank) (d : Nat) (vs : List Nat) : (s.setBank b d vs).status = s.status := rfl
@[simp] theorem State.setBank_cmd (b : Bank) (d : Nat) (vs : List Nat) : (s.setBank b d vs).cmd = s.cmd := rfl
@[simp] theorem State.setBank_phase (b : Bank) (d : Nat) (vs : List Nat) : (s.setBank b d vs).phase = s.phase := rfl
@[simp] theorem State.setBank_resetLine (b : Bank) (d : Nat) (vs : List Nat) : (s.setBank b d vs).resetLine = s.resetLine := rfl
@[simp] theorem State.setBank_build (b : Bank) (d : Nat) (vs : List Nat) : (s.setBank b d vs).build = s.build := rfl
@[simp] theorem State.setBank_inputs (b : Bank) (d : Nat) (vs : List Nat) : (s.setBank b d vs).inputs = s.inputs := rfl
@[simp] theorem State.setBank_response (b : Bank) (d : Nat) (vs : List Nat) : (s.setBank b d vs).response = s.response := rfl
@[simp] theorem State.setBank_oracle (b : Bank) (d : Nat) (vs : List Nat) : (s.setBank b d vs).oracle = s.oracle := rfl
@[simp] theorem State.setBank_freeIx (b : Bank) (d : Nat) (vs : List Nat) : (s.setBank b d vs).freeIx = s.freeIx := rfl

/-! ### setShares -/

@[simp] theorem State.setShares_sreg (n : Nat) (vs : List Nat) : (s.setShares n vs).sreg = s.sreg := rfl
@[simp] theorem State.setShares_preg (n : Nat) (vs : List Nat) : (s.setShares n vs).preg = s.preg := rfl
@[simp] theorem State.setShares_deg (n : Nat) (vs : List Nat) : (s.setShares n vs).deg = s.deg := rfl
@[simp] theorem State.setShares_mem (n : Nat) (vs : List Nat) : (s.setShares n vs).mem = s.mem.writeSlots (valueBytes s.build) (shareAddr 1) vs := rfl
@[simp] theorem State.setShares_shareN (n : Nat) (vs : List Nat) : (s.setShares n vs).shareN = n := rfl
@[simp] theorem State.setShares_cfg (n : Nat) (vs : List Nat) : (s.setShares n vs).cfg = s.cfg := rfl
@[simp] theorem State.setShares_ctrl (n : Nat) (vs : List Nat) : (s.setShares n vs).ctrl = s.ctrl := rfl
@[simp] theorem State.setShares_status (n : Nat) (vs : List Nat) : (s.setShares n vs).status = s.status := rfl
@[simp] theorem State.setShares_cmd (n : Nat) (vs : List Nat) : (s.setShares n vs).cmd = s.cmd := rfl
@[simp] theorem State.setShares_phase (n : Nat) (vs : List Nat) : (s.setShares n vs).phase = s.phase := rfl
@[simp] theorem State.setShares_resetLine (n : Nat) (vs : List Nat) : (s.setShares n vs).resetLine = s.resetLine := rfl
@[simp] theorem State.setShares_build (n : Nat) (vs : List Nat) : (s.setShares n vs).build = s.build := rfl
@[simp] theorem State.setShares_inputs (n : Nat) (vs : List Nat) : (s.setShares n vs).inputs = s.inputs := rfl
@[simp] theorem State.setShares_response (n : Nat) (vs : List Nat) : (s.setShares n vs).response = s.response := rfl
@[simp] theorem State.setShares_oracle (n : Nat) (vs : List Nat) : (s.setShares n vs).oracle = s.oracle := rfl
@[simp] theorem State.setShares_freeIx (n : Nat) (vs : List Nat) : (s.setShares n vs).freeIx = s.freeIx := rfl

/-! ### accept -/

@[simp] theorem State.accept_sreg (v : Word) : (s.accept v).sreg = s.sreg := rfl
@[simp] theorem State.accept_preg (v : Word) : (s.accept v).preg = s.preg := rfl
@[simp] theorem State.accept_deg (v : Word) : (s.accept v).deg = s.deg := rfl
@[simp] theorem State.accept_mem (v : Word) : (s.accept v).mem = s.mem := rfl
@[simp] theorem State.accept_shareN (v : Word) : (s.accept v).shareN = s.shareN := rfl
@[simp] theorem State.accept_cfg (v : Word) : (s.accept v).cfg = s.cfg := rfl
@[simp] theorem State.accept_ctrl (v : Word) : (s.accept v).ctrl = s.ctrl := rfl
@[simp] theorem State.accept_status (v : Word) : (s.accept v).status = s.status.accepted := rfl
@[simp] theorem State.accept_cmd (v : Word) : (s.accept v).cmd = v := rfl
@[simp] theorem State.accept_phase (v : Word) : (s.accept v).phase = .inFlight := rfl
@[simp] theorem State.accept_resetLine (v : Word) : (s.accept v).resetLine = s.resetLine := rfl
@[simp] theorem State.accept_build (v : Word) : (s.accept v).build = s.build := rfl
@[simp] theorem State.accept_inputs (v : Word) : (s.accept v).inputs = s.inputs := rfl
@[simp] theorem State.accept_response (v : Word) : (s.accept v).response = s.response := rfl
@[simp] theorem State.accept_oracle (v : Word) : (s.accept v).oracle = s.oracle := rfl
@[simp] theorem State.accept_freeIx (v : Word) : (s.accept v).freeIx = s.freeIx := rfl

/-! ### complete -/

@[simp] theorem State.complete_sreg (e : ECode) (f : Bool) : (s.complete e f).sreg = s.sreg := rfl
@[simp] theorem State.complete_preg (e : ECode) (f : Bool) : (s.complete e f).preg = s.preg := rfl
@[simp] theorem State.complete_deg (e : ECode) (f : Bool) : (s.complete e f).deg = s.deg := rfl
@[simp] theorem State.complete_mem (e : ECode) (f : Bool) : (s.complete e f).mem = s.mem := rfl
@[simp] theorem State.complete_shareN (e : ECode) (f : Bool) : (s.complete e f).shareN = s.shareN := rfl
@[simp] theorem State.complete_cfg (e : ECode) (f : Bool) : (s.complete e f).cfg = s.cfg := rfl
@[simp] theorem State.complete_ctrl (e : ECode) (f : Bool) : (s.complete e f).ctrl = s.ctrl := rfl
@[simp] theorem State.complete_status (e : ECode) (f : Bool) : (s.complete e f).status = s.status.completed e f := rfl
@[simp] theorem State.complete_cmd (e : ECode) (f : Bool) : (s.complete e f).cmd = s.cmd := rfl
@[simp] theorem State.complete_phase (e : ECode) (f : Bool) : (s.complete e f).phase = .idle := rfl
@[simp] theorem State.complete_resetLine (e : ECode) (f : Bool) : (s.complete e f).resetLine = s.resetLine := rfl
@[simp] theorem State.complete_build (e : ECode) (f : Bool) : (s.complete e f).build = s.build := rfl
@[simp] theorem State.complete_inputs (e : ECode) (f : Bool) : (s.complete e f).inputs = s.inputs := rfl
@[simp] theorem State.complete_response (e : ECode) (f : Bool) : (s.complete e f).response = s.response := rfl
@[simp] theorem State.complete_oracle (e : ECode) (f : Bool) : (s.complete e f).oracle = s.oracle := rfl
@[simp] theorem State.complete_freeIx (e : ECode) (f : Bool) : (s.complete e f).freeIx = s.freeIx := rfl

/-! ### endInit -/

@[simp] theorem State.endInit_sreg : s.endInit.sreg = s.sreg := rfl
@[simp] theorem State.endInit_preg : s.endInit.preg = s.preg := rfl
@[simp] theorem State.endInit_deg : s.endInit.deg = s.deg := rfl
@[simp] theorem State.endInit_mem : s.endInit.mem = s.mem := rfl
@[simp] theorem State.endInit_shareN : s.endInit.shareN = s.shareN := rfl
@[simp] theorem State.endInit_cfg : s.endInit.cfg = s.cfg := rfl
@[simp] theorem State.endInit_ctrl : s.endInit.ctrl = s.ctrl := rfl
@[simp] theorem State.endInit_status : s.endInit.status = s.status := rfl
@[simp] theorem State.endInit_cmd : s.endInit.cmd = s.cmd := rfl
@[simp] theorem State.endInit_phase : s.endInit.phase = .idle := rfl
@[simp] theorem State.endInit_resetLine : s.endInit.resetLine = s.resetLine := rfl
@[simp] theorem State.endInit_build : s.endInit.build = s.build := rfl
@[simp] theorem State.endInit_inputs : s.endInit.inputs = s.inputs := rfl
@[simp] theorem State.endInit_response : s.endInit.response = s.response := rfl
@[simp] theorem State.endInit_oracle : s.endInit.oracle = s.oracle := rfl
@[simp] theorem State.endInit_freeIx : s.endInit.freeIx = s.freeIx := rfl

/-! ### Accessors across the updates that do not touch them -/

@[simp] theorem State.setS_getPR (i : SReg) (v : Nat) (r : PReg) : (s.setS i v).getPR r = s.getPR r := rfl
@[simp] theorem State.setS_getDeg (i : SReg) (v : Nat) (c : Bank) : (s.setS i v).getDeg c = s.getDeg c := rfl
@[simp] theorem State.setS_coeff (i : SReg) (v : Nat) (c : Bank) (k : Nat) : (s.setS i v).coeff c k = s.coeff c k := rfl
@[simp] theorem State.setS_shm (i : SReg) (v : Nat) (k : Nat) : (s.setS i v).shm k = s.shm k := rfl
@[simp] theorem State.setS_fieldMod (i : SReg) (v : Nat) (m : FieldMod) : (s.setS i v).fieldMod m = s.fieldMod m := by cases m <;> rfl
@[simp] theorem State.setS_scalarMod (i : SReg) (v : Nat) (m : ScalarMod) : (s.setS i v).scalarMod m = s.scalarMod m := by cases m <;> rfl
@[simp] theorem State.setS_bankOk (i : SReg) (v : Nat) (c : Bank) : (s.setS i v).bankOk c = s.bankOk c := rfl

@[simp] theorem State.setPR_getS (i : PReg) (pt : Point) (r : SReg) : (s.setPR i pt).getS r = s.getS r := rfl
@[simp] theorem State.setPR_getDeg (i : PReg) (pt : Point) (c : Bank) : (s.setPR i pt).getDeg c = s.getDeg c := rfl
@[simp] theorem State.setPR_coeff (i : PReg) (pt : Point) (c : Bank) (k : Nat) : (s.setPR i pt).coeff c k = s.coeff c k := rfl
@[simp] theorem State.setPR_shm (i : PReg) (pt : Point) (k : Nat) : (s.setPR i pt).shm k = s.shm k := rfl
@[simp] theorem State.setPR_fieldMod (i : PReg) (pt : Point) (m : FieldMod) : (s.setPR i pt).fieldMod m = s.fieldMod m := by cases m <;> rfl
@[simp] theorem State.setPR_scalarMod (i : PReg) (pt : Point) (m : ScalarMod) : (s.setPR i pt).scalarMod m = s.scalarMod m := by cases m <;> rfl
@[simp] theorem State.setPR_bankOk (i : PReg) (pt : Point) (c : Bank) : (s.setPR i pt).bankOk c = s.bankOk c := rfl

@[simp] theorem State.setDeg_getS (b : Bank) (d : Nat) (r : SReg) : (s.setDeg b d).getS r = s.getS r := rfl
@[simp] theorem State.setDeg_getPR (b : Bank) (d : Nat) (r : PReg) : (s.setDeg b d).getPR r = s.getPR r := rfl
@[simp] theorem State.setDeg_coeff (b : Bank) (d : Nat) (c : Bank) (k : Nat) : (s.setDeg b d).coeff c k = s.coeff c k := rfl
@[simp] theorem State.setDeg_shm (b : Bank) (d : Nat) (k : Nat) : (s.setDeg b d).shm k = s.shm k := rfl
@[simp] theorem State.setDeg_fieldMod (b : Bank) (d : Nat) (m : FieldMod) : (s.setDeg b d).fieldMod m = s.fieldMod m := by cases m <;> rfl
@[simp] theorem State.setDeg_scalarMod (b : Bank) (d : Nat) (m : ScalarMod) : (s.setDeg b d).scalarMod m = s.scalarMod m := by cases m <;> rfl
@[simp] theorem State.setDeg_bankOk (b : Bank) (d : Nat) (c : Bank) : (s.setDeg b d).bankOk c = s.bankOk c := rfl

@[simp] theorem State.setCoeff_getS (b : Bank) (j v : Nat) (r : SReg) : (s.setCoeff b j v).getS r = s.getS r := rfl
@[simp] theorem State.setCoeff_getPR (b : Bank) (j v : Nat) (r : PReg) : (s.setCoeff b j v).getPR r = s.getPR r := rfl
@[simp] theorem State.setCoeff_getDeg (b : Bank) (j v : Nat) (c : Bank) : (s.setCoeff b j v).getDeg c = s.getDeg c := rfl
@[simp] theorem State.setCoeff_fieldMod (b : Bank) (j v : Nat) (m : FieldMod) : (s.setCoeff b j v).fieldMod m = s.fieldMod m := by cases m <;> rfl
@[simp] theorem State.setCoeff_scalarMod (b : Bank) (j v : Nat) (m : ScalarMod) : (s.setCoeff b j v).scalarMod m = s.scalarMod m := by cases m <;> rfl
@[simp] theorem State.setCoeff_bankOk (b : Bank) (j v : Nat) (c : Bank) : (s.setCoeff b j v).bankOk c = s.bankOk c := rfl

@[simp] theorem State.setCoeffs_getS (b : Bank) (j : Nat) (vs : List Nat) (r : SReg) : (s.setCoeffs b j vs).getS r = s.getS r := rfl
@[simp] theorem State.setCoeffs_getPR (b : Bank) (j : Nat) (vs : List Nat) (r : PReg) : (s.setCoeffs b j vs).getPR r = s.getPR r := rfl
@[simp] theorem State.setCoeffs_getDeg (b : Bank) (j : Nat) (vs : List Nat) (c : Bank) : (s.setCoeffs b j vs).getDeg c = s.getDeg c := rfl
@[simp] theorem State.setCoeffs_fieldMod (b : Bank) (j : Nat) (vs : List Nat) (m : FieldMod) : (s.setCoeffs b j vs).fieldMod m = s.fieldMod m := by cases m <;> rfl
@[simp] theorem State.setCoeffs_scalarMod (b : Bank) (j : Nat) (vs : List Nat) (m : ScalarMod) : (s.setCoeffs b j vs).scalarMod m = s.scalarMod m := by cases m <;> rfl
@[simp] theorem State.setCoeffs_bankOk (b : Bank) (j : Nat) (vs : List Nat) (c : Bank) : (s.setCoeffs b j vs).bankOk c = s.bankOk c := rfl

@[simp] theorem State.setBank_getS (b : Bank) (d : Nat) (vs : List Nat) (r : SReg) : (s.setBank b d vs).getS r = s.getS r := rfl
@[simp] theorem State.setBank_getPR (b : Bank) (d : Nat) (vs : List Nat) (r : PReg) : (s.setBank b d vs).getPR r = s.getPR r := rfl
@[simp] theorem State.setBank_fieldMod (b : Bank) (d : Nat) (vs : List Nat) (m : FieldMod) : (s.setBank b d vs).fieldMod m = s.fieldMod m := by cases m <;> rfl
@[simp] theorem State.setBank_scalarMod (b : Bank) (d : Nat) (vs : List Nat) (m : ScalarMod) : (s.setBank b d vs).scalarMod m = s.scalarMod m := by cases m <;> rfl
@[simp] theorem State.setBank_bankOk (b : Bank) (d : Nat) (vs : List Nat) (c : Bank) : (s.setBank b d vs).bankOk c = s.bankOk c := rfl

@[simp] theorem State.setShares_getS (n : Nat) (vs : List Nat) (r : SReg) : (s.setShares n vs).getS r = s.getS r := rfl
@[simp] theorem State.setShares_getPR (n : Nat) (vs : List Nat) (r : PReg) : (s.setShares n vs).getPR r = s.getPR r := rfl
@[simp] theorem State.setShares_getDeg (n : Nat) (vs : List Nat) (c : Bank) : (s.setShares n vs).getDeg c = s.getDeg c := rfl
@[simp] theorem State.setShares_fieldMod (n : Nat) (vs : List Nat) (m : FieldMod) : (s.setShares n vs).fieldMod m = s.fieldMod m := by cases m <;> rfl
@[simp] theorem State.setShares_scalarMod (n : Nat) (vs : List Nat) (m : ScalarMod) : (s.setShares n vs).scalarMod m = s.scalarMod m := by cases m <;> rfl
@[simp] theorem State.setShares_bankOk (n : Nat) (vs : List Nat) (c : Bank) : (s.setShares n vs).bankOk c = s.bankOk c := rfl

@[simp] theorem State.accept_getS (v : Word) (r : SReg) : (s.accept v).getS r = s.getS r := rfl
@[simp] theorem State.accept_getPR (v : Word) (r : PReg) : (s.accept v).getPR r = s.getPR r := rfl
@[simp] theorem State.accept_getDeg (v : Word) (c : Bank) : (s.accept v).getDeg c = s.getDeg c := rfl
@[simp] theorem State.accept_coeff (v : Word) (c : Bank) (k : Nat) : (s.accept v).coeff c k = s.coeff c k := rfl
@[simp] theorem State.accept_shm (v : Word) (k : Nat) : (s.accept v).shm k = s.shm k := rfl
@[simp] theorem State.accept_fieldMod (v : Word) (m : FieldMod) : (s.accept v).fieldMod m = s.fieldMod m := by cases m <;> rfl
@[simp] theorem State.accept_scalarMod (v : Word) (m : ScalarMod) : (s.accept v).scalarMod m = s.scalarMod m := by cases m <;> rfl
@[simp] theorem State.accept_bankOk (v : Word) (c : Bank) : (s.accept v).bankOk c = s.bankOk c := rfl

@[simp] theorem State.complete_getS (e : ECode) (f : Bool) (r : SReg) : (s.complete e f).getS r = s.getS r := rfl
@[simp] theorem State.complete_getPR (e : ECode) (f : Bool) (r : PReg) : (s.complete e f).getPR r = s.getPR r := rfl
@[simp] theorem State.complete_getDeg (e : ECode) (f : Bool) (c : Bank) : (s.complete e f).getDeg c = s.getDeg c := rfl
@[simp] theorem State.complete_coeff (e : ECode) (f : Bool) (c : Bank) (k : Nat) : (s.complete e f).coeff c k = s.coeff c k := rfl
@[simp] theorem State.complete_shm (e : ECode) (f : Bool) (k : Nat) : (s.complete e f).shm k = s.shm k := rfl
@[simp] theorem State.complete_fieldMod (e : ECode) (f : Bool) (m : FieldMod) : (s.complete e f).fieldMod m = s.fieldMod m := by cases m <;> rfl
@[simp] theorem State.complete_scalarMod (e : ECode) (f : Bool) (m : ScalarMod) : (s.complete e f).scalarMod m = s.scalarMod m := by cases m <;> rfl
@[simp] theorem State.complete_bankOk (e : ECode) (f : Bool) (c : Bank) : (s.complete e f).bankOk c = s.bankOk c := rfl

@[simp] theorem State.endInit_getS (r : SReg) : s.endInit.getS r = s.getS r := rfl
@[simp] theorem State.endInit_getPR (r : PReg) : s.endInit.getPR r = s.getPR r := rfl
@[simp] theorem State.endInit_getDeg (c : Bank) : s.endInit.getDeg c = s.getDeg c := rfl
@[simp] theorem State.endInit_coeff (c : Bank) (k : Nat) : s.endInit.coeff c k = s.coeff c k := rfl
@[simp] theorem State.endInit_shm (k : Nat) : s.endInit.shm k = s.shm k := rfl
@[simp] theorem State.endInit_fieldMod (m : FieldMod) : s.endInit.fieldMod m = s.fieldMod m := by cases m <;> rfl
@[simp] theorem State.endInit_scalarMod (m : ScalarMod) : s.endInit.scalarMod m = s.scalarMod m := by cases m <;> rfl
@[simp] theorem State.endInit_bankOk (c : Bank) : s.endInit.bankOk c = s.bankOk c := rfl

/-! ### Taking answers of the random source -/

@[simp] theorem State.afterAnswer_sreg : s.afterAnswer.sreg = s.sreg := by
  unfold State.afterAnswer; split <;> rfl
@[simp] theorem State.afterAnswer_preg : s.afterAnswer.preg = s.preg := by
  unfold State.afterAnswer; split <;> rfl
@[simp] theorem State.afterAnswer_deg : s.afterAnswer.deg = s.deg := by
  unfold State.afterAnswer; split <;> rfl
@[simp] theorem State.afterAnswer_mem : s.afterAnswer.mem = s.mem := by
  unfold State.afterAnswer; split <;> rfl
@[simp] theorem State.afterAnswer_shareN : s.afterAnswer.shareN = s.shareN := by
  unfold State.afterAnswer; split <;> rfl
@[simp] theorem State.afterAnswer_cfg : s.afterAnswer.cfg = s.cfg := by
  unfold State.afterAnswer; split <;> rfl
@[simp] theorem State.afterAnswer_ctrl : s.afterAnswer.ctrl = s.ctrl := by
  unfold State.afterAnswer; split <;> rfl
@[simp] theorem State.afterAnswer_status : s.afterAnswer.status = s.status := by
  unfold State.afterAnswer; split <;> rfl
@[simp] theorem State.afterAnswer_cmd : s.afterAnswer.cmd = s.cmd := by
  unfold State.afterAnswer; split <;> rfl
@[simp] theorem State.afterAnswer_phase : s.afterAnswer.phase = s.phase := by
  unfold State.afterAnswer; split <;> rfl
@[simp] theorem State.afterAnswer_resetLine : s.afterAnswer.resetLine = s.resetLine := by
  unfold State.afterAnswer; split <;> rfl
@[simp] theorem State.afterAnswer_build : s.afterAnswer.build = s.build := by
  unfold State.afterAnswer; split <;> rfl
@[simp] theorem State.afterAnswer_inputs : s.afterAnswer.inputs = s.inputs := by
  unfold State.afterAnswer; split <;> rfl
@[simp] theorem State.afterAnswer_response : s.afterAnswer.response = s.response := by
  unfold State.afterAnswer; split <;> rfl

@[simp] theorem State.afterAnswer_getS (r : SReg) : s.afterAnswer.getS r = s.getS r := by
  unfold State.afterAnswer; split <;> rfl
@[simp] theorem State.afterAnswer_getPR (r : PReg) : s.afterAnswer.getPR r = s.getPR r := by
  unfold State.afterAnswer; split <;> rfl
@[simp] theorem State.afterAnswer_getDeg (c : Bank) : s.afterAnswer.getDeg c = s.getDeg c := by
  unfold State.afterAnswer; split <;> rfl
@[simp] theorem State.afterAnswer_coeff (c : Bank) (k : Nat) : s.afterAnswer.coeff c k = s.coeff c k := by
  unfold State.afterAnswer; split <;> rfl
@[simp] theorem State.afterAnswer_shm (k : Nat) : s.afterAnswer.shm k = s.shm k := by
  unfold State.afterAnswer; split <;> rfl
@[simp] theorem State.afterAnswer_fieldMod (m : FieldMod) : s.afterAnswer.fieldMod m = s.fieldMod m := by
  unfold State.afterAnswer; split <;> cases m <;> rfl
@[simp] theorem State.afterAnswer_scalarMod (m : ScalarMod) : s.afterAnswer.scalarMod m = s.scalarMod m := by
  unfold State.afterAnswer; split <;> cases m <;> rfl
@[simp] theorem State.afterAnswer_bankOk (c : Bank) : s.afterAnswer.bankOk c = s.bankOk c := by
  unfold State.afterAnswer; split <;> rfl

end Sys2Proof.Machine
end

