-- ==== Sys2Proof/Laws/Regs.lean ====
section
/-! SUPPORT. Registers, coefficients and shares: what a read gives after a write. -/

namespace Sys2Proof.Machine

/-! ## Registers -/

@[simp] theorem State.getS_setS_same (s : State) (i : SReg) (v : Nat) : (s.setS i v).getS i = v := by
  simp [State.getS, State.setS]

theorem State.getS_setS_ne (s : State) {i j : SReg} (v : Nat) (h : j ≠ i) : (s.setS i v).getS j = s.getS j := by
  have : (i : Nat) ≠ j := fun e => h (Fin.ext e.symm)
  simp [State.getS, State.setS, this]

@[simp] theorem State.getPR_setPR_same (s : State) (i : PReg) (pt : Point) : (s.setPR i pt).getPR i = pt := by
  simp [State.getPR, State.setPR]

theorem State.getPR_setPR_ne (s : State) {i j : PReg} (pt : Point) (h : j ≠ i) :
    (s.setPR i pt).getPR j = s.getPR j := by
  have : (i : Nat) ≠ j := fun e => h (Fin.ext e.symm)
  simp [State.getPR, State.setPR, this]

@[simp] theorem State.getDeg_setDeg_same (s : State) (b : Bank) (t : Nat) : (s.setDeg b t).getDeg b = t := by
  simp [State.getDeg, State.setDeg]

theorem State.getDeg_setDeg_ne (s : State) {b c : Bank} (t : Nat) (h : c ≠ b) :
    (s.setDeg b t).getDeg c = s.getDeg c := by
  have : (b : Nat) ≠ c := fun e => h (Fin.ext e.symm)
  simp [State.getDeg, State.setDeg, this]

@[simp] theorem State.getDeg_setBank_same (s : State) (b : Bank) (t : Nat) (cs : List Nat) :
    (s.setBank b t cs).getDeg b = t := State.getDeg_setDeg_same s b t

theorem State.getDeg_setBank_ne (s : State) {b c : Bank} (t : Nat) (cs : List Nat) (h : c ≠ b) :
    (s.setBank b t cs).getDeg c = s.getDeg c := State.getDeg_setDeg_ne s t h

@[simp] theorem Point.coord_withCoord_same (pt : Point) (c : Coord) (v : Nat) : (pt.withCoord c v).coord c = v := by
  cases c <;> rfl

theorem Point.coord_withCoord_ne (pt : Point) {c d : Coord} (v : Nat) (h : d ≠ c) :
    (pt.withCoord c v).coord d = pt.coord d := by
  cases c <;> cases d <;> first | rfl | exact absurd rfl h

@[simp] theorem Cfg.get_set_same (c : Cfg) (v : Nat) (k : CfgReg) : (c.set v k).get k = v := by cases k <;> rfl

theorem Cfg.get_set_ne (c : Cfg) (v : Nat) {k l : CfgReg} (h : l ≠ k) : (c.set v k).get l = c.get l := by
  cases k <;> cases l <;> first | rfl | exact absurd rfl h

/-! ## Sizes of a valid build -/

theorem Valid.bytes_le {b : Build} (h : b.Valid) : valueBytes b ≤ 0x40 := by
  have := h.1; unfold valueBytes; omega

theorem Valid.pow_bytes {b : Build} (h : b.Valid) : 256 ^ valueBytes b = 2 ^ b.w := by
  have hw := h.1
  have : b.w = 8 * valueBytes b := by unfold valueBytes; omega
  rw [this, pow_mul]; rfl

theorem Valid.two_pow_ge {b : Build} (h : b.Valid) : 2 ^ 32 ≤ 2 ^ b.w := Nat.pow_le_pow_right (by omega) h.1.2.1

/-! ## Coefficients and shares -/

theorem State.coeff_lt {s : State} (h : s.build.Valid) (b : Bank) (j : Nat) : s.coeff b j < 2 ^ s.build.w := by
  rw [← Valid.pow_bytes h]; exact Memory.readLE_lt _ _ _

theorem State.shm_lt {s : State} (h : s.build.Valid) (i : Nat) : s.shm i < 2 ^ s.build.w := by
  rw [← Valid.pow_bytes h]; exact Memory.readLE_lt _ _ _

/-- A list of coefficients written: entry `k − j` at index `k`. -/
theorem State.coeff_setCoeffs_in {s : State} (hv : s.build.Valid) (hm : s.mem.wf = true) (b : Bank) (j k : Nat)
    (vs : List Nat) (h : k < vs.length) : (s.setCoeffs b j vs).coeff b (j + k) = vs[k] % 2 ^ s.build.w := by
  unfold State.coeff
  rw [State.setCoeffs_mem, State.setCoeffs_build, ← Valid.pow_bytes hv,
    ← Memory.readLE_writeSlots hm (Valid.bytes_le hv) (coeffAddr b j) vs k h]
  congr 1; unfold coeffAddr; omega

/-- Coefficients at other indices of the bank keep their values. -/
theorem State.coeff_setCoeffs_out {s : State} (hv : s.build.Valid) (b : Bank) (j k : Nat) (vs : List Nat)
    (h : k < j ∨ j + vs.length ≤ k) : (s.setCoeffs b j vs).coeff b k = s.coeff b k := by
  have := Valid.bytes_le hv
  exact Memory.readLE_writeSlots_disjoint _ _ (by unfold coeffAddr; show _ ∨ _; simp only [State.setCoeffs_build]; omega) this

/-- Other banks keep their coefficients. -/
theorem State.coeff_setCoeffs_bank {s : State} (hv : s.build.Valid) {b c : Bank} (hbc : c ≠ b) (j k : Nat)
    (vs : List Nat) (hj : j + vs.length ≤ 1024) (hk : k ≤ 1023) : (s.setCoeffs b j vs).coeff c k = s.coeff c k := by
  have := Valid.bytes_le hv
  have hne : (c : Nat) ≠ b := fun e => hbc (Fin.ext e)
  refine Memory.readLE_writeSlots_disjoint _ _ ?_ this
  unfold coeffAddr; simp only [State.setCoeffs_build]; omega

/-- Writing coefficients leaves the shares. -/
theorem State.shm_setCoeffs {s : State} (hv : s.build.Valid) (b : Bank) (j i : Nat) (vs : List Nat)
    (hj : j + vs.length ≤ 1024) : (s.setCoeffs b j vs).shm i = s.shm i := by
  have := Valid.bytes_le hv
  have := b.isLt
  refine Memory.readLE_writeSlots_disjoint _ _ ?_ ‹_›
  unfold coeffAddr shareAddr; omega

theorem State.coeff_setCoeff_same {s : State} (hv : s.build.Valid) (hm : s.mem.wf = true) (b : Bank) (j v : Nat) :
    (s.setCoeff b j v).coeff b j = v % 2 ^ s.build.w := by
  rw [← Valid.pow_bytes hv]; exact Memory.readLE_writeLE_same hm _ _ _

theorem State.coeff_setCoeff_ne {s : State} (hv : s.build.Valid) {b c : Bank} {j k : Nat} (v : Nat) (hj : j ≤ 1023)
    (hk : k ≤ 1023) (h : c ≠ b ∨ k ≠ j) : (s.setCoeff b j v).coeff c k = s.coeff c k := by
  have := Valid.bytes_le hv
  refine Memory.readLE_writeLE_disjoint _ _ ?_
  have hb : c = b ∨ (c : Nat) ≠ b := by
    by_cases e : c = b
    · exact .inl e
    · exact .inr fun e' => e (Fin.ext e')
  simp only [State.setCoeff_build]
  unfold coeffAddr
  rcases hb with rfl | hb
  · simp only [ne_eq, not_true_eq_false, false_or] at h; omega
  · omega

theorem State.shm_setCoeff {s : State} (hv : s.build.Valid) (b : Bank) {j : Nat} (i v : Nat) (hj : j ≤ 1023) :
    (s.setCoeff b j v).shm i = s.shm i := by
  have := Valid.bytes_le hv
  have := b.isLt
  refine Memory.readLE_writeLE_disjoint _ _ ?_
  unfold coeffAddr shareAddr; omega

/-- A bank written whole: its coefficients are the list, then zeros up to T_MAX. -/
theorem State.coeff_setBank_same {s : State} (hv : s.build.Valid) (hm : s.mem.wf = true) (b : Bank) {t : Nat}
    {cs : List Nat} (hlen : cs.length = t + 1) (ht : t ≤ s.build.tMax) (j : Nat) (hj : j ≤ s.build.tMax) :
    (s.setBank b t cs).coeff b j = (if h : j < cs.length then cs[j] else 0) % 2 ^ s.build.w := by
  have hlt : j < (cs ++ List.replicate (s.build.tMax - t) 0).length := by simp; omega
  have h := State.coeff_setCoeffs_in (s := s.setDeg b t) hv hm b 0 j (cs ++ List.replicate (s.build.tMax - t) 0) hlt
  rw [Nat.zero_add] at h
  refine h.trans ?_
  rw [List.getElem_append]
  split <;> simp

/-- A bank written whole leaves the other banks. -/
theorem State.coeff_setBank_ne {s : State} (hv : s.build.Valid) {b c : Bank} (hbc : c ≠ b) {t : Nat} {cs : List Nat}
    (hlen : cs.length = t + 1) (ht : t ≤ s.build.tMax) {j : Nat} (hj : j ≤ s.build.tMax) :
    (s.setBank b t cs).coeff c j = s.coeff c j := by
  have := hv.2.1
  exact State.coeff_setCoeffs_bank (s := s.setDeg b t) hv hbc 0 j _ (by simp; omega) (by omega)

/-- A bank written whole leaves the shares. -/
theorem State.shm_setBank {s : State} (hv : s.build.Valid) (b : Bank) {t : Nat} {cs : List Nat}
    (hlen : cs.length = t + 1) (ht : t ≤ s.build.tMax) (i : Nat) : (s.setBank b t cs).shm i = s.shm i := by
  have := hv.2.1
  exact State.shm_setCoeffs (s := s.setDeg b t) hv b 0 i _ (by simp; omega)

/-- The share memory written whole: share i is entry i − 1 of the list. -/
theorem State.shm_setShares {s : State} (hv : s.build.Valid) (hm : s.mem.wf = true) (n : Nat) (vs : List Nat) (i : Nat)
    (h : i < vs.length) : (s.setShares n vs).shm (i + 1) = vs[i] % 2 ^ s.build.w := by
  unfold State.shm
  rw [State.setShares_mem, State.setShares_build, ← Valid.pow_bytes hv,
    ← Memory.readLE_writeSlots hm (Valid.bytes_le hv) (shareAddr 1) vs i h]
  congr 1

/-- Writing the shares leaves the coefficients. -/
theorem State.coeff_setShares {s : State} (hv : s.build.Valid) (n : Nat) (vs : List Nat) (b : Bank) {j : Nat}
    (hj : j ≤ 1023) : (s.setShares n vs).coeff b j = s.coeff b j := by
  have := Valid.bytes_le hv
  have := b.isLt
  refine Memory.readLE_writeSlots_disjoint _ _ ?_ ‹_›
  unfold coeffAddr shareAddr; simp only [State.setShares_build]; omega

end Sys2Proof.Machine
end

