-- ==== Sys2Proof/Laws/Ops.lean ====
section
/-! SUPPORT. What each shared operation can do, said once: completions and their frames, draws, Horner evaluation, the
ladder's recursion, the endings of the curve commands, bus accesses and steps. -/

namespace Sys2Proof.Machine

/-! ## Completions -/

theorem raiseError_eq (e : ECode) (s : State) : raiseError e s = .next (s.complete e false) := rfl

theorem succeed_eq (inf : Bool) (s : State) : succeed inf s = .next (s.complete .none inf) := rfl

@[simp] theorem raiseError_next {e : ECode} {s t : State} : raiseError e s = .next t ↔ s.complete e false = t := by
  simp [raiseError]

@[simp] theorem succeed_next {inf : Bool} {s t : State} : succeed inf s = .next t ↔ s.complete .none inf = t := by
  simp [succeed]

/-- Completion records its outcome, from any state that kept OVR. -/
theorem completed_complete {s u : State} (e : ECode) (inf : Bool) (h : u.status.ovr = s.status.ovr)
    (hi : inf = true → e = .none) : Completed s (u.complete e inf) e inf := by
  refine ⟨rfl, rfl, rfl, rfl, ?_, h⟩
  show (inf && decide (e = .none)) = inf
  cases inf
  · rfl
  · simp [hi rfl]

/-- An error writes nothing (60_exceptions.md R229). -/
theorem wroteNothing_raiseError (e : ECode) (s : State) :
    ∃ t, raiseError e s = .next t ∧ WroteNothing s t e :=
  ⟨_, rfl, completed_complete e false rfl (by simp), fun _ => rfl, fun _ => rfl, ⟨fun _ => rfl, fun _ => rfl, rfl⟩,
    ⟨rfl, rfl, rfl, rfl, rfl, rfl, rfl⟩, ⟨rfl, rfl⟩⟩

/-- A success that wrote one scalar register. -/
theorem wroteScalar_succeed (s : State) (rd : SReg) (v : Nat) :
    ∃ t, succeed false (s.setS rd v) = .next t ∧ WroteScalar s t rd v :=
  ⟨_, rfl, completed_complete .none false rfl (by simp), s.getS_setS_same rd v, fun _ h => s.getS_setS_ne v h,
    fun _ => rfl, ⟨fun _ => rfl, fun _ => rfl, rfl⟩, ⟨rfl, rfl, rfl, rfl, rfl, rfl, rfl⟩, ⟨rfl, rfl⟩⟩

/-- A success that wrote one point register. -/
theorem wrotePoint_succeed (s : State) (rd : PReg) (pt : Point) (inf : Bool) :
    ∃ t, succeed inf (s.setPR rd pt) = .next t ∧ WrotePoint s t rd pt inf :=
  ⟨_, rfl, completed_complete .none inf rfl (by simp), s.getPR_setPR_same rd pt, fun _ => rfl,
    fun _ h => s.getPR_setPR_ne pt h, ⟨fun _ => rfl, fun _ => rfl, rfl⟩, ⟨rfl, rfl, rfl, rfl, rfl, rfl, rfl⟩,
    ⟨rfl, rfl⟩⟩

/-- The field template (40_field.md R120): PARAM below 2, else the result of the reduced operands. -/
theorem fieldBinary_eq (f : Nat → Nat → Nat → Nat) (m : FieldMod) (rd ra rb : SReg) (s : State) :
    fieldBinary f m rd ra rb s =
      if s.fieldMod m < 2 then raiseError .param s
      else succeed false
        (s.setS rd (f (s.getS ra % s.fieldMod m) (s.getS rb % s.fieldMod m) (s.fieldMod m))) := rfl

/-- The end of RECOV and SMUL: a point or an error. -/
theorem finishAffine_eq (rd : PReg) (r : Except ECode Affine) (s : State) :
    (∃ pt, r = .ok pt ∧ finishAffine rd r s = succeed pt.isIdentity (s.setPR rd pt.toPoint)) ∨
    (∃ e, r = .error e ∧ finishAffine rd r s = raiseError e s) := by
  cases r with
  | ok pt => exact .inl ⟨pt, rfl, rfl⟩
  | error e => exact .inr ⟨e, rfl, rfl⟩

/-- What the recovery can answer (42_curve.md R157). -/
theorem recover_cases (P A x y : Nat) (q r : XZ) :
    (q.z = 0 ∧ recover P A x y q r = .ok .identity) ∨
    (q.z ≠ 0 ∧ r.z = 0 ∧ recover P A x y q r = .ok (.finite x (modZ ((P : Int) - y) P))) ∨
    (q.z ≠ 0 ∧ r.z ≠ 0 ∧ (recoverXYZ P A x y q r).z = 0 ∧ recover P A x y q r = .error .degenerate) ∨
    (q.z ≠ 0 ∧ r.z ≠ 0 ∧ (recoverXYZ P A x y q r).z ≠ 0 ∧ Nat.gcd (recoverXYZ P A x y q r).z P ≠ 1 ∧
      recover P A x y q r = .error .notInvertible) ∨
    (q.z ≠ 0 ∧ r.z ≠ 0 ∧ (recoverXYZ P A x y q r).z ≠ 0 ∧ Nat.gcd (recoverXYZ P A x y q r).z P = 1 ∧
      recover P A x y q r =
        .ok (.finite ((recoverXYZ P A x y q r).x * invMod (recoverXYZ P A x y q r).z P % P)
          ((recoverXYZ P A x y q r).y * invMod (recoverXYZ P A x y q r).z P % P))) := by
  unfold recover
  by_cases hq : q.z = 0
  · simp [hq]
  · by_cases hr : r.z = 0
    · simp [hq, hr]
    · by_cases hz : (recoverXYZ P A x y q r).z = 0
      · simp [hq, hr, hz]
      · by_cases hg : Nat.gcd (recoverXYZ P A x y q r).z P = 1 <;> simp [hq, hr, hz, hg]

/-! ## Draws -/

theorem State.draw_lt (s : State) {m : Nat} (hm : 0 < m) : s.draw m < m := Nat.mod_lt _ hm

theorem State.draw_oracle (s : State) (v : Nat) (vs : List Nat) (h : s.oracle = v :: vs) (m : Nat) :
    s.draw m = v % m ∧ s.afterAnswer = { s with oracle := vs } := by
  simp [State.draw, State.answer, State.afterAnswer, h]

/-- Taking an answer changes nothing but the environment's answers and the count of free values. -/
theorem State.afterAnswer_state (s : State) :
    s.afterAnswer = { s with oracle := s.afterAnswer.oracle, freeIx := s.afterAnswer.freeIx } := by
  unfold State.afterAnswer; split <;> rfl

theorem draws_succ (m n : Nat) (s : State) :
    State.draws m (n + 1) s =
      (s.draw m :: (State.draws m n s.afterAnswer).1, (State.draws m n s.afterAnswer).2) := rfl

@[simp] theorem draws_length (m n : Nat) (s : State) : (State.draws m n s).1.length = n := by
  induction n generalizing s with
  | zero => rfl
  | succ n ih => rw [draws_succ, List.length_cons, ih]

theorem draws_lt {m : Nat} (hm : 0 < m) (n : Nat) (s : State) : ∀ v ∈ (State.draws m n s).1, v < m := by
  induction n generalizing s with
  | zero => simp [State.draws]
  | succ n ih =>
    rw [draws_succ]
    intro v hv
    rcases List.mem_cons.1 hv with rfl | hv
    · exact s.draw_lt hm
    · exact ih _ v hv

/-- Draws change the random source and nothing else. -/
theorem draws_state (m n : Nat) (s : State) :
    (State.draws m n s).2 =
      { s with oracle := (State.draws m n s).2.oracle, freeIx := (State.draws m n s).2.freeIx } := by
  induction n generalizing s with
  | zero => rfl
  | succ n ih =>
    rw [draws_succ]
    refine (ih s.afterAnswer).trans ?_
    simp only [State.afterAnswer_sreg, State.afterAnswer_preg, State.afterAnswer_deg, State.afterAnswer_mem,
      State.afterAnswer_shareN, State.afterAnswer_cfg, State.afterAnswer_ctrl, State.afterAnswer_status,
      State.afterAnswer_cmd, State.afterAnswer_phase, State.afterAnswer_resetLine, State.afterAnswer_build,
      State.afterAnswer_inputs, State.afterAnswer_response]

/-- Draws take the answers the environment has fixed, in order. -/
theorem draws_oracle (m : Nat) (as rest : List Nat) (s : State) (h : s.oracle = as ++ rest) :
    State.draws m as.length s = (as.map (· % m), { s with oracle := rest }) := by
  induction as generalizing s with
  | nil => simp only [List.nil_append] at h; simp [State.draws, ← h]
  | cons a as ih =>
    obtain ⟨h1, h2⟩ := s.draw_oracle a (as ++ rest) h m
    rw [List.length_cons, draws_succ, h1, h2, ih _ rfl, List.map_cons]

/-! ## Horner evaluation -/

/-- The loop's value: the accumulator shifted by the remaining powers, plus the remaining terms (43_poly.md R188). -/
theorem hornerLoop_eq (c : Nat → Nat) (x m n acc : Nat) (hacc : acc % m = acc) :
    hornerLoop c x m n acc = (acc * x ^ n + ∑ j ∈ Finset.range n, c j * x ^ j) % m := by
  induction n generalizing acc with
  | zero => simp [hornerLoop, hacc]
  | succ n ih =>
    rw [hornerLoop, ih _ (Nat.mod_mod _ _), Finset.sum_range_succ, Nat.add_mod, Nat.mul_mod, Nat.mod_mod]
    have : (acc * x + c n % m) % m = (acc * x + c n) % m := by rw [Nat.add_mod_mod]
    rw [this, ← Nat.mul_mod, ← Nat.add_mod]
    congr 1; ring

theorem State.evalBank_eq (s : State) (b : Bank) (x m : Nat) :
    s.evalBank b x m = (∑ j ∈ Finset.range (s.getDeg b + 1), s.coeff b j * x ^ j) % m := by
  unfold State.evalBank
  rw [hornerLoop_eq _ _ _ _ _ (Nat.zero_mod m), Nat.zero_mul, Nat.zero_add]

theorem State.evalBank_lt (s : State) (b : Bank) (x : Nat) {m : Nat} (hm : 0 < m) : s.evalBank b x m < m := by
  rw [State.evalBank_eq]; exact Nat.mod_lt _ hm

/-! ## The ladder -/

/-- The loop only reads the bits below its count. -/
theorem ladderLoop_congr (P A24 : Nat) (D : XZ) {k k' : Nat} (n : Nat) (l : XZ × XZ)
    (h : ∀ i, i < n → k.testBit i = k'.testBit i) : ladderLoop P A24 D k n l = ladderLoop P A24 D k' n l := by
  induction n generalizing l with
  | zero => rfl
  | succ n ih => rw [ladderLoop, ladderLoop, h n (by omega), ih _ fun i hi => h i (by omega)]

/-- The bits of `2k + b`, most significant first, are those of k and then b. -/
theorem ladderLoop_double (P A24 : Nat) (D : XZ) (k : Nat) (b : Bool) (n : Nat) (l : XZ × XZ) :
    ladderLoop P A24 D (2 * k + b.toNat) (n + 1) l = ladderStep P A24 D b (ladderLoop P A24 D k n l) := by
  induction n generalizing l with
  | zero =>
    have : (2 * k + b.toNat).testBit 0 = b := by cases b <;> simp [Nat.testBit_zero]
    simp [ladderLoop, this]
  | succ n ih =>
    have : (2 * k + b.toNat).testBit (n + 1) = k.testBit n := by
      rw [Nat.testBit_succ]; congr 1; cases b <;> (simp; try omega)
    rw [ladderLoop, this, ih, ladderLoop]

/-- The ladder's recursion (42_curve.md R156): one step for the last bit after the ladder of the bits above it. -/
theorem ladder_double (P A24 x k : Nat) (b : Bool) (h : 0 < 2 * k + b.toNat) :
    ladder P A24 (2 * k + b.toNat) x = ladderStep P A24 { x := x, z := 1 } b (ladder P A24 k x) := by
  unfold ladder; rw [bitlen_double_add k b h, ladderLoop_double]

theorem ladder_zero (P A24 x : Nat) : ladder P A24 0 x = ({ x := 1, z := 0 }, { x := x, z := 1 }) := rfl

/-! ## Bus accesses and steps -/

/-! A data location written leaves the control state. -/

@[simp] theorem State.setData_status (s : State) (v : Nat) (l : DataLoc) : (s.setData v l).status = s.status := by
  cases l <;> rfl

@[simp] theorem State.setData_ctrl (s : State) (v : Nat) (l : DataLoc) : (s.setData v l).ctrl = s.ctrl := by
  cases l <;> rfl

@[simp] theorem State.setData_cmd (s : State) (v : Nat) (l : DataLoc) : (s.setData v l).cmd = s.cmd := by
  cases l <;> rfl

@[simp] theorem State.setData_phase (s : State) (v : Nat) (l : DataLoc) : (s.setData v l).phase = s.phase := by
  cases l <;> rfl

@[simp] theorem State.setData_deg (s : State) (v : Nat) (l : DataLoc) : (s.setData v l).deg = s.deg := by
  cases l <;> rfl

@[simp] theorem State.setData_shareN (s : State) (v : Nat) (l : DataLoc) : (s.setData v l).shareN = s.shareN := by
  cases l <;> rfl

@[simp] theorem State.setData_build (s : State) (v : Nat) (l : DataLoc) : (s.setData v l).build = s.build := by
  cases l <;> rfl

@[simp] theorem State.setData_resetLine (s : State) (v : Nat) (l : DataLoc) : (s.setData v l).resetLine = s.resetLine := by
  cases l <;> rfl

@[simp] theorem State.setData_inputs (s : State) (v : Nat) (l : DataLoc) : (s.setData v l).inputs = s.inputs := by
  cases l <;> rfl

@[simp] theorem State.setData_response (s : State) (v : Nat) (l : DataLoc) : (s.setData v l).response = s.response := by
  cases l <;> rfl

/-- What a host write of a data location does: dropped with OVR, taken, or ignored. -/
theorem writeData_cases (s : State) (l : DataLoc) (i : Nat) (v : Word) :
    (s.busy = true ∧ s.writeData l i v = { s with status := s.status.overrun }) ∨
    (s.busy = false ∧ s.hostMayWrite l = true ∧ i < valueWords s.build ∧
      s.writeData l i v = s.setData (withWord (s.dataValue l) i v) l) ∨
    (s.busy = false ∧ (s.hostMayWrite l = false ∨ valueWords s.build ≤ i) ∧ s.writeData l i v = s) := by
  unfold State.writeData
  cases s.busy <;> cases s.hostMayWrite l <;> by_cases h : i < valueWords s.build <;> simp [h] <;> omega

/-- What a host write of CMD does: dropped with OVR, or accepted. -/
theorem writeCmd_cases (s : State) (v : Word) :
    (s.busy = true ∧ s.writeCmd v = { s with status := s.status.overrun }) ∨
    (s.busy = false ∧ s.writeCmd v = s.accept v) := by
  unfold State.writeCmd
  cases s.busy <;> simp

/-- What a host read does: a free word and the counter advanced, or the location's word. -/
theorem hostRead_cases (s : State) (off : Nat) :
    (s.busy = true ∧ (locate s.build off).hiddenWhileBusy = true ∧
      s.hostRead off = { s with response := some (Config.freeWord s.freeIx), freeIx := s.freeIx + 1 }) ∨
    ((s.busy = false ∨ (locate s.build off).hiddenWhileBusy = false) ∧
      s.hostRead off = { s with response := some (s.locWord (locate s.build off)) }) := by
  unfold State.hostRead
  cases s.busy <;> cases (locate s.build off).hiddenWhileBusy <;> simp

/-- An idle block shows the location's word. -/
theorem State.hostRead_idle {s : State} (h : s.phase = .idle) (off : Nat) :
    s.hostRead off = { s with response := some (s.locWord (locate s.build off)) } := by
  rcases hostRead_cases s off with ⟨hb, -⟩ | ⟨-, he⟩
  · simp [State.busy, h] at hb
  · exact he

/-- The control page (20_memory.md R61). -/
theorem locate_control (b : Build) {off : Nat} (h : off < 0x1000) : locate b off = controlLoc off := if_pos h

/-- The offsets of the degree bounds (20_memory.md R61). -/
theorem locate_deg (b : Build) (k : Bank) : locate b (0x040 + 4 * k.val) = .deg k := by
  rw [locate_control b (by omega)]
  revert k; decide

/-- What a bus access can do: the two faults, the refusal, or its action at its offset. -/
theorem busAccess_cases (addr size : Nat) (act : State → Nat → State) (s : State) :
    (inWindow s.build addr = false ∧ busAccess addr size act s = .fault .outsideWindow) ∨
    (inWindow s.build addr = true ∧ s.resetLine = true ∧ busAccess addr size act s = .fault .accessInReset) ∨
    (inWindow s.build addr = true ∧ s.resetLine = false ∧ definedAccess (addr - s.build.base) size = false ∧
      busAccess addr size act s = .refused .busBadAccess) ∨
    (inWindow s.build addr = true ∧ s.resetLine = false ∧ definedAccess (addr - s.build.base) size = true ∧
      busAccess addr size act s = .next (act s (addr - s.build.base))) := by
  unfold busAccess
  cases h1 : inWindow s.build addr
  · simp
  · cases h2 : s.resetLine
    · cases h3 : definedAccess (addr - s.build.base) size <;> simp
    · simp

/-- What the engine's turn can do. -/
theorem engineTurn_cases (s : State) :
    ((s.resetLine = true ∨ s.phase = .idle) ∧ engineTurn s = .next s) ∨
    (s.resetLine = false ∧ s.phase = .initialising ∧ engineTurn s = .next s.endInit) ∨
    (s.resetLine = false ∧ s.phase = .inFlight ∧ ∃ i, s.fetch = .ok i ∧ engineTurn s = exec i s) ∨
    (s.resetLine = false ∧ s.phase = .inFlight ∧ ∃ e, s.fetch = .error e ∧
      engineTurn s = raiseError .illegal s) := by
  unfold engineTurn
  cases h1 : s.resetLine
  · cases h2 : s.phase
    · simp
    · simp
    · cases h3 : s.fetch <;> simp
  · simp

/-- One step takes the oldest input, or the engine's turn. -/
theorem step_cases (s : State) :
    (s.inputs = [] ∧ step s = engineTurn s) ∨
    (∃ e es, s.inputs = e :: es ∧ step s = takeInput e { s with inputs := es }) := by
  unfold step
  cases h : s.inputs <;> simp

end Sys2Proof.Machine
end

