-- ==== Sys2Proof/Laws/Exec.lean ====
section
/-! SUPPORT. What every command can do, said once: an error, or a success with the destinations of its kind written. -/

namespace Sys2Proof.Machine

/-- A command other than the ones below succeeds by writing its scalar destination, or not at all. -/
def WritesScalar (i : Instr) (s : State) : Prop :=
  ∃ rd v, scalarDest i = some rd ∧ takesDraws i = false ∧ (s.Inv → v < 2 ^ s.build.w) ∧
    exec i s = succeed false (s.setS rd v)

/-- PPUT, XADD, XDBL: one point register is written and INF is 0. -/
def WritesPoint (i : Instr) (s : State) : Prop :=
  ∃ rd pt, ((∃ c ra, i = .pput rd c ra) ∨ (∃ p q d, i = .xadd rd p q d) ∨ (∃ p, i = .xdbl rd p)) ∧
    (s.Inv → ∀ c : Coord, pt.coord c < 2 ^ s.build.w) ∧
    exec i s = succeed false (s.setPR rd pt)

/-- RECOV, SMUL: an affine point is written and INF says whether it is O. -/
def WritesAffine (i : Instr) (s : State) : Prop :=
  ∃ (rd : PReg) (pt : Affine), ((∃ b k k1, i = .recov rd b k k1) ∨ (∃ ra b, i = .smul rd ra b)) ∧
    (s.Inv → ∀ c : Coord, pt.toPoint.coord c < 2 ^ s.build.w) ∧
    exec i s = succeed pt.isIdentity (s.setPR rd pt.toPoint)

/-- LADDER: two different point registers are written. -/
def WritesLadder (i : Instr) (s : State) : Prop :=
  ∃ rd re ra b x, i = .ladder rd re ra b ∧ rd ≠ re ∧ 2 ≤ s.cfg.p ∧ x < s.cfg.p ∧
    exec i s = succeed false ((s.setPR rd (ladder s.cfg.p s.coeffA24 (s.getS ra) x).1.toPoint).setPR re
      (ladder s.cfg.p s.coeffA24 (s.getS ra) x).2.toPoint)

/-- FRAND: one draw is taken and written. -/
def WritesDraw (i : Instr) (s : State) : Prop :=
  ∃ m rd, i = .frand m rd ∧ 2 ≤ s.fieldMod m ∧
    exec i s = succeed false (s.afterAnswer.setS rd (s.draw (s.fieldMod m)))

/-- PRAND, PCSET, PSDEG: a bank of the build is written. -/
def WritesBank (i : Instr) (s : State) : Prop :=
  (∃ m b ra, i = .prand m b ra ∧ b.val < s.build.nPoly ∧ 2 ≤ s.scalarMod m ∧ s.getS ra ≤ s.build.tMax ∧
    exec i s = succeed false ((State.draws (s.scalarMod m) (s.getS ra + 1) s).2.setBank b (s.getS ra)
      (State.draws (s.scalarMod m) (s.getS ra + 1) s).1)) ∨
  (∃ m b ra rb, i = .pcset m b ra rb ∧ b.val < s.build.nPoly ∧ 2 ≤ s.scalarMod m ∧ s.getS ra ≤ s.getDeg b ∧
    exec i s = succeed false (s.setCoeff b (s.getS ra) (s.getS rb % s.scalarMod m))) ∨
  (∃ b ra, i = .psdeg b ra ∧ b.val < s.build.nPoly ∧ s.getS ra ≤ s.build.tMax ∧
    exec i s = succeed false ((s.setDeg b (s.getS ra)).setCoeffs b (s.getS ra + 1)
      (List.replicate (s.build.tMax - s.getS ra) 0)))

/-- The state of a sharing before the shares are written: the bank filled with n/2 draws. -/
def State.shareBank (s : State) (b : Bank) (n M : Nat) : State :=
  (State.draws M (n / 2 - 1 + 1) s).2.setBank b (n / 2 - 1) (State.draws M (n / 2 - 1 + 1) s).1

/-- SHARE: a bank of the build, the shares and their count are written. -/
def WritesShares (i : Instr) (s : State) : Prop :=
  ∃ m b ra, i = .share m b ra ∧ b.val < s.build.nPoly ∧ s.getS ra % 2 = 0 ∧ 2 ≤ s.getS ra ∧
    s.getS ra ≤ s.build.nMax ∧ s.getS ra < s.scalarMod m ∧
    exec i s = succeed false ((s.shareBank b (s.getS ra) (s.scalarMod m)).setShares (s.getS ra)
      ((s.shareBank b (s.getS ra) (s.scalarMod m)).shareValues b (s.getS ra) (s.scalarMod m)))

theorem recover_error {P A x y : Nat} {q r : XZ} {e : ECode} (h : recover P A x y q r = .error e) : e ≠ .none := by
  rcases recover_cases P A x y q r with ⟨-, hc⟩ | ⟨-, -, hc⟩ | ⟨-, -, -, hc⟩ | ⟨-, -, -, -, hc⟩ | ⟨-, -, -, -, hc⟩ <;>
    rw [hc] at h <;> cases h <;> simp

theorem readAff_finite {s : State} {src : PSrc} {x y : Nat} (hp : 0 < s.cfg.p)
    (h : s.readAff src = some (.finite x y)) : x < s.cfg.p ∧ y < s.cfg.p := by
  simp only [State.readAff] at h
  split_ifs at h <;> simp only [Option.some.injEq, Affine.finite.injEq, reduceCtorEq] at h
  exact ⟨h.1 ▸ Nat.mod_lt _ hp, h.2 ▸ Nat.mod_lt _ hp⟩

theorem pointSource_fit {s : State} (h : s.Inv) (src : PSrc) (c : Coord) :
    (s.pointSource src).coord c < 2 ^ s.build.w := by
  have h1 : 1 < 2 ^ s.build.w := lt_of_lt_of_le (by norm_num) (Valid.two_pow_ge h.build)
  rcases src with r | gen
  · exact h.values.points r c
  · cases gen <;> cases c
    exacts [h.values.config .gx, h.values.config .gy, h1, h.values.config .hx, h.values.config .hy, h1,
      h.values.config .kx, h.values.config .ky, h1]

/-- Every result of the curve functions is reduced. -/
theorem xADD_lt {P : Nat} (hp : 0 < P) (a b d : XZ) : (xADD P a b d).x < P ∧ (xADD P a b d).z < P :=
  ⟨by simp only [xADD]; exact modZ_lt _ hp, by simp only [xADD]; exact modZ_lt _ hp⟩

theorem xDBL_lt {P : Nat} (hp : 0 < P) (A24 : Nat) (a : XZ) : (xDBL P A24 a).x < P ∧ (xDBL P A24 a).z < P :=
  ⟨by simp only [xDBL]; exact modZ_lt _ hp, by simp only [xDBL]; exact modZ_lt _ hp⟩

theorem XZ.toPoint_lt {P : Nat} (hp : 0 < P) {a : XZ} (h : a.x < P ∧ a.z < P) (c : Coord) : a.toPoint.coord c < P := by
  cases c
  exacts [h.1, hp, h.2]

theorem ladderLoop_lt {P : Nat} (hp : 0 < P) (A24 : Nat) (D : XZ) (k n : Nat) (l : XZ × XZ)
    (h : (l.1.x < P ∧ l.1.z < P) ∧ l.2.x < P ∧ l.2.z < P) :
    ((ladderLoop P A24 D k n l).1.x < P ∧ (ladderLoop P A24 D k n l).1.z < P) ∧
      (ladderLoop P A24 D k n l).2.x < P ∧ (ladderLoop P A24 D k n l).2.z < P := by
  induction n generalizing l with
  | zero => exact h
  | succ n ih =>
    apply ih
    unfold ladderStep
    split
    · exact ⟨xADD_lt hp _ _ _, xDBL_lt hp _ _⟩
    · exact ⟨xDBL_lt hp _ _, xADD_lt hp _ _ _⟩

theorem ladder_lt {P x : Nat} (hp : 2 ≤ P) (hx : x < P) (A24 k : Nat) :
    ((ladder P A24 k x).1.x < P ∧ (ladder P A24 k x).1.z < P) ∧
      (ladder P A24 k x).2.x < P ∧ (ladder P A24 k x).2.z < P :=
  ladderLoop_lt (by omega) _ _ _ _ _ ⟨⟨by simp; omega, by simp; omega⟩, hx, by simp; omega⟩

/-- A recovered point has reduced coordinates, or is the base's x and a reduced y. -/
theorem recover_lt {P A x y : Nat} {q r : XZ} {pt : Affine} (hp : 2 ≤ P) (hx : x < P)
    (h : recover P A x y q r = .ok pt) (c : Coord) : pt.toPoint.coord c < P := by
  have hp0 : 0 < P := by omega
  rcases recover_cases P A x y q r with ⟨-, hc⟩ | ⟨-, -, hc⟩ | ⟨-, -, -, hc⟩ | ⟨-, -, -, -, hc⟩ | ⟨-, -, -, -, hc⟩ <;>
    rw [hc] at h <;> cases h <;> cases c
  all_goals first
    | exact hx
    | exact modZ_lt _ hp0
    | exact Nat.mod_lt _ hp0
    | simp only [Affine.toPoint, Point.coord]; omega

/-- Everything a command can do. -/
theorem exec_cases (i : Instr) (s : State) :
    (∃ e, e ≠ ECode.none ∧ exec i s = raiseError e s) ∨ (i = .nop ∧ exec i s = succeed false s) ∨
    WritesScalar i s ∨ WritesPoint i s ∨ WritesAffine i s ∨ WritesLadder i s ∨ WritesDraw i s ∨ WritesBank i s ∨
    WritesShares i s := by
  have cfgLt : ∀ c : CfgReg, s.Inv → s.cfg.get c < 2 ^ s.build.w := fun c h => h.values.config c
  have pLt : ∀ v, v < s.cfg.p → s.Inv → v < 2 ^ s.build.w :=
    fun v h1 h2 => lt_trans h1 (cfgLt .p h2)
  have modLt : ∀ m v, v < s.fieldMod m → s.Inv → v < 2 ^ s.build.w := by
    intro m v h1 h2
    cases m
    · exact lt_trans h1 (cfgLt .p h2)
    · exact lt_trans h1 (cfgLt .q h2)
    · exact lt_trans h1 (cfgLt .r h2)
  have smodLt : ∀ m v, v < s.scalarMod m → s.Inv → v < 2 ^ s.build.w := by
    intro m v h1 h2
    cases m
    · exact lt_trans h1 (cfgLt .q h2)
    · exact lt_trans h1 (cfgLt .r h2)
  have small : ∀ v, v < 2 ^ 32 → s.Inv → v < 2 ^ s.build.w :=
    fun v h1 h2 => lt_of_lt_of_le h1 (Valid.two_pow_ge h2.build)
  have err : ∀ e, e ≠ ECode.none → exec i s = raiseError e s →
      ∃ e, e ≠ ECode.none ∧ exec i s = raiseError e s := fun e h1 h2 => ⟨e, h1, h2⟩
  cases i with
  | nop => exact .inr (.inl ⟨rfl, rfl⟩)
  | fadd m rd ra rb =>
    by_cases h : s.fieldMod m < 2
    · exact .inl (err .param (by simp) (by simp [exec, execFadd, fieldBinary, h]))
    · exact .inr (.inr (.inl ⟨rd, _, rfl, rfl, modLt m _ (Nat.mod_lt _ (by omega)),
        by simp only [exec, execFadd, fieldBinary, h, if_false]; rfl⟩))
  | fsub m rd ra rb =>
    by_cases h : s.fieldMod m < 2
    · exact .inl (err .param (by simp) (by simp [exec, execFsub, fieldBinary, h]))
    · exact .inr (.inr (.inl ⟨rd, _, rfl, rfl, modLt m _ (modZ_lt _ (by omega)),
        by simp only [exec, execFsub, fieldBinary, h, if_false]; rfl⟩))
  | fmul m rd ra rb =>
    by_cases h : s.fieldMod m < 2
    · exact .inl (err .param (by simp) (by simp [exec, execFmul, fieldBinary, h]))
    · exact .inr (.inr (.inl ⟨rd, _, rfl, rfl, modLt m _ (Nat.mod_lt _ (by omega)),
        by simp only [exec, execFmul, fieldBinary, h, if_false]; rfl⟩))
  | finv m rd ra =>
    by_cases h : s.fieldMod m < 2
    · exact .inl (err .param (by simp) (by simp [exec, execFinv, h]))
    · by_cases hg : Nat.gcd (s.getS ra % s.fieldMod m) (s.fieldMod m) = 1
      · exact .inr (.inr (.inl ⟨rd, invMod (s.getS ra % s.fieldMod m) (s.fieldMod m), rfl, rfl,
          modLt m _ (invMod_lt _ (by omega)), by simp only [exec, execFinv, h, if_false, ne_eq, hg, not_true]⟩))
      · exact .inl (err .notInvertible (by simp)
          (by simp only [exec, execFinv, h, if_false, ne_eq, hg, not_false_eq_true, if_true]))
  | fexp m rd ra rb =>
    by_cases h : s.fieldMod m < 2
    · exact .inl (err .param (by simp) (by simp [exec, execFexp, h]))
    · exact .inr (.inr (.inl ⟨rd, powMod (s.getS ra % s.fieldMod m) (s.getS rb) (s.fieldMod m), rfl, rfl,
        modLt m _ (by rw [powMod_eq]; exact Nat.mod_lt _ (by omega)),
        by simp only [exec, execFexp, h, if_false]⟩))
  | frand m rd =>
    by_cases h : s.fieldMod m < 2
    · exact .inl (err .param (by simp) (by simp [exec, execFrand, h]))
    · exact .inr (.inr (.inr (.inr (.inr (.inr (.inl
        ⟨m, rd, rfl, by omega, by simp only [exec, execFrand, h, if_false]⟩))))))
  | mov rd ra => exact .inr (.inr (.inl ⟨rd, _, rfl, rfl, fun h => h.values.scalars ra, rfl⟩))
  | ldi rd imm =>
    exact .inr (.inr (.inl ⟨rd, _, rfl, rfl, fun h => small _ (by have := imm.isLt; omega) h, rfl⟩))
  | pget rd src c => exact .inr (.inr (.inl ⟨rd, _, rfl, rfl, fun h => pointSource_fit h src c, rfl⟩))
  | pput rd c ra => exact .inr (.inr (.inr (.inl ⟨rd, _, .inl ⟨c, ra, rfl⟩,
    fun h d => by
      by_cases hd : d = c
      · rw [hd, Point.coord_withCoord_same]; exact h.values.scalars ra
      · rw [Point.coord_withCoord_ne _ _ hd]; exact h.values.points rd d, rfl⟩)))
  | xadd rd p q d =>
    simp only [exec, execXadd] at err ⊢
    split_ifs at err ⊢
    all_goals first | exact .inl (err _ (by simp) rfl) | skip
    exact .inr (.inr (.inr (.inl ⟨rd, (xADD s.cfg.p (s.readXZ p) (s.readXZ q) (s.readXZ d)).toPoint, .inr (.inl ⟨p, q, d, rfl⟩),
      fun h c => pLt _ (XZ.toPoint_lt (by omega) (xADD_lt (by omega) _ _ _) c) h, by simp only [exec, execXadd, *, if_false]; rfl⟩)))
  | xdbl rd p =>
    simp only [exec, execXdbl] at err ⊢
    split_ifs at err ⊢
    all_goals first | exact .inl (err _ (by simp) rfl) | skip
    exact .inr (.inr (.inr (.inl ⟨rd, (xDBL s.cfg.p s.coeffA24 (s.readXZ p)).toPoint, .inr (.inr ⟨p, rfl⟩),
      fun h c => pLt _ (XZ.toPoint_lt (by omega) (xDBL_lt (by omega) _ _) c) h, by simp only [exec, execXdbl, *, if_false]; rfl⟩)))
  | ladder rd re ra base =>
    by_cases hne : rd = re
    · exact .inl (err .illegal (by simp) (by simp [exec, execLadder, hne]))
    by_cases hp : s.cfg.p < 2
    · exact .inl (err .param (by simp) (by simp [exec, execLadder, hne, hp]))
    cases ha : s.readAff base with
    | none => exact .inl (err .param (by simp) (by simp [exec, execLadder, hne, hp, ha]))
    | some pt =>
      cases pt with
      | identity => exact .inl (err .degenerate (by simp) (by simp [exec, execLadder, hne, hp, ha]))
      | finite x y =>
        by_cases hx : x = 0
        · exact .inl (err .degenerate (by simp) (by simp [exec, execLadder, hne, hp, ha, hx]))
        · by_cases hl : ((ladder s.cfg.p s.coeffA24 (s.getS ra) x).1.isNull ||
              (ladder s.cfg.p s.coeffA24 (s.getS ra) x).2.isNull) = true
          · exact .inl (err .degenerate (by simp) (by simp only [exec, execLadder, hne, hp, ha, hx, hl, if_false, if_true]))
          · exact .inr (.inr (.inr (.inr (.inr (.inl ⟨rd, re, ra, base, x, rfl, hne, by omega,
              (readAff_finite (by omega) ha).1,
              by simp only [exec, execLadder, hne, hp, ha, hx, hl, Bool.false_eq_true, if_false]⟩)))))
  | recov rd base k k1 =>
    by_cases hp : s.cfg.p < 2
    · exact .inl (err .param (by simp) (by simp [exec, execRecov, hp]))
    cases ha : s.readAff base with
    | none => exact .inl (err .param (by simp) (by simp [exec, execRecov, hp, ha]))
    | some pt =>
      cases pt with
      | identity => exact .inl (err .degenerate (by simp) (by simp [exec, execRecov, hp, ha]))
      | finite x y =>
        by_cases hl : ((s.readXZ k).isNull || (s.readXZ k1).isNull) = true
        · exact .inl (err .degenerate (by simp) (by simp only [exec, execRecov, hp, ha, hl, if_false, if_true]))
        · cases hr : recover s.cfg.p s.coeffA x y (s.readXZ k) (s.readXZ k1) with
          | error e =>
            exact .inl (err e (recover_error hr) (by simp only [exec, execRecov, hp, ha, hl, Bool.false_eq_true, if_false, hr, finishAffine]))
          | ok pt =>
            exact .inr (.inr (.inr (.inr (.inl ⟨rd, pt, .inl ⟨base, k, k1, rfl⟩,
              fun h c => pLt _ (recover_lt (by omega) (readAff_finite (by omega) ha).1 hr c) h,
              by simp only [exec, execRecov, hp, ha, hl, Bool.false_eq_true, if_false, hr, finishAffine]⟩))))
  | smul rd ra base =>
    by_cases hp : s.cfg.p < 2
    · exact .inl (err .param (by simp) (by simp [exec, execSmul, hp]))
    cases ha : s.readAff base with
    | none => exact .inl (err .param (by simp) (by simp [exec, execSmul, hp, ha]))
    | some pt =>
      cases pt with
      | identity =>
        exact .inr (.inr (.inr (.inr (.inl ⟨rd, .identity, .inr ⟨ra, base, rfl⟩,
          fun h c => small _ (by cases c <;> simp [Affine.toPoint, Point.coord]) h,
          by simp only [exec, execSmul, hp, ha, if_false, finishAffine]⟩))))
      | finite x y =>
        by_cases hx : x = 0
        · exact .inl (err .degenerate (by simp) (by simp [exec, execSmul, hp, ha, hx]))
        by_cases hl : ((ladder s.cfg.p s.coeffA24 (s.getS ra) x).1.isNull ||
            (ladder s.cfg.p s.coeffA24 (s.getS ra) x).2.isNull) = true
        · exact .inl (err .degenerate (by simp) (by simp only [exec, execSmul, hp, ha, hx, hl, if_false, if_true]))
        · cases hr : recover s.cfg.p s.coeffA x y (ladder s.cfg.p s.coeffA24 (s.getS ra) x).1
              (ladder s.cfg.p s.coeffA24 (s.getS ra) x).2 with
          | error e =>
            exact .inl (err e (recover_error hr) (by simp only [exec, execSmul, hp, ha, hx, hl, Bool.false_eq_true, if_false, hr, finishAffine]))
          | ok pt =>
            exact .inr (.inr (.inr (.inr (.inl ⟨rd, pt, .inr ⟨ra, base, rfl⟩,
              fun h c => pLt _ (recover_lt (by omega) (readAff_finite (by omega) ha).1 hr c) h,
              by simp only [exec, execSmul, hp, ha, hx, hl, Bool.false_eq_true, if_false, hr, finishAffine]⟩))))
  | prand m b ra =>
    by_cases hb : s.bankOk b = false
    · exact .inl (err .illegal (by simp) (by simp [exec, execPrand, hb]))
    by_cases h : s.scalarMod m < 2
    · exact .inl (err .param (by simp) (by simp [exec, execPrand, hb, h]))
    by_cases ht : s.build.tMax < s.getS ra
    · exact .inl (err .param (by simp) (by simp [exec, execPrand, hb, h, ht]))
    · exact .inr (.inr (.inr (.inr (.inr (.inr (.inr (.inl (.inl ⟨m, b, ra, rfl,
        by simpa [State.bankOk] using hb, by omega, by omega,
        by simp only [exec, execPrand, hb, h, ht, Bool.true_eq_false, if_false]⟩))))))))
  | peval m rd b ra =>
    by_cases hb : s.bankOk b = false
    · exact .inl (err .illegal (by simp) (by simp [exec, execPeval, hb]))
    by_cases h : s.scalarMod m < 2
    · exact .inl (err .param (by simp) (by simp [exec, execPeval, hb, h]))
    · exact .inr (.inr (.inl ⟨rd, _, rfl, rfl, smodLt m _ (State.evalBank_lt _ _ _ (by omega)),
        by simp only [exec, execPeval, hb, h, Bool.true_eq_false, if_false]; rfl⟩))
  | pcget rd b ra =>
    by_cases hb : s.bankOk b = false
    · exact .inl (err .illegal (by simp) (by simp [exec, execPcget, hb]))
    by_cases h : s.getDeg b < s.getS ra
    · exact .inl (err .param (by simp) (by simp [exec, execPcget, hb, h]))
    · exact .inr (.inr (.inl ⟨rd, _, rfl, rfl, fun h => State.coeff_lt h.build _ _,
        by simp only [exec, execPcget, hb, h, Bool.true_eq_false, if_false]; rfl⟩))
  | pcset m b ra rb =>
    by_cases hb : s.bankOk b = false
    · exact .inl (err .illegal (by simp) (by simp [exec, execPcset, hb]))
    by_cases h : s.scalarMod m < 2
    · exact .inl (err .param (by simp) (by simp [exec, execPcset, hb, h]))
    by_cases ht : s.getDeg b < s.getS ra
    · exact .inl (err .param (by simp) (by simp [exec, execPcset, hb, h, ht]))
    · exact .inr (.inr (.inr (.inr (.inr (.inr (.inr (.inl (.inr (.inl ⟨m, b, ra, rb, rfl,
        by simpa [State.bankOk] using hb, by omega, by omega,
        by simp only [exec, execPcset, hb, h, ht, Bool.true_eq_false, if_false]⟩)))))))))
  | psdeg b ra =>
    by_cases hb : s.bankOk b = false
    · exact .inl (err .illegal (by simp) (by simp [exec, execPsdeg, hb]))
    by_cases ht : s.build.tMax < s.getS ra
    · exact .inl (err .param (by simp) (by simp [exec, execPsdeg, hb, ht]))
    · exact .inr (.inr (.inr (.inr (.inr (.inr (.inr (.inl (.inr (.inr ⟨b, ra, rfl,
        by simpa [State.bankOk] using hb, by omega,
        by simp only [exec, execPsdeg, hb, ht, Bool.true_eq_false, if_false]⟩)))))))))
  | pgdeg rd b =>
    by_cases hb : s.bankOk b = false
    · exact .inl (err .illegal (by simp) (by simp [exec, execPgdeg, hb]))
    · exact .inr (.inr (.inl ⟨rd, s.getDeg b, rfl, rfl,
        fun h => small _ (by have := h.banks.degLe b; have := h.build.2.1; omega) h,
        by simp only [exec, execPgdeg, hb, Bool.true_eq_false, if_false]⟩))
  | share m b ra =>
    by_cases hb : s.bankOk b = false
    · exact .inl (err .illegal (by simp) (by simp [exec, execShare, hb]))
    by_cases h : s.scalarMod m < 2
    · exact .inl (err .param (by simp) (by simp [exec, execShare, hb, h]))
    by_cases h1 : s.getS ra % 2 = 1
    · exact .inl (err .param (by simp) (by simp [exec, execShare, hb, h, h1]))
    by_cases h2 : s.getS ra < 2
    · exact .inl (err .param (by simp) (by simp [exec, execShare, hb, h, h1, h2]))
    by_cases h3 : s.build.nMax < s.getS ra
    · exact .inl (err .param (by simp) (by simp [exec, execShare, hb, h, h1, h2, h3]))
    by_cases h4 : s.scalarMod m ≤ s.getS ra
    · exact .inl (err .param (by simp) (by simp [exec, execShare, hb, h, h1, h2, h3, h4]))
    · exact .inr (.inr (.inr (.inr (.inr (.inr (.inr (.inr ⟨m, b, ra, rfl,
        by simpa [State.bankOk] using hb, by omega, by omega, by omega, by omega,
        by simp only [exec, execShare, hb, h, h1, h2, h3, h4, Bool.true_eq_false, if_false, State.shareBank]⟩)))))))
  | sget rd ra =>
    by_cases h : s.getS ra < 1 ∨ s.shareN < s.getS ra
    · exact .inl (err .param (by simp) (by simp only [exec, execSget, h, if_true]))
    · exact .inr (.inr (.inl ⟨rd, _, rfl, rfl, fun h => State.shm_lt h.build _,
        by simp only [exec, execSget, h, if_false]; rfl⟩))

end Sys2Proof.Machine
end

