-- ==== Sys2Proof/Laws/PerInstr.lean ====
section
/-! SUPPORT. The family FieldsRoundTrip: the fields of a command's word are the command's fields, one lemma per
constructor. -/

namespace Sys2Proof.Laws

theorem zero4 : (0 : Nat) < 4 := by decide
theorem zero16 : (0 : Nat) < 16 := by decide
theorem zero256 : (0 : Nat) < 256 := by decide

end Sys2Proof.Laws

namespace Sys2Proof.Laws.FieldsRoundTrip

/-- No field of the command overlaps another or leaves its bits of the word (30_encoding.md R91). -/
def Statement (i : Instr) : Prop := fieldsOf (encode i) = i.fields

theorem nop : Statement .nop :=
  fieldsOf_pack ⟨(by decide : (0x00 : Nat) < 64), zero4, zero16, zero16, zero16, zero16, zero256⟩

theorem fadd (m : FieldMod) (rd ra rb : SReg) : Statement (.fadd m rd ra rb) :=
  fieldsOf_pack ⟨(by decide : (0x01 : Nat) < 64), (FieldMod.code_lt m), rd.isLt, ra.isLt, rb.isLt, zero16, zero256⟩

theorem fsub (m : FieldMod) (rd ra rb : SReg) : Statement (.fsub m rd ra rb) :=
  fieldsOf_pack ⟨(by decide : (0x02 : Nat) < 64), (FieldMod.code_lt m), rd.isLt, ra.isLt, rb.isLt, zero16, zero256⟩

theorem fmul (m : FieldMod) (rd ra rb : SReg) : Statement (.fmul m rd ra rb) :=
  fieldsOf_pack ⟨(by decide : (0x03 : Nat) < 64), (FieldMod.code_lt m), rd.isLt, ra.isLt, rb.isLt, zero16, zero256⟩

theorem finv (m : FieldMod) (rd ra : SReg) : Statement (.finv m rd ra) :=
  fieldsOf_pack ⟨(by decide : (0x04 : Nat) < 64), (FieldMod.code_lt m), rd.isLt, ra.isLt, zero16, zero16, zero256⟩

theorem fexp (m : FieldMod) (rd ra rb : SReg) : Statement (.fexp m rd ra rb) :=
  fieldsOf_pack ⟨(by decide : (0x05 : Nat) < 64), (FieldMod.code_lt m), rd.isLt, ra.isLt, rb.isLt, zero16, zero256⟩

theorem frand (m : FieldMod) (rd : SReg) : Statement (.frand m rd) :=
  fieldsOf_pack ⟨(by decide : (0x06 : Nat) < 64), (FieldMod.code_lt m), rd.isLt, zero16, zero16, zero16, zero256⟩

theorem mov (rd ra : SReg) : Statement (.mov rd ra) :=
  fieldsOf_pack ⟨(by decide : (0x08 : Nat) < 64), zero4, rd.isLt, ra.isLt, zero16, zero16, zero256⟩

theorem ldi (rd : SReg) (imm : Byte) : Statement (.ldi rd imm) :=
  fieldsOf_pack ⟨(by decide : (0x09 : Nat) < 64), zero4, rd.isLt, zero16, zero16, zero16, imm.isLt⟩

theorem pget (rd : SReg) (src : PSrc) (c : Coord) : Statement (.pget rd src c) :=
  fieldsOf_pack ⟨(by decide : (0x0A : Nat) < 64), zero4, rd.isLt, (PSrc.code_lt src), zero16, zero16, (Coord.code_lt c)⟩

theorem pput (rd : PReg) (c : Coord) (ra : SReg) : Statement (.pput rd c ra) :=
  fieldsOf_pack ⟨(by decide : (0x0B : Nat) < 64), zero4, (rd.isLt.trans (by decide : 8 < 16)), ra.isLt, zero16, zero16, (Coord.code_lt c)⟩

theorem xadd (rd : PReg) (srcP srcQ srcDiff : PSrc) : Statement (.xadd rd srcP srcQ srcDiff) :=
  fieldsOf_pack ⟨(by decide : (0x10 : Nat) < 64), zero4, (rd.isLt.trans (by decide : 8 < 16)), (PSrc.code_lt srcP), (PSrc.code_lt srcQ), (PSrc.code_lt srcDiff), zero256⟩

theorem xdbl (rd : PReg) (src : PSrc) : Statement (.xdbl rd src) :=
  fieldsOf_pack ⟨(by decide : (0x11 : Nat) < 64), zero4, (rd.isLt.trans (by decide : 8 < 16)), (PSrc.code_lt src), zero16, zero16, zero256⟩

theorem ladder (rd re : PReg) (ra : SReg) (base : PSrc) : Statement (.ladder rd re ra base) :=
  fieldsOf_pack ⟨(by decide : (0x12 : Nat) < 64), zero4, (rd.isLt.trans (by decide : 8 < 16)), ra.isLt, (PSrc.code_lt base), (re.isLt.trans (by decide : 8 < 16)), zero256⟩

theorem recov (rd : PReg) (base srcK srcK1 : PSrc) : Statement (.recov rd base srcK srcK1) :=
  fieldsOf_pack ⟨(by decide : (0x13 : Nat) < 64), zero4, (rd.isLt.trans (by decide : 8 < 16)), (PSrc.code_lt base), (PSrc.code_lt srcK), (PSrc.code_lt srcK1), zero256⟩

theorem smul (rd : PReg) (ra : SReg) (base : PSrc) : Statement (.smul rd ra base) :=
  fieldsOf_pack ⟨(by decide : (0x14 : Nat) < 64), zero4, (rd.isLt.trans (by decide : 8 < 16)), ra.isLt, (PSrc.code_lt base), zero16, zero256⟩

theorem prand (m : ScalarMod) (b : Bank) (ra : SReg) : Statement (.prand m b ra) :=
  fieldsOf_pack ⟨(by decide : (0x20 : Nat) < 64), (ScalarMod.code_lt m), zero16, ra.isLt, zero16, b.isLt, zero256⟩

theorem peval (m : ScalarMod) (rd : SReg) (b : Bank) (ra : SReg) : Statement (.peval m rd b ra) :=
  fieldsOf_pack ⟨(by decide : (0x21 : Nat) < 64), (ScalarMod.code_lt m), rd.isLt, ra.isLt, zero16, b.isLt, zero256⟩

theorem pcget (rd : SReg) (b : Bank) (ra : SReg) : Statement (.pcget rd b ra) :=
  fieldsOf_pack ⟨(by decide : (0x22 : Nat) < 64), zero4, rd.isLt, ra.isLt, zero16, b.isLt, zero256⟩

theorem pcset (m : ScalarMod) (b : Bank) (ra rb : SReg) : Statement (.pcset m b ra rb) :=
  fieldsOf_pack ⟨(by decide : (0x23 : Nat) < 64), (ScalarMod.code_lt m), zero16, ra.isLt, rb.isLt, b.isLt, zero256⟩

theorem psdeg (b : Bank) (ra : SReg) : Statement (.psdeg b ra) :=
  fieldsOf_pack ⟨(by decide : (0x24 : Nat) < 64), zero4, zero16, ra.isLt, zero16, b.isLt, zero256⟩

theorem pgdeg (rd : SReg) (b : Bank) : Statement (.pgdeg rd b) :=
  fieldsOf_pack ⟨(by decide : (0x25 : Nat) < 64), zero4, rd.isLt, zero16, zero16, b.isLt, zero256⟩

theorem share (m : ScalarMod) (b : Bank) (ra : SReg) : Statement (.share m b ra) :=
  fieldsOf_pack ⟨(by decide : (0x28 : Nat) < 64), (ScalarMod.code_lt m), zero16, ra.isLt, zero16, b.isLt, zero256⟩

theorem sget (rd ra : SReg) : Statement (.sget rd ra) :=
  fieldsOf_pack ⟨(by decide : (0x29 : Nat) < 64), zero4, rd.isLt, ra.isLt, zero16, zero16, zero256⟩

end Sys2Proof.Laws.FieldsRoundTrip
end

