-- ==== Sys2Proof/Machine/Asm.lean ====
section
/-! DEFINITION. The assembler syntax of 30_encoding.md R100, R101 and R102: from the characters of one line to its
commands. R100 leaves points of the notation open. DESIGN CHOICES: blanks around a mnemonic and an operand are ignored,
none may stand inside one (assumption log 24); the whole line is case-insensitive (log 25); a register number may have
leading zeros (log 26); a suffix that is no modulus of the command is no line of the syntax (log 27), nor is an
immediate above 255 (log 28). -/

namespace Sys2Proof.Machine.Asm

/-- a to z read as A to Z. R100 says so of mnemonics and register names; `pieces` reads the whole line so. -/
def upper (c : Char) : Char := if 97 ≤ c.toNat ∧ c.toNat ≤ 122 then Char.ofNat (c.toNat - 32) else c

/-- A blank, or a tab. -/
def isBlank (c : Char) : Bool := c.toNat == 32 || c.toNat == 9

/-- The characters before a comment (30_encoding.md R100). -/
def uncomment : List Char → List Char
  | [] => []
  | c :: cs => if c = ';' then [] else c :: uncomment cs

/-- Leading blanks dropped. -/
def trimLeft : List Char → List Char
  | [] => []
  | c :: cs => if isBlank c then trimLeft cs else c :: cs

/-- Blanks dropped at both ends. -/
def trim (cs : List Char) : List Char := (trimLeft (trimLeft cs).reverse).reverse

/-- The pieces of a text between separators. -/
def splitOn (p : Char → Bool) : List Char → List (List Char)
  | [] => [[]]
  | c :: cs =>
    match splitOn p cs with
    | [] => [[c]]
    | w :: ws => if p c then [] :: w :: ws else (c :: w) :: ws

/-- The value of a digit in base 16; letters are capitals by now. -/
def digit (c : Char) : Option Nat :=
  if 48 ≤ c.toNat ∧ c.toNat ≤ 57 then some (c.toNat - 48)
  else if 65 ≤ c.toNat ∧ c.toNat ≤ 70 then some (c.toNat - 55)
  else none

/-- The digits of a number, most significant first; leading zeros are allowed (for a register number DESIGN CHOICE,
assumption log 26). -/
def digits (base : Nat) : List Char → Nat → Option Nat
  | [], acc => some acc
  | c :: cs, acc =>
    match digit c with
    | some d => if d < base then digits base cs (acc * base + d) else none
    | none => none

/-- A number: decimal, or hexadecimal after 0x (30_encoding.md R100). The line is in capitals by now, so 0X and the hex
digits a to f are read too (DESIGN CHOICE, assumption log 25). -/
def number : List Char → Option Nat
  | [] => none
  | ['0', 'X'] => none
  | '0' :: 'X' :: cs => digits 16 cs 0
  | c :: cs => digits 10 (c :: cs) 0

/-- S0 to S15 (30_encoding.md R100). DESIGN CHOICE (assumption log 26): the number may have leading zeros, as S01. -/
def scalar : List Char → Option SReg
  | 'S' :: c :: cs => do
    let v ← digits 10 (c :: cs) 0
    if h : v < 16 then some ⟨v, h⟩ else none
  | _ => none

/-- PR0 to PR7 (R100). DESIGN CHOICE (assumption log 26): the number may have leading zeros, as PR007. -/
def pointReg : List Char → Option PReg
  | 'P' :: 'R' :: c :: cs => do
    let v ← digits 10 (c :: cs) 0
    if h : v < 8 then some ⟨v, h⟩ else none
  | _ => none

/-- A point source: PR0 to PR7, G, H or K. -/
def pointSrc : List Char → Option PSrc
  | ['G'] => some (.gen .g)
  | ['H'] => some (.gen .h)
  | ['K'] => some (.gen .k)
  | cs => (pointReg cs).map .reg

/-- B0 to B15 (R100). DESIGN CHOICE (assumption log 26): the number may have leading zeros, as B00. -/
def bank : List Char → Option Bank
  | 'B' :: c :: cs => do
    let v ← digits 10 (c :: cs) 0
    if h : v < 16 then some ⟨v, h⟩ else none
  | _ => none

/-- A coordinate suffix (R100), in either case (DESIGN CHOICE, assumption log 25). -/
def coord : List Char → Option Coord
  | ['X'] => some .x
  | ['Y'] => some .y
  | ['Z'] => some .z
  | _ => none

/-- A point operand with its coordinate suffix, as `G.Y`. -/
def withCoord (cs : List Char) : Option (List Char × Coord) :=
  match splitOn (· == '.') cs with
  | [pt, c] => (coord c).map fun k => (pt, k)
  | _ => none

/-- An 8-bit immediate. DESIGN CHOICE (assumption log 28): a number above 255 is rejected, not truncated. -/
def imm8 (cs : List Char) : Option Byte := do
  let v ← number cs
  if v < 256 then some (BitVec.ofNat 8 v) else none

/-- The modulus suffix of a field command (R100), in either case (DESIGN CHOICE, assumption log 25). -/
def fieldMod : List (List Char) → Option FieldMod
  | [['P']] => some .p
  | [['Q']] => some .q
  | [['R']] => some .r
  | _ => none

/-- The modulus suffix of a polynomial or Shamir command (R100). DESIGN CHOICE (assumption log 27): .P, whose word is
ILLEGAL, is rejected here, since no term of `Instr` stands for that word. -/
def scalarMod : List (List Char) → Option ScalarMod
  | [['Q']] => some .q
  | [['R']] => some .r
  | _ => none

/-- No suffix: a command with no m field rejects one (DESIGN CHOICE, assumption log 27). -/
def noMod : List (List Char) → Option Unit
  | [] => some ()
  | _ => none

/-- One command from its mnemonic, its suffixes and its operands (30_encoding.md R101). -/
def command (mn : List Char) (sfx ops : List (List Char)) : Option Instr :=
  match mn, ops with
  | ['N', 'O', 'P'], [] => do noMod sfx; return .nop
  | ['F', 'A', 'D', 'D'], [d, a, b] => do return .fadd (← fieldMod sfx) (← scalar d) (← scalar a) (← scalar b)
  | ['F', 'S', 'U', 'B'], [d, a, b] => do return .fsub (← fieldMod sfx) (← scalar d) (← scalar a) (← scalar b)
  | ['F', 'M', 'U', 'L'], [d, a, b] => do return .fmul (← fieldMod sfx) (← scalar d) (← scalar a) (← scalar b)
  | ['F', 'I', 'N', 'V'], [d, a] => do return .finv (← fieldMod sfx) (← scalar d) (← scalar a)
  | ['F', 'E', 'X', 'P'], [d, a, b] => do return .fexp (← fieldMod sfx) (← scalar d) (← scalar a) (← scalar b)
  | ['F', 'R', 'A', 'N', 'D'], [d] => do return .frand (← fieldMod sfx) (← scalar d)
  | ['M', 'O', 'V'], [d, a] => do noMod sfx; return .mov (← scalar d) (← scalar a)
  | ['L', 'D', 'I'], [d, v] => do noMod sfx; return .ldi (← scalar d) (← imm8 v)
  | ['P', 'G', 'E', 'T'], [d, src] => do
    noMod sfx
    let (pt, c) ← withCoord src
    return .pget (← scalar d) (← pointSrc pt) c
  | ['P', 'P', 'U', 'T'], [dst, a] => do
    noMod sfx
    let (pt, c) ← withCoord dst
    return .pput (← pointReg pt) c (← scalar a)
  | ['X', 'A', 'D', 'D'], [d, p, q, r] => do
    noMod sfx
    return .xadd (← pointReg d) (← pointSrc p) (← pointSrc q) (← pointSrc r)
  | ['X', 'D', 'B', 'L'], [d, src] => do noMod sfx; return .xdbl (← pointReg d) (← pointSrc src)
  | ['L', 'A', 'D', 'D', 'E', 'R'], [d, e, a, base] => do
    noMod sfx
    return .ladder (← pointReg d) (← pointReg e) (← scalar a) (← pointSrc base)
  | ['R', 'E', 'C', 'O', 'V'], [d, base, k, k1] => do
    noMod sfx
    return .recov (← pointReg d) (← pointSrc base) (← pointSrc k) (← pointSrc k1)
  | ['S', 'M', 'U', 'L'], [d, a, base] => do
    noMod sfx
    return .smul (← pointReg d) (← scalar a) (← pointSrc base)
  | ['P', 'R', 'A', 'N', 'D'], [c, a] => do return .prand (← scalarMod sfx) (← bank c) (← scalar a)
  | ['P', 'E', 'V', 'A', 'L'], [d, c, a] => do
    return .peval (← scalarMod sfx) (← scalar d) (← bank c) (← scalar a)
  | ['P', 'C', 'G', 'E', 'T'], [d, c, a] => do noMod sfx; return .pcget (← scalar d) (← bank c) (← scalar a)
  | ['P', 'C', 'S', 'E', 'T'], [c, a, b] => do
    return .pcset (← scalarMod sfx) (← bank c) (← scalar a) (← scalar b)
  | ['P', 'S', 'D', 'E', 'G'], [c, a] => do noMod sfx; return .psdeg (← bank c) (← scalar a)
  | ['P', 'G', 'D', 'E', 'G'], [d, c] => do noMod sfx; return .pgdeg (← scalar d) (← bank c)
  | ['S', 'H', 'A', 'R', 'E'], [c, a] => do return .share (← scalarMod sfx) (← bank c) (← scalar a)
  | ['S', 'G', 'E', 'T'], [d, a] => do noMod sfx; return .sget (← scalar d) (← scalar a)
  | _, _ => none

/-- One pseudo-instruction from its mnemonic, its suffixes and its operands (30_encoding.md R102). -/
def pseudo (mn : List Char) (sfx ops : List (List Char)) : Option Pseudo :=
  match mn, ops with
  | ['C', 'L', 'R'], [d] => do noMod sfx; return .clr (← scalar d)
  | ['F', 'S', 'Q', 'R'], [d, a] => do return .fsqr (← fieldMod sfx) (← scalar d) (← scalar a)
  | ['F', 'D', 'B', 'L'], [d, a] => do return .fdbl (← fieldMod sfx) (← scalar d) (← scalar a)
  | ['F', 'D', 'I', 'V'], [d, a, b] => do return .fdiv (← fieldMod sfx) (← scalar d) (← scalar a) (← scalar b)
  | ['P', 'O', 'I', 'N', 'T'], [d, x, y] => do noMod sfx; return .point (← pointReg d) (← scalar x) (← scalar y)
  | _, _ => none

/-- The mnemonic, its suffixes and its operands: the mnemonic and suffixes end at the first blank, the operands are
separated by commas. The whole line is read in capitals, where R100 calls only mnemonics and register names
case-insensitive (DESIGN CHOICE, assumption log 25). -/
def pieces (line : List Char) : List Char × List (List Char) × List (List Char) :=
  let cs := trim ((uncomment line).map upper)
  let head := cs.takeWhile fun c => !isBlank c
  let rest := trim (cs.dropWhile fun c => !isBlank c)
  let ops := if rest.isEmpty then [] else (splitOn (· == ',') rest).map trim
  match splitOn (· == '.') head with
  | [] => ([], [], ops)
  | mn :: sfx => (mn, sfx, ops)

/-- The commands of one line (30_encoding.md R100 to R102); none where it is no line of the syntax. -/
def assemble (line : List Char) : Option (List Instr) :=
  let l := pieces line
  match command l.1 l.2.1 l.2.2 with
  | some i => some [i]
  | none => (pseudo l.1 l.2.1 l.2.2).bind Pseudo.expand

end Sys2Proof.Machine.Asm
end

