-- ==== Sys2Proof/Machine/HostNotation.lean ====
section
/-! DEFINITION. The host program notation of 30_encoding.md R103: what a line does on the bus. The block has no control
flow; a program is the host's list of lines. When a command completes is open (70_reset_and_hazards.md R270), so every
line carries its own timing, any at all (DESIGN CHOICE, assumption log 29). -/

namespace Sys2Proof.Machine

/-- A line of a host program (30_encoding.md R103). -/
inductive HostLine where
  /-- `WR off, v`. -/
  | wr (off : Nat) (v : Word)
  /-- `RD off`. -/
  | rd (off : Nat)
  /-- `EXEC <command>`: the program stops if the command ends with ERR = 1. -/
  | exec (i : Instr)
  /-- `EXEC? <command>`: the program goes on after an error. -/
  | execAny (i : Instr)
deriving DecidableEq, Repr

/-- Where the engine takes its turns at a line: 70_reset_and_hazards.md R270 leaves the time of a completion open, and
that it is said line by line is the model's choice (DESIGN CHOICE, assumption log 29). -/
structure LineTiming where
  /-- Whether the engine takes its turn just before the line: what was in flight, or the initialisation, then ends before
  the line's first access. -/
  early : Bool
  /-- How many polls of STATUS in an `EXEC` find BUSY = 1. -/
  polls : Nat
deriving DecidableEq, Repr

/-- A host program, each line with its timing. -/
abbrev HostProgram := List (HostLine × LineTiming)

/-- `EXEC` as bus accesses: the command's word to CMD, `polls` reads of STATUS that find BUSY = 1, the command's
completion, and the read that finds BUSY = 0. The place of the completion is `polls`, any number (assumption log 29). -/
def execInputs (b : Build) (polls : Nat) (i : Instr) : List Input :=
  .write (b.base + 0x010) 4 (encode i) ::
    (List.replicate polls (.read (b.base + 0x00C) 4) ++ [.engine, .read (b.base + 0x00C) 4])

/-- The bus accesses of a line, with `polls` unsuccessful polls of STATUS in an `EXEC`. The engine's turn that a plain
`WR` of CMD waits for is not among them: it comes before a later line (`HostLine.inputs`; assumption log 29). -/
def HostLine.accesses (b : Build) (polls : Nat) : HostLine → List Input
  | .wr off v => [.write (b.base + off) 4 v]
  | .rd off => [.read (b.base + off) 4]
  | .exec i => execInputs b polls i
  | .execAny i => execInputs b polls i

/-- What happens on the bus and in the block at a line with the timing `τ` (assumption log 29). -/
def HostLine.inputs (b : Build) (l : HostLine) (τ : LineTiming) : List Input :=
  if τ.early then .engine :: l.accesses b τ.polls else l.accesses b τ.polls

/-- Inputs taken one after the other, to the first stop. -/
def takeInputs : List Input → State → Host.Outcome State Fault Refusal
  | [], s => .next s
  | e :: es, s =>
    match takeInput e s with
    | .next t => takeInputs es t
    | .fault r => .fault r
    | .refused r => .refused r

/-- Whether the program stops after a line: after an `EXEC` that ended with ERR = 1. -/
def HostLine.stops (l : HostLine) (t : State) : Bool :=
  match l with
  | .exec _ => t.status.err
  | .wr _ _ => false
  | .rd _ => false
  | .execAny _ => false

/-- A host program run line by line (30_encoding.md R103), each line with its own timing (DESIGN CHOICE, assumption
log 29). A command that a last plain `WR` of CMD started is in flight when the program ends. -/
def runLines : HostProgram → State → Host.Outcome State Fault Refusal
  | [], s => .next s
  | (l, τ) :: ls, s =>
    match takeInputs (l.inputs s.build τ) s with
    | .next t => if l.stops t then .next t else runLines ls t
    | .fault r => .fault r
    | .refused r => .refused r

end Sys2Proof.Machine
end

