-- ==== Sys2Proof/Tests/Slice0.lean ====
section
/-! SUPPORT. The model's own tests. Expected values are those of spec/95_test_vectors.md, or are worked by hand from the
rule the test cites; the witnesses at the end show for every statement that its hypotheses can be met. -/

namespace Sys2Proof.Tests

set_option Elab.async false

open Sys2Proof Sys2Proof.Machine

/-! ## Helpers -/

/-- The state a step or command answers; the state after reset where it stops. -/
def after (o : Host.Outcome State Fault Refusal) : State :=
  match o with
  | .next t => t
  | .fault _ => State.reset
  | .refused _ => State.reset

/-- Whether a next state is answered. -/
def isNext (o : Host.Outcome State Fault Refusal) : Bool :=
  match o with
  | .next _ => true
  | .fault _ => false
  | .refused _ => false

theorem next_after {o : Host.Outcome State Fault Refusal} (h : isNext o = true) : o = .next (after o) := by
  cases o <;> simp_all [isNext, after]

/-- The TOY parameters of 00_scope.md R9. -/
def toyCfg : Cfg :=
  { p := 103, q := 29, r := 31, a := 10, a24 := 3, gx := 14, gy := 17, hx := 33, hy := 43, kx := 36, ky := 18 }

/-- The start state of the vectors: reset, initialised, TOY written, LOCK = 1. -/
def toy : State := { State.reset.endInit with cfg := toyCfg, ctrl := { ie := false, lock := true } }

/-- Two scalar operands: S1 and S2. -/
def ops (a b : Nat) : State := (toy.setS 1 a).setS 2 b

/-- The state after the command of word `w`, run by one step. -/
def run (w : Nat) (s : State) : State := after (step (s.withFetchWord 32 w))

/-- One point register set to (x, y, z). -/
def pr (i : PReg) (x y z : Nat) (s : State) : State := s.setPR i { x := x, y := y, z := z }

/-- Answers the random source will give. -/
def drawing (vs : List Nat) (s : State) : State := { s with oracle := vs }

/-- Bank 0 holding 3 + 5·x², as the first row of the polynomial vectors leaves it. -/
def poly (a : Nat) : State := ((toy.setS 1 a).setDeg 0 2).setCoeffs 0 0 [3, 0, 5]

/-- The state after SHARE of 4 with the draws 7 and 3. -/
def shared : State := after (exec (.share .q 0 1) (drawing [7, 3] (toy.setS 1 4)))

/-! ## Well-formedness (30_encoding.md R92, R96, R97) -/

theorem test_bank_past_the_build : (Instr.prand .q 4 1).wellFormed 4 = false := by decide
theorem test_peval_bank_past_the_build : (Instr.peval .q 1 4 1).wellFormed 4 = false := by decide
theorem test_pcget_bank_past_the_build : (Instr.pcget 1 15 1).wellFormed 4 = false := by decide
theorem test_pcset_bank_past_the_build : (Instr.pcset .r 4 1 2).wellFormed 4 = false := by decide
theorem test_psdeg_bank_past_the_build : (Instr.psdeg 4 1).wellFormed 4 = false := by decide
theorem test_pgdeg_bank_past_the_build : (Instr.pgdeg 1 4).wellFormed 4 = false := by decide
theorem test_share_bank_past_the_build : (Instr.share .q 4 1).wellFormed 4 = false := by decide
theorem test_last_bank_is_well_formed : (Instr.share .q 3 1).wellFormed 4 = true := by decide
theorem test_ladder_equal_destinations : (Instr.ladder 5 5 1 (.gen .g)).wellFormed 4 = false := by decide

/-! ## Decoding: a word of every command, from spec/95_test_vectors.md -/

theorem test_decode_nop : decode 4 0x00000000 = .ok .nop := by decide
theorem test_decode_fadd : decode 4 0x05312000 = .ok (.fadd .q 3 1 2) := by decide
theorem test_decode_fsub : decode 4 0x08312000 = .ok (.fsub .p 3 1 2) := by decide
theorem test_decode_fmul : decode 4 0x0E312000 = .ok (.fmul .r 3 1 2) := by decide
theorem test_decode_finv : decode 4 0x11310000 = .ok (.finv .q 3 1) := by decide
theorem test_decode_fexp : decode 4 0x16312000 = .ok (.fexp .r 3 1 2) := by decide
theorem test_decode_frand : decode 4 0x1A300000 = .ok (.frand .r 3) := by decide
theorem test_decode_mov : decode 4 0x20520000 = .ok (.mov 5 2) := by decide
theorem test_decode_ldi : decode 4 0x241000FF = .ok (.ldi 1 255) := by decide
theorem test_decode_pget : decode 4 0x284A0002 = .ok (.pget 4 (.gen .k) .z) := by decide
theorem test_decode_pput : decode 4 0x2C070000 = .ok (.pput 0 .x 7) := by decide
theorem test_decode_xadd : decode 4 0x40289300 = .ok (.xadd 2 (.gen .g) (.gen .h) (.reg 3)) := by decide
theorem test_decode_xdbl : decode 4 0x44190000 = .ok (.xdbl 1 (.gen .h)) := by decide
theorem test_decode_ladder : decode 4 0x48013100 = .ok (.ladder 0 1 1 (.reg 3)) := by decide
theorem test_decode_recov : decode 4 0x4C280100 = .ok (.recov 2 (.gen .g) (.reg 0) (.reg 1)) := by decide
theorem test_decode_smul : decode 4 0x5001A000 = .ok (.smul 0 1 (.gen .k)) := by decide
theorem test_decode_prand : decode 4 0x82010000 = .ok (.prand .r 0 1) := by decide
theorem test_decode_peval : decode 4 0x86210000 = .ok (.peval .r 2 0 1) := by decide
theorem test_decode_pcget : decode 4 0x88310000 = .ok (.pcget 3 0 1) := by decide
theorem test_decode_pcset : decode 4 0x8D012100 = .ok (.pcset .q 1 1 2) := by decide
theorem test_decode_psdeg : decode 4 0x90010100 = .ok (.psdeg 1 1) := by decide
theorem test_decode_pgdeg : decode 4 0x94400000 = .ok (.pgdeg 4 0) := by decide
theorem test_decode_share : decode 4 0xA2010000 = .ok (.share .r 0 1) := by decide
theorem test_decode_sget : decode 4 0xA4320000 = .ok (.sget 3 2) := by decide

/-! The ILLEGAL words of the vectors' section 2.3. -/

theorem test_illegal_words :
    ([0x00000001, 0x1C000000, 0x07312000, 0x11312000, 0x28180003, 0x2C810000, 0x281B0000, 0x24100105, 0x40289B00,
      0x48018000, 0x51018000, 0x80010000, 0x81010400, 0xA0010000, 0xA3010000, 0xFFFFFFFF].all
      fun w => (decodeTableWord 32 w).isNone) = true := by decide

theorem test_illegal_word_completes : (run 0x07312000 toy).statusWord = 0x16#32 := by decide +kernel

/-! ## One step of each command, from the vectors -/

theorem test_nop : (run 0x00000000 toy).statusWord = 0x2#32 := by decide +kernel
theorem test_fadd_wraps : ((run 0x05312000 (ops 20 15)).getS 3, (run 0x05312000 (ops 20 15)).statusWord) = (6, 0x2#32) := by
  decide +kernel
theorem test_fadd_source_is_destination : (run 0x05111000 (ops 5 0)).getS 1 = 10 := by decide +kernel
theorem test_fsub_wraps : (run 0x09312000 (ops 3 5)).getS 3 = 27 := by decide +kernel
theorem test_fsub_positive : (run 0x09312000 (ops 5 3)).getS 3 = 2 := by decide +kernel
theorem test_fmul_full_width : (run 0x0C312000 (ops 0xFFFFFFFF 0xFFFFFFFF)).getS 3 = 33 := by decide +kernel
theorem test_fmul : (run 0x0D312000 (ops 7 9)).getS 3 = 5 := by decide +kernel
theorem test_finv : (run 0x11310000 (ops 5 0)).getS 3 = 6 := by decide +kernel
theorem test_finv_of_zero : ((run 0x11310000 ((ops 29 0).setS 3 77)).getS 3,
    (run 0x11310000 ((ops 29 0).setS 3 77)).statusWord) = (77, 0x26#32) := by decide +kernel
theorem test_fexp_exponent_not_reduced : (run 0x15312000 (ops 3 0xFFFFFFFF)).getS 3 = 27 := by decide +kernel
theorem test_fexp_zero_to_zero : (run 0x15312000 (ops 0 0)).getS 3 = 1 := by decide +kernel
theorem test_frand : ((run 0x18300000 (drawing [102, 4] toy)).getS 3, (run 0x18300000 (drawing [102, 4] toy)).oracle) =
    (102, [4]) := by decide +kernel
theorem test_frand_modulus_zero : ((run 0x1A300000 (drawing [9] { toy with cfg := { toyCfg with r := 0 } })).oracle,
    (run 0x1A300000 (drawing [9] { toy with cfg := { toyCfg with r := 0 } })).statusWord) = ([9], 0x36#32) := by
  decide +kernel
theorem test_mov : (run 0x20520000 (ops 0 0x1234)).getS 5 = 0x1234 := by decide +kernel
theorem test_ldi_zero_extends : (run 0x241000FF toy).getS 1 = 255 := by decide +kernel
theorem test_pget_generator_z : (run 0x284A0002 toy).getS 4 = 1 := by decide +kernel
theorem test_pget_generator_x : (run 0x28690000 toy).getS 6 = 33 := by decide +kernel
theorem test_pput_keeps_coordinates : (run 0x2C070000 (pr 0 1 2 3 (toy.setS 7 14))).getPR 0 = { x := 14, y := 2, z := 3 } := by
  decide +kernel
theorem test_xadd : (run 0x40281800 (pr 1 18 0 23 toy)).getPR 2 = { x := 56, y := 0, z := 61 } := by decide +kernel
theorem test_xadd_difference_at_infinity : (run 0x40288100 (pr 1 1 0 0 toy)).statusWord = 0x46#32 := by decide +kernel
theorem test_xdbl_unreduced : (run 0x44100000 (pr 0 117 5 1 toy)).getPR 1 = { x := 18, y := 0, z := 23 } := by
  decide +kernel
theorem test_xdbl_order_two : (run 0x44100000 (pr 0 0 0 1 toy)).getPR 1 = { x := 1, y := 0, z := 0 } := by
  decide +kernel
theorem test_ladder : ((run 0x48018100 (ops 5 0)).getPR 0, (run 0x48018100 (ops 5 0)).getPR 1) =
    (({ x := 23, y := 0, z := 19 } : Point), ({ x := 36, y := 0, z := 50 } : Point)) := by decide +kernel
theorem test_ladder_base_not_affine : (run 0x48013100 (pr 3 14 17 2 (ops 5 0))).statusWord = 0x36#32 := by decide +kernel
theorem test_recov : (run 0x4C280100 (pr 0 23 0 19 (pr 1 36 0 50 toy))).getPR 2 = { x := 50, y := 59, z := 1 } := by
  decide +kernel
theorem test_recov_identity : (run 0x4C280100 (pr 0 1 0 0 (pr 1 14 0 1 toy))).statusWord = 0xA#32 := by decide +kernel
theorem test_smul_not_reduced : (run 0x50018000 (ops 0xFFFFFFFF 0)).getPR 0 = { x := 100, y := 67, z := 1 } := by
  decide +kernel
theorem test_smul_off_the_curve : (run 0x50013000 (pr 3 14 18 1 (ops 2 0))).getPR 0 = { x := 59, y := 45, z := 1 } := by
  decide +kernel
theorem test_prand : (let t := run 0x81010000 (drawing [3, 0, 5] (ops 2 0))
    (t.getDeg 0, t.coeff 0 0, t.coeff 0 1, t.coeff 0 2, t.coeff 0 3)) = (2, 3, 0, 5, 0) := by decide +kernel
theorem test_prand_degree_too_large : (run 0x81010000 (drawing [3] (ops 16 0))).statusWord = 0x36#32 := by
  decide +kernel
theorem test_peval : (run 0x85210000 (poly 0xFFFFFFFF)).getS 2 = 26 := by decide +kernel
theorem test_peval_other_modulus : (run 0x86210000 (poly 2)).getS 2 = 23 := by decide +kernel
theorem test_pcget : (run 0x88310000 (poly 2)).getS 3 = 5 := by decide +kernel
theorem test_pcget_above_degree : (run 0x88310000 (poly 3)).statusWord = 0x36#32 := by decide +kernel
theorem test_pcset_reduces : (run 0x8D012100 ((ops 1 31).setDeg 1 1)).coeff 1 1 = 2 := by decide +kernel
theorem test_pcset_above_degree : (run 0x8D012100 ((ops 2 31).setDeg 1 1)).statusWord = 0x36#32 := by decide +kernel
theorem test_psdeg_truncates : (let t := run 0x90010000 (poly 1)
    (t.getDeg 0, t.coeff 0 0, t.coeff 0 2)) = (1, 3, 0) := by decide +kernel
theorem test_psdeg_too_large : (run 0x90010000 (poly 16)).statusWord = 0x36#32 := by decide +kernel
theorem test_pgdeg : (run 0x94400000 (poly 0)).getS 4 = 2 := by decide +kernel
theorem test_share : (let t := run 0xA1010000 (drawing [7, 3] (ops 4 0))
    (t.shm 1, t.shm 2, t.shm 3, t.shm 4, t.shm 5, t.shareN, t.getDeg 0)) = (10, 13, 16, 19, 0, 4, 1) := by
  decide +kernel
theorem test_share_odd_count : (run 0xA1010000 (drawing [7, 3] (ops 5 0))).statusWord = 0x36#32 := by decide +kernel
theorem test_sget : (run 0xA4320000 (shared.setS 2 3)).getS 3 = 16 := by decide +kernel
theorem test_sget_past_the_count : (run 0xA4320000 (shared.setS 2 5)).statusWord = 0x36#32 := by decide +kernel

/-! ## The machine: memory, reset, the bus, the assembler's notation -/

theorem test_reset_memory_wf : State.reset.mem.wf = true := by decide
theorem test_shared_memory_wf : shared.mem.wf = true := by decide +kernel
theorem test_reset_status : State.reset.statusWord = 0x1#32 := by decide
theorem test_initialisation_ends : (after (step State.reset)).statusWord = 0x0#32 := by decide +kernel
theorem test_id_is_read : (after (takeInput (.read 0x000 4) toy)).response = some 0x50565353#32 := by decide +kernel
theorem test_lock_holds : (after (takeInput (.write 0x1000 4 5) toy)).cfg.p = 103 := by decide +kernel
theorem test_cfg_r_stays_writable : (after (takeInput (.write 0x1080 4 12) toy)).cfg.r = 12 := by decide +kernel
theorem test_busy_write_sets_ovr :
    (after (takeInput (.write 0x2000 4 5) (toy.accept 0))).statusWord = 0x101#32 := by decide +kernel
theorem test_halfword_refused : takeInput (.read 0x2000 2) toy = .refused .busBadAccess := by rfl
theorem test_assembled_line :
    Asm.assemble "FADD.Q S3, S1, S2".toList = some [.fadd .q 3 1 2] := by decide +kernel

/-! ## Witnesses: for every statement with hypotheses, a state and operands that meet them, clause by clause -/

theorem witness_DecodeOfEncodeIsTheCommand : (Instr.share .q 3 1).wellFormed 4 = true := by decide

theorem witness_DecodedWordIsTheEncoding : decode 4 0xA1010300 = .ok (.share .q 3 1) := by decide

theorem witness_IllegalWordsAreTheTablesAndCompleteIllegal :
    (∃ r, decode 4 0x07312000 = .error r) ∧ legalWord 4 0x07312000 = false ∧ toy.phase = .idle ∧
    (toy.accept 0x07312000).resetLine = false ∧ (toy.accept 0x07312000).phase = .inFlight ∧
    legalWord toy.build.nPoly (toy.accept 0x07312000).cmd = false :=
  ⟨⟨_, rfl⟩, by decide +kernel⟩

theorem witness_StepRunsTheDecodedCommand :
    let s := toy.accept 0x05312000
    let s1 := { s with inputs := [.engine, .read 0 4] }
    s.resetLine = false ∧ s.phase = .inFlight ∧ decode s.build.nPoly s.cmd = .ok (.fadd .q 3 1 2) ∧ s.inputs = [] ∧
    s1.resetLine = false ∧ s1.phase = .inFlight ∧ decode s1.build.nPoly s1.cmd = .ok (.fadd .q 3 1 2) ∧
    s1.inputs = .engine :: [.read 0 4] ∧ decode s.build.nPoly 0x05312000 = .ok (.fadd .q 3 1 2) := by decide +kernel

theorem witness_AcceptedCommandCompletesAtTheEngineTurn :
    let s := { toy with inputs := [.write 0x010 4 0x05312000, .engine, .read 0x00C 4] }
    s.resetLine = false ∧ s.phase = .idle ∧
      s.inputs = .write (s.build.base + 0x010) 4 0x05312000 :: .engine :: [.read 0x00C 4] := by decide +kernel

theorem witness_AcceptanceClearsTheOutcome : toy.resetLine = false ∧ toy.phase = .idle := by decide

theorem witness_ErrorsWriteNothing :
    exec (.finv .q 3 1) toy = .next (after (exec (.finv .q 3 1) toy)) ∧
      (after (exec (.finv .q 3 1) toy)).status.ecode ≠ .none := ⟨next_after (by decide +kernel), by decide +kernel⟩

theorem witness_CommandsWriteOnlyTheirDestinations :
    exec (.fadd .q 3 1 2) toy = .next (after (exec (.fadd .q 3 1 2) toy)) ∧
      scalarDest (.fadd .q 3 1 2) ≠ some 4 ∧ (7 : PReg) ∉ pointDests (.ladder 0 1 1 (.gen .g)) ∧
      bankDest (.fadd .q 3 1 2) = none ∧ takesDraws (.fadd .q 3 1 2) = false :=
  ⟨next_after (by decide +kernel), by decide, by decide, by decide, by decide⟩

theorem witness_CommandsIgnoreControlState :
    exec (.smul 0 1 (.gen .g)) toy = .next (after (exec (.smul 0 1 (.gen .g)) toy)) := next_after (by decide +kernel)

theorem witness_InfExactlyWhenTheIdentityIsWritten :
    exec (.smul 0 1 (.gen .g)) toy = .next (after (exec (.smul 0 1 (.gen .g)) toy)) ∧
      (after (exec (.smul 0 1 (.gen .g)) toy)).status.inf = true ∧
    exec (.smul 0 1 (.gen .g)) (ops 1 0) = .next (after (exec (.smul 0 1 (.gen .g)) (ops 1 0))) ∧
      (after (exec (.smul 0 1 (.gen .g)) (ops 1 0))).status.inf = false :=
  ⟨next_after (by decide +kernel), by decide +kernel, next_after (by decide +kernel), by decide +kernel⟩

theorem witness_ModulusBelowTwoRaisesParam :
    let s := { toy with cfg := { toyCfg with r := 1, p := 0 } }
    (Instr.fadd .r 3 1 2).wellFormed s.build.nPoly = true ∧ selectedModulus (.fadd .r 3 1 2) s = some 1 ∧
    (Instr.smul 0 1 (.gen .g)).wellFormed s.build.nPoly = true ∧
      selectedModulus (.smul 0 1 (.gen .g)) s = some 0 := by decide +kernel

theorem witness_FaddFsubFmulResults :
    2 ≤ toy.cfg.p ∧ 2 ≤ toy.cfg.q ∧ 2 ≤ ({ toy with cfg := { toyCfg with r := 2 } } : State).cfg.r := by decide +kernel

theorem witness_FinvIsTheInverseOrNotInvertible :
    2 ≤ toy.fieldMod .q ∧ Nat.gcd ((ops 5 0).getS 1) (toy.fieldMod .q) = 1 ∧
      Nat.gcd ((ops 29 0).getS 1) (toy.fieldMod .q) ≠ 1 := by decide +kernel

theorem witness_FexpIsTheModularPower : 2 ≤ toy.fieldMod .p := by decide +kernel

theorem witness_FrandWritesOneDraw :
    2 ≤ toy.fieldMod .q ∧ (drawing [17] toy).oracle = 17 :: [] ∧ toy.oracle = [] := by decide +kernel

theorem witness_FdivExpansionDivides :
    2 ≤ (ops 7 5).fieldMod .q ∧ (3 : SReg) ≠ 1 ∧ Nat.gcd ((ops 7 5).getS 2) ((ops 7 5).fieldMod .q) = 1 ∧
      Nat.gcd ((ops 7 29).getS 2) ((ops 7 29).fieldMod .q) ≠ 1 := by
  decide +kernel

theorem witness_NopOnlyCompletes :
    (0x03FFFFFF : Word).toNat / 2 ^ 26 = 0 ∧ (0x03FFFFFF : Word) ≠ 0 ∧ toy.phase = .idle ∧ toy.status.ovr = false := by decide +kernel

theorem witness_PputWritesOneCoordinate : Coord.y ≠ Coord.x := by decide

/-- The first clause at G, 2G and G; the second at two operands with X = Z, for which U = V = 0. -/
theorem witness_XaddFormula :
    let s := pr 1 18 0 23 (pr 2 1 0 1 toy)
    2 ≤ s.cfg.p ∧
    (¬((s.pointSource (.gen .g)).x % s.cfg.p = 0 ∧ (s.pointSource (.gen .g)).z % s.cfg.p = 0) ∧
      ¬((s.pointSource (.reg 1)).x % s.cfg.p = 0 ∧ (s.pointSource (.reg 1)).z % s.cfg.p = 0) ∧
      (s.pointSource (.gen .g)).z % s.cfg.p ≠ 0 ∧
      ((1 : ZMod 103) * (((14 : ZMod 103) - 1) * (18 + 23) + (14 + 1) * (18 - 23)) ^ 2 ≠ 0)) ∧
    (¬((s.pointSource (.reg 2)).x % s.cfg.p = 0 ∧ (s.pointSource (.reg 2)).z % s.cfg.p = 0) ∧
      ((1 : ZMod 103) * (((1 : ZMod 103) - 1) * (1 + 1) + (1 + 1) * (1 - 1)) ^ 2 = 0) ∧
      ((14 : ZMod 103) * (((1 : ZMod 103) - 1) * (1 + 1) - (1 + 1) * (1 - 1)) ^ 2 = 0)) := by decide +kernel

/-- The first clause at 2G; the second at (1 : 1) with A24 = 0. -/
theorem witness_XdblFormula :
    let s := pr 1 18 0 23 toy
    let u := pr 1 1 0 1 { toy with cfg := { toyCfg with a24 := 0 } }
    (2 ≤ s.cfg.p ∧ ¬((s.pointSource (.reg 1)).x % s.cfg.p = 0 ∧ (s.pointSource (.reg 1)).z % s.cfg.p = 0) ∧
      ((18 : ZMod 103) + 23) ^ 2 * ((18 : ZMod 103) - 23) ^ 2 ≠ 0) ∧
    (2 ≤ u.cfg.p ∧ ¬((u.pointSource (.reg 1)).x % u.cfg.p = 0 ∧ (u.pointSource (.reg 1)).z % u.cfg.p = 0) ∧
      ((1 : ZMod 103) + 1) ^ 2 * ((1 : ZMod 103) - 1) ^ 2 = 0 ∧
      (4 * 1 * 1 : ZMod 103) * (((1 : ZMod 103) - 1) ^ 2 + 0 * (4 * 1 * 1)) = 0) := by decide +kernel

/-- The first clause at 5·G; the second at the scalar 1, the base (1 : 1) and A24 = 0. -/
theorem witness_LadderWritesItsTwoOutputs :
    let l := ladder 103 3 5 14
    let d := ladder 103 0 1 1
    2 ≤ toy.cfg.p ∧ (0 : PReg) ≠ 1 ∧ (toy.pointSource (.gen .g)).z % toy.cfg.p = 1 ∧
      (toy.pointSource (.gen .g)).x % toy.cfg.p ≠ 0 ∧ ¬(l.1.x = 0 ∧ l.1.z = 0) ∧ ¬(l.2.x = 0 ∧ l.2.z = 0) ∧
      (d.2.x = 0 ∧ d.2.z = 0) := by decide +kernel

/-- At the scalars 2 and 5, and 0 and 1. -/
theorem witness_LadderStepsByBits :
    let f := fun k => exec (.ladder 0 1 1 (.gen .g)) (toy.setS 1 k)
    (f 2 = .next (after (f 2)) ∧ (after (f 2)).status.ecode = .none ∧
      f (2 * 2 + true.toNat) = .next (after (f 5)) ∧ (after (f 5)).status.ecode = .none) ∧
    (f 0 = .next (after (f 0)) ∧ (after (f 0)).status.ecode = .none ∧
      f (2 * 0 + true.toNat) = .next (after (f 1)) ∧ (after (f 1)).status.ecode = .none) :=
  ⟨⟨next_after (by decide +kernel), by decide +kernel, next_after (by decide +kernel), by decide +kernel⟩,
    ⟨next_after (by decide +kernel), by decide +kernel, next_after (by decide +kernel), by decide +kernel⟩⟩

/-- At 5·G; at a base with y = 0; and at the modulus 15 with y = 3. -/
theorem witness_RecovFormula :
    let s := pr 0 23 0 19 (pr 1 36 0 50 (pr 3 14 0 1 toy))
    let u := pr 0 1 0 1 (pr 3 14 3 1 { toy with cfg := { toyCfg with p := 15 } })
    (2 ≤ s.cfg.p ∧ (s.pointSource (.gen .g)).z % s.cfg.p = 1 ∧ (s.pointSource (.reg 0)).z % s.cfg.p ≠ 0 ∧
      (s.pointSource (.reg 1)).z % s.cfg.p ≠ 0 ∧ Nat.gcd (2 * 17 * 19 * 50 * 19) s.cfg.p = 1) ∧
    ((s.pointSource (.reg 3)).z % s.cfg.p = 1 ∧
      2 * (s.pointSource (.reg 3)).y * 19 * 50 * 19 % s.cfg.p = 0) ∧
    (2 ≤ u.cfg.p ∧ (u.pointSource (.reg 3)).z % u.cfg.p = 1 ∧ (u.pointSource (.reg 0)).z % u.cfg.p ≠ 0 ∧
      2 * (u.pointSource (.reg 3)).y * 1 * 1 * 1 % u.cfg.p ≠ 0 ∧
      Nat.gcd (2 * (u.pointSource (.reg 3)).y * 1 * 1 * 1) u.cfg.p ≠ 1) := by decide +kernel

/-- With Q = O and S = G, and with Q = G and S = O. -/
theorem witness_RecovEarlyAnswers :
    let s := pr 0 1 0 0 (pr 1 14 0 1 toy)
    2 ≤ s.cfg.p ∧ (s.pointSource (.gen .g)).z % s.cfg.p = 1 ∧
      ¬((s.pointSource (.reg 0)).x % s.cfg.p = 0 ∧ (s.pointSource (.reg 0)).z % s.cfg.p = 0) ∧
      ¬((s.pointSource (.reg 1)).x % s.cfg.p = 0 ∧ (s.pointSource (.reg 1)).z % s.cfg.p = 0) ∧
      (s.pointSource (.reg 0)).z % s.cfg.p = 0 ∧ (s.pointSource (.reg 1)).z % s.cfg.p ≠ 0 := by decide +kernel

theorem witness_SmulIsLadderThenRecov :
    let s := ops 5 0
    let t := after (exec (.ladder 0 1 1 (.gen .g)) s)
    let f := exec (.recov 2 (.gen .g) (.reg 0) (.reg 1)) t
    let m := exec (.smul 2 1 (.gen .g)) s
    PSrc.gen .g ≠ .reg 0 ∧ PSrc.gen .g ≠ .reg 1 ∧ exec (.ladder 0 1 1 (.gen .g)) s = .next t ∧
      t.status.ecode = .none ∧ f = .next (after f) ∧ m = .next (after m) ∧ (after f).status.ecode = .none :=
  ⟨by decide, by decide, next_after (by decide +kernel), by decide +kernel, next_after (by decide +kernel),
    next_after (by decide +kernel), by decide +kernel⟩

/-- 5·G; 29·G = O; the base (14, 0) off the curve, whose recovery fails; and the base (1, 1) with A24 = 0. -/
theorem witness_SmulWritesTheRecoveredPoint :
    let s := pr 3 14 0 1 toy
    let l := fun k => ladder 103 3 k 14
    2 ≤ s.cfg.p ∧ (s.pointSource (.gen .g)).z % s.cfg.p = 1 ∧ (s.pointSource (.gen .g)).x % s.cfg.p ≠ 0 ∧
      (¬((l 5).1.x = 0 ∧ (l 5).1.z = 0) ∧ ¬((l 5).2.x = 0 ∧ (l 5).2.z = 0) ∧
        recover 103 10 14 17 (l 5).1 (l 5).2 = .ok (.finite 50 59)) ∧
      (¬((l 29).1.x = 0 ∧ (l 29).1.z = 0) ∧ ¬((l 29).2.x = 0 ∧ (l 29).2.z = 0) ∧
        recover 103 10 14 17 (l 29).1 (l 29).2 = .ok .identity) ∧
      ((s.pointSource (.reg 3)).z % s.cfg.p = 1 ∧ recover 103 10 14 0 (l 5).1 (l 5).2 = .error .degenerate) ∧
      ((ladder 103 0 1 1).2.x = 0 ∧ (ladder 103 0 1 1).2.z = 0) :=
  ⟨by decide +kernel, by decide +kernel, by decide +kernel,
    ⟨by decide +kernel, by decide +kernel, by decide +kernel⟩,
    ⟨by decide +kernel, by decide +kernel, by decide +kernel⟩, ⟨by decide +kernel, by decide +kernel⟩,
    by decide +kernel⟩

theorem witness_SmulGivesTheIdentity :
    let s := pr 3 1 1 0 toy
    2 ≤ s.cfg.p ∧ (s.pointSource (.reg 3)).z % s.cfg.p = 0 ∧ (s.pointSource (.gen .g)).z % s.cfg.p = 1 ∧
      (s.pointSource (.gen .g)).x % s.cfg.p ≠ 0 ∧ s.getS 1 = 0 := by decide +kernel

/-- TOY and its base G. -/
theorem witness_SmulByOneGivesTheBase :
    Nat.Prime (ops 1 0).cfg.p ∧ (ops 1 0).cfg.p ≠ 2 ∧ (10 : ZMod 103) ^ 2 ≠ 4 ∧
      4 * (3 : ZMod 103) = (10 : ZMod 103) + 2 ∧ ((ops 1 0).pointSource (.gen .g)).z % (ops 1 0).cfg.p = 1 ∧
      ((ops 1 0).pointSource (.gen .g)).x % (ops 1 0).cfg.p ≠ 0 ∧
      (17 : ZMod 103) ^ 2 = (14 : ZMod 103) ^ 3 + 10 * 14 ^ 2 + 14 ∧ (ops 1 0).getS 1 = 1 := by
  refine ⟨?_, by decide +kernel⟩
  show Nat.Prime 103
  norm_num

/-- A base for every clause: Z = 2, O, x = 0; null operands; a difference with Z = 0. -/
theorem witness_CurveOperandErrors :
    let s := pr 3 14 17 2 (pr 4 1 1 0 (pr 5 0 0 1 toy))
    2 ≤ s.cfg.p ∧ (0 : PReg) ≠ 1 ∧
      ((s.pointSource (.reg 3)).z % s.cfg.p ≠ 0 ∧ (s.pointSource (.reg 3)).z % s.cfg.p ≠ 1) ∧
      (s.pointSource (.reg 4)).z % s.cfg.p = 0 ∧
      ((s.pointSource (.reg 5)).z % s.cfg.p = 1 ∧ (s.pointSource (.reg 5)).x % s.cfg.p = 0) ∧
      ((s.pointSource (.gen .g)).z % s.cfg.p = 1 ∧ (s.pointSource (.reg 7)).x % s.cfg.p = 0 ∧
        (s.pointSource (.reg 7)).z % s.cfg.p = 0) := by decide +kernel

/-- At the degree 0, at T_MAX, and with three fixed answers for the degree 2. -/
theorem witness_PrandFillsTheBank :
    toy.build.Valid ∧ toy.mem.wf = true ∧ (3 : Bank).val < toy.build.nPoly ∧ 2 ≤ toy.scalarMod .q ∧
      toy.scalarMod .q ≤ 2 ^ toy.build.w ∧ (ops 0 0).getS 1 ≤ toy.build.tMax ∧ (ops 15 0).getS 1 ≤ toy.build.tMax ∧
      (drawing [3, 0, 5] (ops 2 0)).oracle = [3, 0, 5] ++ [] ∧ [3, 0, 5].length = (ops 2 0).getS 1 + 1 := by
  decide +kernel

theorem witness_PevalIsThePolynomialValue :
    (3 : Bank).val < toy.build.nPoly ∧ 2 ≤ toy.cfg.q ∧ 2 ≤ toy.cfg.r := by decide +kernel

theorem witness_PcgetPgdegResults :
    (0 : Bank).val < (poly 2).build.nPoly ∧ (poly 2).getS 1 ≤ (poly 2).getDeg 0 ∧ (poly 3).getDeg 0 < (poly 3).getS 1 := by
  decide +kernel

theorem witness_PcsetWritesOneCoefficient :
    (poly 2).build.Valid ∧ (poly 2).mem.wf = true ∧ (0 : Bank).val < (poly 2).build.nPoly ∧ 2 ≤ (poly 2).scalarMod .q ∧
      (poly 2).scalarMod .q ≤ 2 ^ (poly 2).build.w ∧ (poly 2).getS 1 ≤ (poly 2).getDeg 0 ∧
      (poly 3).getDeg 0 < (poly 3).getS 1 := by decide +kernel

theorem witness_PsdegTruncatesTheBank :
    (poly 15).build.Valid ∧ (poly 15).mem.wf = true ∧ (0 : Bank).val < (poly 15).build.nPoly ∧
      (poly 15).getS 1 ≤ (poly 15).build.tMax ∧ (poly 0).getS 1 ≤ (poly 0).build.tMax := by decide +kernel

theorem witness_DegreeAboveTheBankRaisesParam :
    (0 : Bank).val < (ops 16 0).build.nPoly ∧ (ops 16 0).build.tMax < (ops 16 0).getS 1 := by decide +kernel

/-- At n = 2, n = 28 and, with fixed answers, n = 4. -/
theorem witness_ShareIsTheEvaluations :
    toy.build.Valid ∧ toy.mem.wf = true ∧ (3 : Bank).val < toy.build.nPoly ∧ toy.scalarMod .q ≤ 2 ^ toy.build.w ∧
      (∀ n ∈ [2, 4, 28], (ops n 0).getS 1 % 2 = 0 ∧ 2 ≤ (ops n 0).getS 1 ∧ (ops n 0).getS 1 ≤ toy.build.nMax ∧
        (ops n 0).getS 1 < toy.scalarMod .q) ∧
      (drawing [7, 3] (ops 4 0)).oracle = [7, 3] ++ [] ∧ [7, 3].length = (ops 4 0).getS 1 / 2 := by decide +kernel

theorem witness_ShareRejectsBadCounts :
    (0 : Bank).val < toy.build.nPoly ∧ (ops 5 0).getS 1 % 2 = 1 ∧ (ops 0 0).getS 1 < 2 ∧
      toy.build.nMax < (ops 34 0).getS 1 ∧ toy.scalarMod .q ≤ (ops 30 0).getS 1 := by decide +kernel

/-- At the indices 1, 4 = SHARE_N, 0 and 5. -/
theorem witness_SgetReadsTheShare :
    (1 ≤ (shared.setS 1 1).getS 1 ∧ (shared.setS 1 1).getS 1 ≤ (shared.setS 1 1).shareN) ∧
    (1 ≤ (shared.setS 1 4).getS 1 ∧ (shared.setS 1 4).getS 1 ≤ (shared.setS 1 4).shareN) ∧
    (shared.setS 1 0).getS 1 = 0 ∧ (shared.setS 1 5).shareN < (shared.setS 1 5).getS 1 := by decide +kernel

/-- The state before the sharing of `shared`. -/
def sharing : State := drawing [7, 3] (toy.setS 1 4)

theorem sharing_facts :
    sharing.build.Valid ∧ sharing.mem.wf = true ∧ sharing.scalarMod .q ≤ 2 ^ sharing.build.w ∧
      Nat.Prime (sharing.scalarMod .q) ∧ exec (.share .q 0 1) sharing = .next shared ∧ shared.status.ecode = .none := by
  refine ⟨by decide +kernel, by decide +kernel, by decide +kernel, ?_, next_after (by decide +kernel),
    by decide +kernel⟩
  show Nat.Prime 29
  norm_num

/-- Shares 1 and 2 of 7 + 3x, and the coefficients 7 and 3. -/
theorem witness_SharesDetermineThePolynomial :
    (sharing.build.Valid ∧ sharing.mem.wf = true ∧ sharing.scalarMod .q ≤ 2 ^ sharing.build.w ∧
      Nat.Prime (sharing.scalarMod .q) ∧ exec (.share .q 0 1) sharing = .next shared ∧ shared.status.ecode = .none) ∧
    (∀ i ∈ ({1, 2} : Finset Nat), 1 ≤ i ∧ i ≤ sharing.getS 1) ∧ ({1, 2} : Finset Nat).card = sharing.getS 1 / 2 ∧
    (∀ j, j < sharing.getS 1 / 2 → (if j = 0 then 7 else 3) < sharing.scalarMod .q) ∧
    (∀ i ∈ ({1, 2} : Finset Nat), (∑ j ∈ Finset.range (sharing.getS 1 / 2), (if j = 0 then 7 else 3) * i ^ j) %
      sharing.scalarMod .q = shared.shm i) := by
  refine ⟨sharing_facts, by decide +kernel, by decide +kernel, by decide +kernel, by decide +kernel⟩

/-- Share 1 of 7 + 3x, and the secret 0. -/
theorem witness_FewerSharesLeaveEverySecret :
    (sharing.build.Valid ∧ sharing.mem.wf = true ∧ sharing.scalarMod .q ≤ 2 ^ sharing.build.w ∧
      Nat.Prime (sharing.scalarMod .q) ∧ exec (.share .q 0 1) sharing = .next shared ∧ shared.status.ecode = .none) ∧
    (∀ i ∈ ({1} : Finset Nat), 1 ≤ i ∧ i ≤ sharing.getS 1) ∧ ({1} : Finset Nat).card = sharing.getS 1 / 2 - 1 ∧
    0 < sharing.scalarMod .q := by
  refine ⟨sharing_facts, by decide +kernel, by decide +kernel, by decide +kernel⟩

/-- A state with a bank and a share in it, a command in flight, has the invariant. -/
def busyState : State :=
  { toy with
    mem := { cells := [(0x10000, 7), (0x10040, 3), (0x200000, 10)] }
    deg := toy.deg.set 0 1, shareN := 2, cmd := 0xA1010000, phase := .inFlight, oracle := [5]
    sreg := toy.sreg.set 1 2 }

theorem busyState_inv : busyState.Inv where
  build := by decide +kernel
  values := ⟨by decide +kernel, fun i c => by cases c <;> revert i <;> decide +kernel,
    fun c => by cases c <;> decide +kernel⟩
  banks := ⟨by decide +kernel, by
    intro b hb j hj hj2
    have h16 : j < 16 := by have : busyState.build.tMax = 15 := rfl; omega
    have key : ∀ b : Bank, ∀ j : Fin 16, b.val < 4 → busyState.getDeg b < j.val → busyState.coeff b j.val = 0 := by
      decide +kernel
    exact key b ⟨j, h16⟩ hb hj⟩
  shares := ⟨by decide +kernel, by
    intro i hi hi2
    have h33 : i < 33 := by have : busyState.build.nMax = 32 := rfl; omega
    have key : ∀ i : Fin 33, busyState.shareN < i.val → busyState.shm i.val = 0 := by decide +kernel
    exact key ⟨i, h33⟩ hi⟩
  memory := ⟨by decide +kernel, by
    intro a ha
    have h3 : a = 0x10000 ∨ a = 0x10040 ∨ a = 0x200000 := by
      by_contra hn
      push Not at hn
      exact ha (by simp [busyState, Memory.read, readCells, hn.1.symm, hn.2.1.symm, hn.2.2.symm])
    have hv : valueBytes busyState.build = 4 := rfl
    have hc : busyState.build.nPoly = 4 ∧ busyState.build.tMax = 15 ∧ busyState.build.nMax = 32 := ⟨rfl, rfl, rfl⟩
    rcases h3 with rfl | rfl | rfl
    · exact .inl ⟨0, 0, by omega, by omega, by simp [coeffAddr], by simp [coeffAddr, hv]⟩
    · exact .inl ⟨0, 1, by omega, by omega, by simp [coeffAddr], by simp [coeffAddr, hv]⟩
    · exact .inr ⟨1, by omega, by omega, by simp [shareAddr], by simp [shareAddr, hv]⟩⟩
  status := ⟨by decide +kernel, by decide +kernel, by decide +kernel, by decide +kernel⟩

theorem witness_EveryStepKeepsTheInvariant : busyState.Inv ∧ step busyState = .next (after (step busyState)) :=
  ⟨busyState_inv, next_after (by decide +kernel)⟩

/-- The clause on banks, for a SHARE (the command in flight) and for a PRAND, at their own bank and the next one. -/
theorem witness_CommandsWriteOnlyTheirDestinations_bank :
    busyState.Inv ∧ bankDest (.share .q 1 1) = some 1 ∧ bankDest (.prand .q 1 1) = some 1 ∧ (2 : Bank) ≠ 1 ∧
      exec (.share .q 1 1) busyState = .next (after (exec (.share .q 1 1) busyState)) ∧
      exec (.prand .q 1 1) busyState = .next (after (exec (.prand .q 1 1) busyState)) ∧
      (∀ j, j ≤ busyState.build.tMax → 0x10004 < coeffAddr 1 j ∨ coeffAddr 1 j + valueBytes busyState.build ≤ 0x10004) ∧
      ∀ k, 1 ≤ k → k ≤ busyState.build.nMax →
        0x10004 < shareAddr k ∨ shareAddr k + valueBytes busyState.build ≤ 0x10004 :=
  ⟨busyState_inv, rfl, rfl, by decide, next_after (by decide +kernel), next_after (by decide +kernel),
    fun j _ => .inl (by simp only [coeffAddr]; omega), fun k _ _ => .inl (by simp only [shareAddr]; omega)⟩

theorem witness_ResetHasTheInvariant : Config.toy.Valid := by decide

/-- Unlocked and locked, the first and the last word of a value of one word. -/
theorem witness_LockFreezesTheConfiguration :
    let u := { toy with ctrl := { ie := false, lock := false } }
    (u.build.Valid ∧ u.phase = .idle ∧ 0 < valueWords u.build ∧ u.ctrl.lock = false) ∧
    (toy.build.Valid ∧ toy.phase = .idle ∧ toy.ctrl.lock = true ∧ CfgReg.p ≠ .r) ∧
    (isNext (step busyState) = true ∧ busyState.ctrl.lock = true ∧
      busyState.inputs.head? ≠ some .assertReset) := by decide +kernel

theorem witness_InformationRegistersAreConstant : step busyState = .next (after (step busyState)) :=
  next_after (by decide +kernel)

/-- A SHARE changes the count of `shared`-like states, and an asserted reset does. -/
theorem witness_OnlyShareAndResetWriteShares :
    let s := { busyState with sreg := toy.sreg.set 1 4 }
    let r := { busyState with inputs := [.assertReset] }
    isNext (step s) = true ∧ (after (step s)).shareN ≠ s.shareN ∧ isNext (step r) = true ∧
      (after (step r)).shareN ≠ r.shareN := by decide +kernel

theorem witness_OnlyShareAndResetWriteShares_inv :
    busyState.Inv ∧ step busyState = .next (after (step busyState)) ∧
      ∃ i, 1 ≤ i ∧ i ≤ busyState.build.nMax ∧ (after (step busyState)).shm i ≠ busyState.shm i :=
  ⟨busyState_inv, next_after (by decide +kernel), 1, by decide +kernel, by decide +kernel, by decide +kernel⟩

/-- The last coefficient and the last share, and the first reserved offsets after each. -/
theorem witness_AddressMapOfDataLocations :
    Config.toy.Valid ∧ locPresent Config.toy (.coeff 3 15) = true ∧ locPresent Config.toy (.share 32) = true ∧
      locate Config.toy (0x40000 + 0x40 * 16) = .reserved ∧ locate Config.toy (0x200000 + 0x40 * 32) = .reserved := by
  decide +kernel

/-- The clause on reads at the last share's word 0, and at its first and last word past the value. -/
theorem witness_HostWriteThenRead_idleRead :
    let s := { busyState with phase := .idle }
    s.build.Valid ∧ s.phase = .idle ∧ locPresent s.build (.share 32) = true ∧ 32 * 0 < s.build.w ∧
      s.build.w ≤ 32 * 1 ∧ 15 < 16 ∧ s.build.w ≤ 32 * 15 := by decide +kernel

/-- A share's word as the host reads it: SHM[1] of `busyState` is 10. -/
theorem test_host_reads_a_share :
    ({ busyState with phase := .idle }.hostRead 0x200000).response = some 10 := by decide +kernel

theorem witness_HostWriteThenRead :
    toy.build.Valid ∧ toy.mem.wf = true ∧ toy.resetLine = false ∧ toy.phase = .idle ∧
      locPresent toy.build (.coeff 3 0) = true ∧ toy.hostMayWrite (.coeff 3 0) = true ∧ 0 < valueWords toy.build ∧
      locPresent toy.build (.scalar 15) = true ∧ toy.hostMayWrite (.scalar 15) = true := by decide +kernel

theorem witness_IgnoredWritesChangeNothing :
    toy.build.Valid ∧ toy.phase = .idle ∧ (0 : Bank).val < toy.build.nPoly ∧ toy.getDeg 0 < 1 ∧ 15 ≤ toy.build.tMax ∧
      toy.ctrl.lock = true ∧ locPresent toy.build (.scalar 0) = true ∧ valueWords toy.build ≤ 1 := by decide +kernel

theorem witness_BusyWindowDropsWrites :
    busyState.build.Valid ∧ busyState.phase ≠ .idle ∧ locPresent busyState.build (.share 32) = true ∧ 15 < 16 ∧
      (let s := { toy with
        status := { toy.status with ovr := true }, inputs := [.write 0x00C 4 0x100] }
      isNext (step s) = true ∧ s.status.ovr = true ∧ (after (step s)).status.ovr = false) := by decide +kernel

/-- A reserved offset above the control page, and the offsets next to the degree bounds. -/
theorem witness_ReservedOffsetsReadZero :
    toy.build.Valid ∧ (0x2400 % 4 = 0 ∧ 0x1000 ≤ 0x2400 ∧ locate toy.build 0x2400 = .reserved) ∧
      (0x03C ∉ [0x000, 0x004, 0x008, 0x00C, 0x010, 0x020, 0x024, 0x028, 0x02C, 0x030]) ∧
      (0x080 ∉ [0x000, 0x004, 0x008, 0x00C, 0x010, 0x020, 0x024, 0x028, 0x02C, 0x030]) := by decide +kernel

/-- No location's slot holds the reserved offset 0x2400. -/
theorem witness_ReservedOffsetsReadZero_hole :
    ¬∃ l i, locPresent toy.build l = true ∧ i < 16 ∧ 0x2400 = slotOffset l + 4 * i := by
  rintro ⟨l, i, hl, hi, h⟩
  have hb : toy.build = Config.toy := rfl
  rcases l with c | k | ⟨k, c⟩ | ⟨k, j⟩ | k
  · cases c <;> simp only [slotOffset] at h <;> omega
  · have := k.isLt; simp only [slotOffset] at h; omega
  · cases c <;> simp only [slotOffset] at h <;> omega
  · simp only [slotOffset] at h; omega
  · simp only [slotOffset] at h; omega

/-- The address below the window of a block at 0x400000, the first above it, a halfword, and an access in reset. -/
theorem witness_UndefinedAccessesStop :
    let s := { toy with build := { Config.toy with base := 0x400000 } }
    let r := { s with resetLine := true }
    (0x3FFFFC < s.build.base ∧ s.build.base + 0x400000 ≤ 0x800000) ∧
    (r.build.base ≤ 0x400000 ∧ 0x400000 < r.build.base + 0x400000 ∧ r.resetLine = true) ∧
    (s.build.base ≤ 0x7FFFFE ∧ 0x7FFFFE < s.build.base + 0x400000 ∧ s.resetLine = false ∧
      (0x7FFFFE - s.build.base) % 4 ≠ 0) := by decide +kernel

theorem witness_InterruptFollowsCompletion :
    exec (.mov 1 2) toy = .next (after (exec (.mov 1 2) toy)) ∧ busyState.resetLine = false ∧
      busyState.phase = .inFlight ∧ engineTurn busyState = .next (after (engineTurn busyState)) ∧ toy.phase = .idle ∧
      (0x2 : Word).getLsbD 1 = true ∧ (0x2 : Word).getLsbD 0 = false ∧ isNext (step busyState) = true ∧
      busyState.status.done = false ∧ (after (step busyState)).status.done = true :=
  ⟨next_after (by decide +kernel), by decide +kernel, by decide +kernel, next_after (by decide +kernel),
    by decide +kernel, by decide +kernel, by decide +kernel, by decide +kernel⟩

/-- The last bank of the build, the first one past it, and a busy block. -/
theorem witness_ControlPageReads :
    toy.phase = .idle ∧ (3 : Bank).val < toy.build.nPoly ∧ toy.build.nPoly ≤ (4 : Bank).val ∧
      busyState.phase ≠ .idle := by decide +kernel

/-- A host that polls with plain reads sees BUSY until the engine's turn, which here comes before its last read. -/
theorem test_plain_reads_see_the_completion :
    let program : HostProgram :=
      [(.wr 0x010 0x05312000, { early := false, polls := 0 }), (.rd 0x00C, { early := false, polls := 0 }),
        (.rd 0x00C, { early := true, polls := 0 })]
    (after (runLines (program.take 2) (ops 5 7))).response = some 1 ∧
      (after (runLines program (ops 5 7))).response = some 2 ∧
      (after (runLines program (ops 5 7))).getS 3 = 12 := by decide +kernel

end Sys2Proof.Tests
end

section
/-! SUPPORT. Every step keeps the invariant of Safety.lean. First what the invariant needs of a state that shares its
banks with an old one, then one lemma per operation of the machine (`s.Inv → (op s).Inv`), then commands, bus accesses
and steps, which only compose those operations. -/

namespace Sys2Proof.Machine

/-! ## States that share their banks -/

/-- The state the clauses on banks, shares and memory speak of: two states that agree on it agree on those clauses. -/
structure SameBanks (s t : State) : Prop where
  build : t.build = s.build
  deg : t.deg = s.deg
  mem : t.mem = s.mem
  shareN : t.shareN = s.shareN

/-- The invariant after a step that leaves the banks: only the values and STATUS are left to check. -/
theorem State.Inv.of_sameBanks {s t : State} (h : s.Inv) (hb : SameBanks s t) (hv : ValuesFit t) (hs : StatusOk t) :
    t.Inv := by
  obtain ⟨hbuild, hdeg, hmem, hshareN⟩ := hb
  cases s
  cases t
  simp only at hbuild hdeg hmem hshareN
  subst hbuild hdeg hmem hshareN
  exact ⟨h.build, hv, ⟨h.banks.degLe, h.banks.zeroAbove⟩, ⟨h.shares.countLe, h.shares.zeroAbove⟩,
    ⟨h.memory.wf, h.memory.owned⟩, hs⟩

/-- CTRL, CMD, the environment's fields and the random source are in no clause of the invariant. -/
theorem State.Inv.withUnconstrained {s : State} (h : s.Inv) (c : Ctrl) (w : Word) (es : List Input) (r : Option Word)
    (o : List Nat) (n : Nat) :
    ({ s with ctrl := c, cmd := w, inputs := es, response := r, oracle := o, freeIx := n } : State).Inv :=
  h.of_sameBanks ⟨rfl, rfl, rfl, rfl⟩ ⟨h.values.scalars, h.values.points, h.values.config⟩
    ⟨h.status.err, h.status.inf, h.status.busy, h.status.inReset⟩

/-- A new STATUS and phase keep the invariant when they keep the clauses on STATUS. -/
theorem State.Inv.withStatus {s : State} (h : s.Inv) {f : Status} {p : Phase} {l : Bool}
    (hs : StatusOk { s with status := f, phase := p, resetLine := l }) :
    ({ s with status := f, phase := p, resetLine := l } : State).Inv :=
  h.of_sameBanks ⟨rfl, rfl, rfl, rfl⟩ ⟨h.values.scalars, h.values.points, h.values.config⟩ hs

theorem State.Inv.tMax_le {s : State} (h : s.Inv) : s.build.tMax ≤ 1023 := h.build.2.1

/-! ## Draws -/

theorem draws_build (m n : Nat) (s : State) : (State.draws m n s).2.build = s.build := by rw [draws_state]

theorem draws_resetLine (m n : Nat) (s : State) : (State.draws m n s).2.resetLine = s.resetLine := by rw [draws_state]

theorem State.Inv.afterAnswer {s : State} (h : s.Inv) : s.afterAnswer.Inv := by
  rw [State.afterAnswer_state]
  exact h.withUnconstrained s.ctrl s.cmd s.inputs s.response _ _

theorem State.Inv.draws {s : State} (h : s.Inv) (m n : Nat) : (State.draws m n s).2.Inv := by
  rw [draws_state]
  exact h.withUnconstrained s.ctrl s.cmd s.inputs s.response _ _

/-! ## Registers -/

theorem State.Inv.setS {s : State} (h : s.Inv) (rd : SReg) {v : Nat} (hv : v < 2 ^ s.build.w) : (s.setS rd v).Inv := by
  refine h.of_sameBanks ⟨rfl, rfl, rfl, rfl⟩ ⟨fun i => ?_, h.values.points, h.values.config⟩
    ⟨h.status.err, h.status.inf, h.status.busy, h.status.inReset⟩
  by_cases hi : i = rd
  · rwa [hi, State.getS_setS_same]
  · rw [State.getS_setS_ne s v hi]
    exact h.values.scalars i

theorem State.Inv.setPR {s : State} (h : s.Inv) (rd : PReg) {pt : Point}
    (hpt : ∀ c : Coord, pt.coord c < 2 ^ s.build.w) : (s.setPR rd pt).Inv := by
  refine h.of_sameBanks ⟨rfl, rfl, rfl, rfl⟩ ⟨h.values.scalars, fun i c => ?_, h.values.config⟩
    ⟨h.status.err, h.status.inf, h.status.busy, h.status.inReset⟩
  by_cases hi : i = rd
  · rw [hi, State.getPR_setPR_same]
    exact hpt c
  · rw [State.getPR_setPR_ne s pt hi]
    exact h.values.points i c

theorem State.Inv.setCfg {s : State} (h : s.Inv) (c : CfgReg) {v : Nat} (hv : v < 2 ^ s.build.w) :
    ({ s with cfg := s.cfg.set v c } : State).Inv := by
  refine h.of_sameBanks ⟨rfl, rfl, rfl, rfl⟩ ⟨h.values.scalars, h.values.points, fun k => ?_⟩
    ⟨h.status.err, h.status.inf, h.status.busy, h.status.inReset⟩
  by_cases hk : k = c
  · rwa [hk, Cfg.get_set_same]
  · rw [Cfg.get_set_ne s.cfg v hk]
    exact h.values.config k

/-! ## Coefficients and shares -/

theorem outside_coeff_of_not_owned {b : Build} {a k j : Nat} (h : ¬ ownedByte b a) (hk : k < b.nPoly)
    (hj : j ≤ b.tMax) : a < coeffAddr k j ∨ coeffAddr k j + valueBytes b ≤ a := by
  by_contra hc
  exact h (.inl ⟨k, j, hk, hj, by omega, by omega⟩)

theorem outside_share_of_not_owned {b : Build} {a i : Nat} (h : ¬ ownedByte b a) (h1 : 1 ≤ i) (hi : i ≤ b.nMax) :
    a < shareAddr i ∨ shareAddr i + valueBytes b ≤ a := by
  by_contra hc
  exact h (.inr ⟨i, h1, hi, by omega, by omega⟩)

/-- Canonical writes to bytes the build owns keep the memory's clause. -/
theorem MemoryOk.of_outside {s t : State} (h : MemoryOk s) (hbuild : t.build = s.build) (hwf : t.mem.wf = true)
    (hout : ∀ a : Nat, ¬ ownedByte s.build a → t.mem.read a = s.mem.read a) : MemoryOk t := by
  refine ⟨hwf, fun a ha => ?_⟩
  rw [hbuild]
  by_contra hn
  rw [hout a hn] at ha
  exact hn (h.owned a ha)

/-- A coefficient at or below the degree bound written (PCSET, and the host's writes). -/
theorem State.Inv.setCoeff {s : State} (h : s.Inv) {b : Bank} (hb : b.val < s.build.nPoly) {j : Nat}
    (hj : j ≤ s.getDeg b) (v : Nat) : (s.setCoeff b j v).Inv where
  build := h.build
  values := ⟨h.values.scalars, h.values.points, h.values.config⟩
  banks := by
    have hmax := h.tMax_le
    have hjmax := h.banks.degLe b
    refine ⟨h.banks.degLe, fun c hc k hk (hk2 : k ≤ s.build.tMax) => ?_⟩
    have hck : c ≠ b ∨ k ≠ j := by
      by_contra! hcon
      obtain ⟨rfl, rfl⟩ := hcon
      exact absurd hk (Nat.not_lt.2 hj)
    rw [State.coeff_setCoeff_ne h.build v (by omega) (by omega) hck]
    exact h.banks.zeroAbove c hc k hk hk2
  shares := by
    have hmax := h.tMax_le
    have hjmax := h.banks.degLe b
    refine ⟨h.shares.countLe, fun i hi hi2 => ?_⟩
    rw [State.shm_setCoeff h.build b i v (by omega)]
    exact h.shares.zeroAbove i hi hi2
  memory := h.memory.of_outside rfl (Memory.writeLE_wf h.memory.wf _ _ _) fun _ ha =>
    Memory.read_writeLE_outside _ _ (outside_coeff_of_not_owned ha hb (hj.trans (h.banks.degLe b)))
  status := ⟨h.status.err, h.status.inf, h.status.busy, h.status.inReset⟩

/-- A degree bound `t` set, and the coefficients of its bank from `j` to T_MAX written, with zeros above `t`: the bank
invariant (10_state.md R30) holds when no coefficient above `t` keeps an old value. -/
theorem State.Inv.setDeg_setCoeffs {s : State} (h : s.Inv) {b : Bank} (hb : b.val < s.build.nPoly) {t j : Nat}
    {vs : List Nat} (ht : t ≤ s.build.tMax) (hj : j ≤ t + 1) (hlen : j + vs.length = s.build.tMax + 1)
    (hzero : ∀ k (hk : k < vs.length), t < j + k → vs[k] = 0) : ((s.setDeg b t).setCoeffs b j vs).Inv where
  build := h.build
  values := ⟨h.values.scalars, h.values.points, h.values.config⟩
  banks := by
    have hmax := h.tMax_le
    refine ⟨fun c => ?_, fun c hc k hk (hk2 : k ≤ s.build.tMax) => ?_⟩
    · rw [State.setCoeffs_getDeg]
      by_cases hcb : c = b
      · rwa [hcb, State.getDeg_setDeg_same]
      · rw [State.getDeg_setDeg_ne s t hcb]
        exact h.banks.degLe c
    · rw [State.setCoeffs_getDeg] at hk
      by_cases hcb : c = b
      · rw [hcb, State.getDeg_setDeg_same] at hk
        obtain ⟨i, rfl⟩ : ∃ i, k = j + i := ⟨k - j, by omega⟩
        have hi : i < vs.length := by omega
        rw [hcb, State.coeff_setCoeffs_in (s := s.setDeg b t) h.build h.memory.wf b j i vs hi, hzero i hi hk,
          Nat.zero_mod]
      · rw [State.getDeg_setDeg_ne s t hcb] at hk
        rw [State.coeff_setCoeffs_bank (s := s.setDeg b t) h.build hcb j k vs (by omega) (by omega)]
        exact h.banks.zeroAbove c hc k hk hk2
  shares := by
    have hmax := h.tMax_le
    refine ⟨h.shares.countLe, fun i hi hi2 => ?_⟩
    rw [State.shm_setCoeffs (s := s.setDeg b t) h.build b j i vs (by omega)]
    exact h.shares.zeroAbove i hi hi2
  memory := h.memory.of_outside rfl (Memory.writeSlots_wf h.memory.wf _ _ _) fun a ha =>
    Memory.read_writeSlots_outside _ _ fun i hi => by
      have := outside_coeff_of_not_owned ha hb (j := j + i) (by omega)
      simp only [coeffAddr, State.setDeg_build] at this ⊢
      omega
  status := ⟨h.status.err, h.status.inf, h.status.busy, h.status.inReset⟩

/-- A bank written whole with t + 1 coefficients (PRAND, SHARE). -/
theorem State.Inv.setBank {s : State} (h : s.Inv) {b : Bank} (hb : b.val < s.build.nPoly) {t : Nat} {cs : List Nat}
    (ht : t ≤ s.build.tMax) (hlen : cs.length = t + 1) : (s.setBank b t cs).Inv := by
  refine h.setDeg_setCoeffs hb ht (Nat.zero_le _) (by simp; omega) fun k hk htk => ?_
  rw [List.getElem_append_right (by omega), List.getElem_replicate]

/-- A degree bound set and the coefficients above it zeroed (PSDEG). -/
theorem State.Inv.truncateBank {s : State} (h : s.Inv) {b : Bank} (hb : b.val < s.build.nPoly) {t : Nat}
    (ht : t ≤ s.build.tMax) :
    ((s.setDeg b t).setCoeffs b (t + 1) (List.replicate (s.build.tMax - t) 0)).Inv :=
  h.setDeg_setCoeffs hb ht le_rfl (by simp; omega) fun _ _ _ => List.getElem_replicate _

/-- The share memory written whole, with zeros above the new count. -/
theorem State.Inv.setShares {s : State} (h : s.Inv) {n : Nat} {vs : List Nat} (hn : n ≤ s.build.nMax)
    (hlen : vs.length = s.build.nMax) (hzero : ∀ i (hi : i < vs.length), n ≤ i → vs[i] = 0) :
    (s.setShares n vs).Inv where
  build := h.build
  values := ⟨h.values.scalars, h.values.points, h.values.config⟩
  banks := by
    have hmax := h.tMax_le
    refine ⟨h.banks.degLe, fun c hc k hk (hk2 : k ≤ s.build.tMax) => ?_⟩
    rw [State.coeff_setShares h.build n vs c (by omega)]
    exact h.banks.zeroAbove c hc k hk hk2
  shares := by
    refine ⟨hn, fun i (hi : n < i) (hi2 : i ≤ s.build.nMax) => ?_⟩
    obtain ⟨k, rfl⟩ : ∃ k, i = k + 1 := ⟨i - 1, by omega⟩
    have hk : k < vs.length := by omega
    rw [State.shm_setShares h.build h.memory.wf n vs k hk, hzero k hk (by omega), Nat.zero_mod]
  memory := h.memory.of_outside rfl (Memory.writeSlots_wf h.memory.wf _ _ _) fun a ha =>
    Memory.read_writeSlots_outside _ _ fun i hi => by
      have := outside_share_of_not_owned ha (i := i + 1) (by omega) (by omega)
      simp only [shareAddr] at this ⊢
      omega
  status := ⟨h.status.err, h.status.inf, h.status.busy, h.status.inReset⟩

/-- What SHARE writes: a bank of n/2 draws, then its evaluations. -/
theorem State.Inv.shareBank {s : State} (h : s.Inv) {b : Bank} (hb : b.val < s.build.nPoly) {n : Nat}
    (hn : n ≤ s.build.nMax) (M : Nat) : (s.shareBank b n M).Inv := by
  obtain ⟨-, -, ⟨-, -, -, hnt⟩, -⟩ := h.build
  exact (h.draws M _).setBank (by rwa [draws_build]) (by rw [draws_build]; omega) (draws_length M _ s)

theorem State.shareBank_build (s : State) (b : Bank) (n M : Nat) : (s.shareBank b n M).build = s.build := by
  rw [State.shareBank, State.setBank_build, draws_build]

theorem State.shareBank_resetLine (s : State) (b : Bank) (n M : Nat) : (s.shareBank b n M).resetLine = s.resetLine := by
  rw [State.shareBank, State.setBank_resetLine, draws_resetLine]

theorem State.Inv.setShareValues {s : State} (h : s.Inv) {n : Nat} (hn : n ≤ s.build.nMax) (b : Bank) (M : Nat) :
    (s.setShares n (s.shareValues b n M)).Inv :=
  h.setShares hn (by simp [State.shareValues]) fun i hi hni => by simp [State.shareValues, hni]

/-! ## The life cycle of a command, and reset -/

theorem State.Inv.complete {s : State} (h : s.Inv) (hr : s.resetLine = false) (e : ECode) (inf : Bool) :
    (s.complete e inf).Inv := by
  refine h.withStatus (l := s.resetLine) ⟨rfl, fun hinf => ?_, fun hidle => absurd rfl hidle, fun hl => ?_⟩
  · simp only [Status.completed, Bool.and_eq_true, decide_eq_true_eq] at hinf
    exact hinf.2
  · exact absurd hl (by simp [hr])

theorem State.Inv.accept {s : State} (h : s.Inv) (hr : s.resetLine = false) (v : Word) : (s.accept v).Inv :=
  (h.withStatus (f := s.status.accepted) (p := .inFlight) (l := s.resetLine)
    ⟨rfl, fun _ => rfl, fun _ => ⟨rfl, rfl, rfl⟩, fun hl => absurd hl (by simp [hr])⟩).withUnconstrained
      s.ctrl v s.inputs s.response s.oracle s.freeIx

theorem State.Inv.endInit {s : State} (h : s.Inv) (hr : s.resetLine = false) : s.endInit.Inv :=
  h.withStatus (f := s.status) (p := .idle) (l := s.resetLine)
    ⟨h.status.err, h.status.inf, fun hidle => absurd rfl hidle, fun hl => absurd hl (by simp [hr])⟩

theorem State.Inv.releaseReset {s : State} (h : s.Inv) : s.releaseReset.Inv := by
  unfold State.releaseReset
  split
  · next hl =>
    have hbusy : s.phase ≠ .idle := by simp [h.status.inReset hl]
    exact h.withStatus ⟨h.status.err, h.status.inf, fun _ => h.status.busy hbusy, by simp⟩
  · exact h

/-- A host write of STATUS, or a dropped write that sets OVR, leaves ERR, INF and ECODE and clears DONE at most. -/
theorem State.Inv.withDoneOvr {s : State} (h : s.Inv) {d : Bool} (hd : s.status.done = false → d = false) (o : Bool) :
    ({ s with status := { s.status with done := d, ovr := o } } : State).Inv :=
  h.withStatus (p := s.phase) (l := s.resetLine) ⟨h.status.err, h.status.inf, fun hbusy =>
    have ⟨hdone, hecode, hinf⟩ := h.status.busy hbusy
    ⟨hd hdone, hecode, hinf⟩, h.status.inReset⟩

theorem State.Inv.overrun {s : State} (h : s.Inv) : ({ s with status := s.status.overrun } : State).Inv :=
  h.withDoneOvr id true

theorem Memory.readLE_empty (n a : Nat) : ({ cells := [] } : Memory).readLE n a = 0 := by
  induction n generalizing a with
  | zero => rfl
  | succ n ih => rw [Memory.readLE, ih, Memory.read_empty]; rfl

/-- The invariant holds when reset is released, and (with the reset input set) while it is asserted. -/
theorem inv_resetOf {b : Build} (hb : b.Valid) : (State.resetOf b).Inv where
  build := hb
  values := by
    refine ⟨fun i => ?_, fun i c => ?_, fun c => ?_⟩
    · simp [State.resetOf, State.getS]
    · cases c <;> simp [State.resetOf, State.getPR, Point.coord]
    · cases c <;> simp [State.resetOf, Cfg.reset, Cfg.get]
  banks := by
    refine ⟨fun b => ?_, fun b _ j _ _ => ?_⟩
    · simp [State.resetOf, State.getDeg]
    · exact Memory.readLE_empty _ _
  shares := ⟨Nat.zero_le _, fun _ _ _ => Memory.readLE_empty _ _⟩
  memory := ⟨rfl, fun a ha => absurd (Memory.read_empty a) ha⟩
  status := ⟨rfl, fun _ => rfl, fun _ => ⟨rfl, rfl, rfl⟩, fun _ => rfl⟩

theorem State.Inv.assertReset {s : State} (h : s.Inv) : s.assertReset.Inv := by
  have hr := inv_resetOf h.build
  exact (hr.withStatus (f := (State.resetOf s.build).status) (p := .initialising) (l := true)
    ⟨rfl, fun _ => rfl, fun _ => ⟨rfl, rfl, rfl⟩, fun _ => rfl⟩).withUnconstrained
      (State.resetOf s.build).ctrl 0 s.inputs s.response s.oracle s.freeIx

/-! ## Commands -/

theorem fieldMod_lt {s : State} (h : s.Inv) (m : FieldMod) : s.fieldMod m < 2 ^ s.build.w := by
  cases m
  exacts [h.values.config .p, h.values.config .q, h.values.config .r]

/-- Every command keeps the invariant: each kind of success composes operations that keep it. -/
theorem State.Inv.exec {s t : State} (h : s.Inv) (hr : s.resetLine = false) {i : Instr} (he : exec i s = .next t) :
    t.Inv := by
  have finish : ∀ {u : State} {inf : Bool}, u.Inv → u.resetLine = s.resetLine →
      Machine.exec i s = succeed inf u → t.Inv := by
    intro u inf hu hur hiu
    rw [hiu, succeed_next] at he
    exact he ▸ hu.complete (hur.trans hr) .none inf
  rcases exec_cases i s with
    ⟨e, -, hi⟩ | ⟨-, hi⟩ | ⟨rd, v, -, -, hv, hi⟩ | ⟨rd, pt, -, hpt, hi⟩ | ⟨rd, pt, -, hpt, hi⟩ |
    ⟨rd, re, ra, b, x, -, -, hp, hx, hi⟩ | ⟨m, rd, -, hm, hi⟩ | hbank | ⟨m, b, ra, -, hb, -, -, hn, -, hi⟩
  · -- an error
    rw [hi, raiseError_next] at he
    exact he ▸ h.complete hr e false
  · -- NOP
    exact finish h rfl hi
  · -- a scalar register
    exact finish (h.setS rd (hv h)) rfl hi
  · -- a point register
    exact finish (h.setPR rd (hpt h)) rfl hi
  · -- an affine point and INF
    exact finish (h.setPR rd (hpt h)) rfl hi
  · -- LADDER
    have hlt := ladder_lt hp hx s.coeffA24 (s.getS ra)
    have fit : ∀ a : XZ, a.x < s.cfg.p ∧ a.z < s.cfg.p → ∀ c, a.toPoint.coord c < 2 ^ s.build.w :=
      fun a ha c => (XZ.toPoint_lt (by omega) ha c).trans (h.values.config .p)
    exact finish ((h.setPR rd (fit _ hlt.1)).setPR re (fit _ hlt.2)) rfl hi
  · -- FRAND
    have hdraw : s.draw (s.fieldMod m) < 2 ^ s.afterAnswer.build.w := by
      rw [State.afterAnswer_build]
      exact (s.draw_lt (by omega)).trans (fieldMod_lt h m)
    exact finish (h.afterAnswer.setS rd hdraw) s.afterAnswer_resetLine hi
  · -- PRAND, PCSET, PSDEG
    rcases hbank with
      ⟨m, b, ra, -, hb, -, ht, hi⟩ | ⟨m, b, ra, rb, -, hb, -, hj, hi⟩ | ⟨b, ra, -, hb, ht, hi⟩
    · exact finish ((h.draws _ _).setBank (by rwa [draws_build]) (by rwa [draws_build]) (draws_length _ _ s))
        (by rw [State.setBank_resetLine, draws_resetLine]) hi
    · exact finish (h.setCoeff hb hj _) rfl hi
    · exact finish (h.truncateBank hb ht) rfl hi
  · -- SHARE
    have hn' : s.getS ra ≤ (s.shareBank b (s.getS ra) (s.scalarMod m)).build.nMax := by rwa [State.shareBank_build]
    exact finish ((h.shareBank hb hn _).setShareValues hn' b _)
      (by rw [State.setShares_resetLine, State.shareBank_resetLine]) hi

/-- The engine's turn keeps the invariant. -/
theorem State.Inv.engineTurn {s t : State} (h : s.Inv) (he : engineTurn s = .next t) : t.Inv := by
  rcases engineTurn_cases s with ⟨-, hs⟩ | ⟨hr, -, hs⟩ | ⟨hr, -, i, -, hs⟩ | ⟨hr, -, e, -, hs⟩ <;> rw [hs] at he
  · cases he
    exact h
  · cases he
    exact h.endInit hr
  · exact h.exec hr he
  · rw [raiseError_next] at he
    exact he ▸ h.complete hr .illegal false

/-! ## Bus accesses -/

theorem controlLoc_ne_data (off : Nat) (l : DataLoc) (i : Nat) : controlLoc off ≠ .data l i := by
  unfold controlLoc
  iterate 11 refine iteInduction (motive := (· ≠ Loc.data l i)) (fun _ => nofun) fun _ => ?_
  exact nofun

/-- A data location that the address map names is one the build has (20_memory.md R62). -/
theorem locPresent_of_locate {b : Build} {off : Nat} {l : DataLoc} {i : Nat} (h : locate b off = .data l i) :
    locPresent b l = true := by
  unfold locate at h
  split at h
  · exact absurd h (controlLoc_ne_data off l i)
  · split at h
    · next l' hl' =>
      obtain ⟨rfl, -⟩ := Loc.data.inj h
      unfold slotAt at hl'
      split_ifs at hl' with h1 h2 h3 h4 h5 h6
      · obtain ⟨c, -, rfl⟩ := Option.map_eq_some_iff.1 hl'
        rfl
      · cases hl'
        rfl
      · obtain ⟨c, -, rfl⟩ := Option.map_eq_some_iff.1 hl'
        rfl
      · cases hl'
        simpa [locPresent] using h5
      · cases hl'
        simpa [locPresent] using h6.2.2
    · cases h

theorem dataValue_lt {s : State} (h : s.Inv) (l : DataLoc) : s.dataValue l < 2 ^ s.build.w := by
  cases l with
  | cfg c => exact h.values.config c
  | scalar i => exact h.values.scalars i
  | point i c => exact h.values.points i c
  | coeff b j => exact State.coeff_lt h.build b j
  | share i => exact State.shm_lt h.build i

/-- A value with one of its W/32 words replaced still fits W bits. -/
theorem withWord_lt_of_lt {b : Build} (hb : b.Valid) {v i : Nat} (x : Word) (hi : i < valueWords b)
    (hv : v < 2 ^ b.w) : withWord v i x < 2 ^ b.w := by
  have hw : 32 * valueWords b = b.w := Nat.mul_div_cancel' (Nat.dvd_of_mod_eq_zero hb.1.1)
  rw [← hw] at hv ⊢
  exact withWord_lt x hi hv

/-- A data location of the build that the host may write, written with a value that fits. -/
theorem State.Inv.setData {s : State} (h : s.Inv) {l : DataLoc} (hl : locPresent s.build l = true)
    (hw : s.hostMayWrite l = true) {v : Nat} (hv : v < 2 ^ s.build.w) : (s.setData v l).Inv := by
  cases l with
  | cfg c => exact h.setCfg c hv
  | scalar i => exact h.setS i hv
  | point i c =>
    refine h.setPR i fun d => ?_
    by_cases hd : d = c
    · rwa [hd, Point.coord_withCoord_same]
    · rw [Point.coord_withCoord_ne _ v hd]
      exact h.values.points i d
  | coeff b j => exact h.setCoeff (of_decide_eq_true hl).1 (of_decide_eq_true hw) v
  | share _ => exact h

theorem State.Inv.writeData {s : State} (h : s.Inv) {l : DataLoc} (hl : locPresent s.build l = true) (i : Nat)
    (v : Word) : (s.writeData l i v).Inv := by
  rcases writeData_cases s l i v with ⟨-, he⟩ | ⟨-, hw, hi, he⟩ | ⟨-, -, he⟩ <;> rw [he]
  · exact h.overrun
  · exact h.setData hl hw (withWord_lt_of_lt h.build v hi (dataValue_lt h l))
  · exact h

theorem State.Inv.writeCmd {s : State} (h : s.Inv) (hr : s.resetLine = false) (v : Word) : (s.writeCmd v).Inv := by
  rcases writeCmd_cases s v with ⟨-, he⟩ | ⟨-, he⟩ <;> rw [he]
  · exact h.overrun
  · exact h.accept hr v

theorem State.Inv.hostWrite {s : State} (h : s.Inv) (hr : s.resetLine = false) (off : Nat) (v : Word) :
    (s.hostWrite off v).Inv := by
  unfold State.hostWrite
  cases hloc : locate s.build off with
  | ctrl => exact h.withUnconstrained (s.ctrl.written v) s.cmd s.inputs s.response s.oracle s.freeIx
  | status => exact h.withDoneOvr (fun hd => by rw [hd, Bool.false_and]) _
  | cmd => exact h.writeCmd hr v
  | data l i => exact h.writeData (locPresent_of_locate hloc) i v
  | _ => exact h

theorem State.Inv.hostRead {s : State} (h : s.Inv) (off : Nat) : (s.hostRead off).Inv := by
  rcases hostRead_cases s off with ⟨-, -, he⟩ | ⟨-, he⟩ <;> rw [he] <;>
    exact h.withUnconstrained s.ctrl s.cmd s.inputs _ s.oracle _

/-- A bus access has the invariant when what it does out of reset has it. -/
theorem inv_of_busAccess {s t : State} {addr size : Nat} {act : State → Nat → State}
    (hact : s.resetLine = false → ∀ off, (act s off).Inv) (he : busAccess addr size act s = .next t) : t.Inv := by
  rcases busAccess_cases addr size act s with ⟨-, hs⟩ | ⟨-, -, hs⟩ | ⟨-, -, -, hs⟩ | ⟨-, hr, -, hs⟩ <;> rw [hs] at he <;>
    cases he
  exact hact hr _

/-! ## Steps -/

theorem State.Inv.takeInput {s t : State} (h : s.Inv) {e : Input} (he : takeInput e s = .next t) : t.Inv := by
  cases e with
  | read addr size => exact inv_of_busAccess (fun _ => h.hostRead) he
  | write addr size v =>
    exact inv_of_busAccess (act := fun u off => u.hostWrite off v) (fun hr off => h.hostWrite hr off v) he
  | engine => exact h.engineTurn he
  | assertReset =>
    cases he
    exact h.assertReset
  | releaseReset =>
    cases he
    exact h.releaseReset

/-- Settles O45: a step is the engine's turn or one input, and each keeps the invariant. -/
theorem everyStepKeepsTheInvariant : Obligations.EveryStepKeepsTheInvariant := by
  intro s t h he
  rcases step_cases s with ⟨-, hs⟩ | ⟨e, es, -, hs⟩ <;> rw [hs] at he
  · exact h.engineTurn he
  · exact (h.withUnconstrained s.ctrl s.cmd es s.response s.oracle s.freeIx).takeInput he

end Sys2Proof.Machine
end

section
/-! SUPPORT. The field commands of two operands: what they write, for a modulus of at least 2. -/

namespace Sys2Proof.Machine

/-- The field template writes `f` of the reduced operands and nothing else (40_field.md R120). -/
theorem fieldBinary_wroteScalar (f : Nat → Nat → Nat → Nat) {m : FieldMod} {s : State} (hM : 2 ≤ s.fieldMod m)
    (rd ra rb : SReg) :
    ∃ t, fieldBinary f m rd ra rb s = .next t ∧
      WroteScalar s t rd (f (s.getS ra % s.fieldMod m) (s.getS rb % s.fieldMod m) (s.fieldMod m)) := by
  rw [fieldBinary_eq, if_neg (by omega)]
  exact wroteScalar_succeed s rd _

/-- The reduced difference gives the minuend back when the subtrahend is added (40_field.md R122). -/
theorem modZ_sub_add_mod (a b : Nat) {M : Nat} (hM : 0 < M) :
    (modZ (((a % M : Nat) : Int) - ((b % M : Nat) : Int)) M + b) % M = a % M := by
  apply (ZMod.natCast_eq_natCast_iff' _ _ M).1
  rw [Nat.cast_add, modZ_zmod _ hM]
  simp

theorem fieldOps_wroteScalar {m : FieldMod} {s : State} (hM : 2 ≤ s.fieldMod m) (rd ra rb : SReg) :
    (∃ t, exec (.fadd m rd ra rb) s = .next t ∧
      WroteScalar s t rd ((s.getS ra + s.getS rb) % s.fieldMod m)) ∧
    (∃ t v, exec (.fsub m rd ra rb) s = .next t ∧ WroteScalar s t rd v ∧ v < s.fieldMod m ∧
      (v + s.getS rb) % s.fieldMod m = s.getS ra % s.fieldMod m) ∧
    (∃ t, exec (.fmul m rd ra rb) s = .next t ∧
      WroteScalar s t rd (s.getS ra * s.getS rb % s.fieldMod m)) := by
  have hpos : 0 < s.fieldMod m := by omega
  refine ⟨?_, ?_, ?_⟩
  · rw [Nat.add_mod]
    exact fieldBinary_wroteScalar (fun a b M => (a + b) % M) hM rd ra rb
  · obtain ⟨t, ht, hw⟩ := fieldBinary_wroteScalar (fun a b M => modZ ((a : Int) - (b : Int)) M) hM rd ra rb
    exact ⟨t, _, ht, hw, modZ_lt _ hpos, modZ_sub_add_mod _ _ hpos⟩
  · rw [Nat.mul_mod]
    exact fieldBinary_wroteScalar (fun a b M => a * b % M) hM rd ra rb

/-- Settles O14: the suffix names CFG.P, CFG.Q or CFG.R, and the field template writes the operation on it. -/
theorem faddFsubFmulResults : Obligations.FaddFsubFmulResults := by
  intro m rd ra rb s
  cases m
  · exact fun hM => fieldOps_wroteScalar (m := .p) hM rd ra rb
  · exact fun hM => fieldOps_wroteScalar (m := .q) hM rd ra rb
  · exact fun hM => fieldOps_wroteScalar (m := .r) hM rd ra rb

end Sys2Proof.Machine
end

section
/-! SUPPORT. What a command writes: the state with its destinations written, said once for every command, and from it
the frames of 10_state.md R21, R27, R30, R31, R36 and R38. -/

namespace Sys2Proof.Machine

/-! ## Bytes outside a bank and outside the shares -/

/-- Byte `a` is in no coefficient of bank `b` (20_memory.md R62). -/
def OutsideBank (bd : Build) (b : Bank) (a : Nat) : Prop :=
  ∀ j : Nat, j ≤ bd.tMax → a < coeffAddr b j ∨ coeffAddr b j + valueBytes bd ≤ a

/-- Byte `a` is in no share (20_memory.md R62). -/
def OutsideShares (bd : Build) (a : Nat) : Prop :=
  ∀ k : Nat, 1 ≤ k → k ≤ bd.nMax → a < shareAddr k ∨ shareAddr k + valueBytes bd ≤ a

theorem State.read_setCoeff_outside {s : State} {b : Bank} {j a : Nat} (v : Nat) (hj : j ≤ s.build.tMax)
    (ha : OutsideBank s.build b a) : (s.setCoeff b j v).mem.read a = s.mem.read a :=
  Memory.read_writeLE_outside _ _ (ha j hj)

theorem State.read_setCoeffs_outside {s : State} {b : Bank} {j a : Nat} {vs : List Nat}
    (hlen : j + vs.length ≤ s.build.tMax + 1) (ha : OutsideBank s.build b a) :
    (s.setCoeffs b j vs).mem.read a = s.mem.read a :=
  Memory.read_writeSlots_outside _ _ fun i hi => by
    have := ha (j + i) (by omega)
    simp only [coeffAddr] at this ⊢
    omega

theorem State.read_setBank_outside {s : State} {b : Bank} {t a : Nat} {cs : List Nat} (ht : t ≤ s.build.tMax)
    (hlen : cs.length = t + 1) (ha : OutsideBank s.build b a) : (s.setBank b t cs).mem.read a = s.mem.read a :=
  State.read_setCoeffs_outside (s := s.setDeg b t) (by simp; omega) ha

theorem State.read_setShares_outside {s : State} (n : Nat) {a : Nat} {vs : List Nat}
    (hlen : vs.length = s.build.nMax) (ha : OutsideShares s.build a) :
    (s.setShares n vs).mem.read a = s.mem.read a :=
  Memory.read_writeSlots_outside _ _ fun i hi => by
    have := ha (i + 1) (by omega) (by omega)
    simp only [shareAddr] at this ⊢
    omega

/-- The draws of SHARE fit a bank of a valid build (00_scope.md R6, 44_shamir.md R201). -/
theorem Valid.shareDegree_le {bd : Build} (h : bd.Valid) {n : Nat} (hn : n ≤ bd.nMax) : n / 2 - 1 ≤ bd.tMax := by
  obtain ⟨-, -, ⟨-, -, -, hnt⟩, -⟩ := h
  omega

/-! ## The destinations of a command -/

/-- `u` is `s` with destinations of command `i` written, before the completion: nothing, or what the kind of the command
writes. `o` and `k` are the random source's fields after the draws. -/
inductive DestsWritten (s : State) : Instr → State → Prop
  | nothing (i : Instr) : DestsWritten s i s
  | scalar {i : Instr} {rd : SReg} (v : Nat) (hrd : scalarDest i = some rd) :
      DestsWritten s i (s.setS rd v)
  | point {i : Instr} {rd : PReg} (pt : Point) (hrd : rd ∈ pointDests i) :
      DestsWritten s i (s.setPR rd pt)
  | ladder (rd re : PReg) (ra : SReg) (base : PSrc) (pt qt : Point) :
      DestsWritten s (.ladder rd re ra base) ((s.setPR rd pt).setPR re qt)
  | frand (m : FieldMod) (rd : SReg) (v : Nat) (o : List Nat) (k : Nat) :
      DestsWritten s (.frand m rd) (({ s with oracle := o, freeIx := k } : State).setS rd v)
  | prand (m : ScalarMod) (b : Bank) (ra : SReg) {cs : List Nat} (o : List Nat) (k : Nat)
      (ht : s.getS ra ≤ s.build.tMax) (hcs : cs.length = s.getS ra + 1) :
      DestsWritten s (.prand m b ra) (({ s with oracle := o, freeIx := k } : State).setBank b (s.getS ra) cs)
  | pcset (m : ScalarMod) (b : Bank) (ra rb : SReg) (v : Nat) (hj : s.getS ra ≤ s.getDeg b) :
      DestsWritten s (.pcset m b ra rb) (s.setCoeff b (s.getS ra) v)
  | psdeg (b : Bank) (ra : SReg) (ht : s.getS ra ≤ s.build.tMax) :
      DestsWritten s (.psdeg b ra) ((s.setDeg b (s.getS ra)).setCoeffs b (s.getS ra + 1)
        (List.replicate (s.build.tMax - s.getS ra) 0))
  | share (m : ScalarMod) (b : Bank) (ra : SReg) {cs vs : List Nat} (o : List Nat) (k : Nat)
      (hn : s.getS ra ≤ s.build.nMax) (hcs : cs.length = s.getS ra / 2 - 1 + 1) (hvs : vs.length = s.build.nMax) :
      DestsWritten s (.share m b ra)
        ((({ s with oracle := o, freeIx := k } : State).setBank b (s.getS ra / 2 - 1) cs).setShares (s.getS ra) vs)

/-- Every command writes destinations of its own, or nothing, and completes (60_exceptions.md R226). -/
theorem exec_destsWritten {i : Instr} {s t : State} (h : exec i s = .next t) :
    ∃ u e inf, DestsWritten s i u ∧ t = u.complete e inf := by
  have finish : ∀ {u : State} {inf : Bool}, exec i s = succeed inf u → DestsWritten s i u →
      ∃ u e inf, DestsWritten s i u ∧ t = u.complete e inf := by
    intro u inf hi hu
    rw [hi, succeed_next] at h
    exact ⟨u, .none, inf, hu, h.symm⟩
  have drawn : ∀ M n, ∃ o k, (State.draws M n s).2 = { s with oracle := o, freeIx := k } :=
    fun M n => ⟨_, _, draws_state M n s⟩
  rcases exec_cases i s with
    ⟨e, -, hi⟩ | ⟨-, hi⟩ | ⟨rd, v, hrd, -, -, hi⟩ | ⟨rd, pt, hkind, -, hi⟩ | ⟨rd, pt, hkind, -, hi⟩ |
    ⟨rd, re, ra, b, x, rfl, -, -, -, hi⟩ | ⟨m, rd, rfl, -, hi⟩ | hbank | ⟨m, b, ra, rfl, -, -, -, hn, -, hi⟩
  · -- an error
    rw [hi, raiseError_next] at h
    exact ⟨s, e, false, .nothing i, h.symm⟩
  · -- NOP
    exact finish hi (.nothing i)
  · -- a scalar register
    exact finish hi (.scalar v hrd)
  · -- PPUT, XADD, XDBL
    refine finish hi (.point pt ?_)
    rcases hkind with ⟨c, ra, rfl⟩ | ⟨p, q, d, rfl⟩ | ⟨p, rfl⟩ <;> simp [pointDests]
  · -- RECOV, SMUL
    refine finish hi (.point pt.toPoint ?_)
    rcases hkind with ⟨b, k, k1, rfl⟩ | ⟨ra, b, rfl⟩ <;> simp [pointDests]
  · -- LADDER
    exact finish hi (.ladder rd re ra b _ _)
  · -- FRAND
    rw [State.afterAnswer_state] at hi
    exact finish hi (.frand m rd _ _ _)
  · -- PRAND, PCSET, PSDEG
    rcases hbank with
      ⟨m, b, ra, rfl, -, -, ht, hi⟩ | ⟨m, b, ra, rb, rfl, -, -, hj, hi⟩ | ⟨b, ra, rfl, -, ht, hi⟩
    · obtain ⟨o, k, hd⟩ := drawn (s.scalarMod m) (s.getS ra + 1)
      rw [hd] at hi
      exact finish hi (.prand m b ra o k ht (draws_length _ _ s))
    · exact finish hi (.pcset m b ra rb _ hj)
    · exact finish hi (.psdeg b ra ht)
  · -- SHARE
    obtain ⟨o, k, hd⟩ := drawn (s.scalarMod m) (s.getS ra / 2 - 1 + 1)
    have hvs : ((s.shareBank b (s.getS ra) (s.scalarMod m)).shareValues b (s.getS ra) (s.scalarMod m)).length =
        s.build.nMax := by
      simp [State.shareValues, State.shareBank_build]
    generalize State.shareValues _ b _ _ = vs at hi hvs
    rw [State.shareBank, hd] at hi
    exact finish hi (.share m b ra o k hn (draws_length _ _ s) hvs)

/-! ## Frames of the destinations -/

namespace DestsWritten

variable {i : Instr} {s u : State}

theorem getS_eq (h : DestsWritten s i u) {r : SReg} (hr : scalarDest i ≠ some r) : u.getS r = s.getS r := by
  cases h with
  | scalar v hrd => exact State.getS_setS_ne _ _ fun e => hr (e ▸ hrd)
  | frand m rd v o k => exact State.getS_setS_ne _ _ fun e => hr (congrArg some e.symm)
  | _ => rfl

theorem getPR_eq (h : DestsWritten s i u) {r : PReg} (hr : r ∉ pointDests i) : u.getPR r = s.getPR r := by
  cases h with
  | point pt hrd => exact State.getPR_setPR_ne _ _ fun e => hr (e ▸ hrd)
  | ladder rd re ra base pt qt =>
    simp only [pointDests, List.mem_cons, List.not_mem_nil, or_false, not_or] at hr
    rw [State.getPR_setPR_ne _ _ hr.2, State.getPR_setPR_ne _ _ hr.1]
  | _ => rfl

theorem banksFrame (h : DestsWritten s i u) (hb : bankDest i = none) : BanksFrame s u := by
  cases h with
  | prand | pcset | psdeg | share => cases hb
  | _ => exact ⟨fun _ => rfl, fun _ => rfl, rfl⟩

theorem randomFrame (h : DestsWritten s i u) (hi : takesDraws i = false) : RandomFrame s u := by
  cases h with
  | frand | prand | share => cases hi
  | _ => exact ⟨rfl, rfl⟩

theorem controlFrame (h : DestsWritten s i u) : ControlFrame s u := by
  cases h <;> exact ⟨rfl, rfl, rfl, rfl, rfl, rfl, rfl⟩

theorem getDeg_eq (h : DestsWritten s i u) {b c : Bank} (hb : bankDest i = some b) (hc : c ≠ b) :
    u.getDeg c = s.getDeg c := by
  cases h with
  | prand m b' ra o k ht hcs =>
    cases hb
    exact State.getDeg_setBank_ne _ _ _ hc
  | psdeg b' ra ht =>
    cases hb
    exact State.getDeg_setDeg_ne _ _ hc
  | share m b' ra o k hn hcs hvs =>
    cases hb
    rw [State.setShares_getDeg]
    exact State.getDeg_setBank_ne _ _ _ hc
  | _ => rfl

theorem read_eq (h : DestsWritten s i u) (hs : s.Inv) {b : Bank} (hb : bankDest i = some b) {a : Nat}
    (ha : OutsideBank s.build b a) (hsh : (∃ m c ra, i = .share m c ra) → OutsideShares s.build a) :
    u.mem.read a = s.mem.read a := by
  cases h with
  | prand m b' ra o k ht hcs =>
    cases hb
    exact State.read_setBank_outside (s := { s with oracle := o, freeIx := k }) ht hcs ha
  | pcset m b' ra rb v hj =>
    cases hb
    exact State.read_setCoeff_outside v (hj.trans (hs.banks.degLe b)) ha
  | psdeg b' ra ht =>
    cases hb
    exact State.read_setCoeffs_outside (s := s.setDeg b (s.getS ra)) (by simp; omega) ha
  | share m b' ra o k hn hcs hvs =>
    cases hb
    refine (State.read_setShares_outside _ ?_ ?_).trans
      (State.read_setBank_outside (s := { s with oracle := o, freeIx := k }) (Valid.shareDegree_le hs.build hn) hcs ha)
    exacts [hvs, hsh ⟨m, b, ra, rfl⟩]
  | _ => rfl

/-- Only SHARE writes the shares and their count (10_state.md R31). -/
theorem shares_eq (h : DestsWritten s i u) (hs : s.Inv) (hi : ¬∃ m c ra, i = .share m c ra) :
    u.shareN = s.shareN ∧ ∀ k, u.shm k = s.shm k := by
  have hmax := hs.tMax_le
  cases h with
  | prand m b ra o n ht hcs =>
    exact ⟨rfl, State.shm_setBank (s := { s with oracle := o, freeIx := n }) hs.build b hcs ht⟩
  | pcset m b ra rb v hj =>
    have := hs.banks.degLe b
    exact ⟨rfl, fun k => State.shm_setCoeff hs.build b k v (by omega)⟩
  | psdeg b ra ht =>
    exact ⟨rfl, fun k => State.shm_setCoeffs (s := s.setDeg b (s.getS ra)) hs.build b _ k _ (by simp; omega)⟩
  | share m b ra => exact absurd ⟨m, b, ra, rfl⟩ hi
  | _ => exact ⟨rfl, fun _ => rfl⟩

end DestsWritten

/-! ## Frames of a command -/

/-- No command writes CTRL, CMD, the configuration or the build (10_state.md R36, R38). -/
theorem exec_controlFrame {i : Instr} {s t : State} (h : exec i s = .next t) : ControlFrame s t := by
  obtain ⟨u, e, inf, hu, rfl⟩ := exec_destsWritten h
  obtain ⟨hcfg, hctrl, hcmd, hreset, hbuild, hinputs, hresponse⟩ := hu.controlFrame
  exact ⟨hcfg, hctrl, hcmd, hreset, hbuild, hinputs, hresponse⟩

/-- Settles O10: completion touches only STATUS and the phase, so the frames are those of the destinations written. -/
theorem commandsWriteOnlyTheirDestinations : Obligations.CommandsWriteOnlyTheirDestinations := by
  intro i s t h
  have hcontrol := exec_controlFrame h
  obtain ⟨u, e, inf, hu, rfl⟩ := exec_destsWritten h
  refine ⟨fun r => hu.getS_eq, fun r => hu.getPR_eq, fun hb => ?_, fun b hb hs => ⟨fun c => hu.getDeg_eq hb,
    fun a => hu.read_eq hs hb, fun hi => ?_⟩, fun hi => ?_, hcontrol⟩
  · obtain ⟨hdeg, hbytes, hshareN⟩ := hu.banksFrame hb
    exact ⟨hdeg, hbytes, hshareN⟩
  · obtain ⟨hshareN, hshm⟩ := hu.shares_eq hs hi
    exact ⟨hshareN, fun k _ _ => hshm k⟩
  · obtain ⟨horacle, hfreeIx⟩ := hu.randomFrame hi
    exact ⟨horacle, hfreeIx⟩

end Sys2Proof.Machine
end

section
/-! SUPPORT. What a step does: the engine's turn, a host read, a host write or a reset edge, each with the state it
leaves. From it, what no step changes: the build, the locked configuration (10_state.md R35), the shares (R31). -/

namespace Sys2Proof.Machine

/-! ## Host accesses -/

/-- A read changes the bus word and the count of free values at most (20_memory.md R69, R70). -/
theorem State.hostRead_state (s : State) (off : Nat) :
    s.hostRead off = { s with response := (s.hostRead off).response, freeIx := (s.hostRead off).freeIx } := by
  rcases hostRead_cases s off with ⟨-, -, he⟩ | ⟨-, he⟩ <;> rw [he]

theorem State.busy_eq_false_iff {s : State} : s.busy = false ↔ s.phase = .idle := by
  simp [State.busy]

/-- What a host write does: nothing, a write of CTRL or STATUS, a dropped write, an acceptance, or a data location
written that the host may write. -/
theorem hostWrite_cases (s : State) (off : Nat) (v : Word) :
    s.hostWrite off v = s ∨
    s.hostWrite off v = { s with ctrl := s.ctrl.written v } ∨
    s.hostWrite off v = { s with status := s.status.written v } ∨
    s.hostWrite off v = { s with status := s.status.overrun } ∨
    (s.phase = .idle ∧ s.hostWrite off v = s.accept v) ∨
    (∃ l w, s.hostMayWrite l = true ∧ s.hostWrite off v = s.setData w l) := by
  unfold State.hostWrite
  cases locate s.build off with
  | ctrl => exact .inr (.inl rfl)
  | status => exact .inr (.inr (.inl rfl))
  | cmd =>
    rcases writeCmd_cases s v with ⟨-, he⟩ | ⟨hidle, he⟩
    · exact .inr (.inr (.inr (.inl he)))
    · exact .inr (.inr (.inr (.inr (.inl ⟨State.busy_eq_false_iff.1 hidle, he⟩))))
  | data l i =>
    rcases writeData_cases s l i v with ⟨-, he⟩ | ⟨-, hw, -, he⟩ | ⟨-, -, he⟩
    · exact .inr (.inr (.inr (.inl he)))
    · exact .inr (.inr (.inr (.inr (.inr ⟨l, _, hw, he⟩))))
    · exact .inl he
  | _ => exact .inl rfl

/-- A bus access that is answered does its action at some offset. -/
theorem eq_act_of_busAccess {s t : State} {addr size : Nat} {act : State → Nat → State}
    (h : busAccess addr size act s = .next t) : ∃ off, t = act s off := by
  rcases busAccess_cases addr size act s with ⟨-, hs⟩ | ⟨-, -, hs⟩ | ⟨-, -, -, hs⟩ | ⟨-, -, -, hs⟩ <;> rw [hs] at h <;>
    cases h
  exact ⟨_, rfl⟩

/-- Releasing reset changes the reset input and the phase at most (70_reset_and_hazards.md R251). -/
theorem State.releaseReset_state (s : State) :
    s.releaseReset = { s with resetLine := false, phase := s.releaseReset.phase } := by
  cases h : s.resetLine <;> simp [State.releaseReset, h]
  rw [← h]

/-! ## Steps -/

/-- What a step from `s` leaves, case by case; `es` is the inputs still to come. -/
inductive StepEffect (s : State) : State → Prop
  | nothing (es : List Input) : StepEffect s { s with inputs := es }
  | endInit (es : List Input) : StepEffect s ({ s with inputs := es } : State).endInit
  | command (es : List Input) (i : Instr) (t : State) (hturn : s.inputs = [] ∨ s.inputs.head? = some .engine)
      (hphase : s.phase = .inFlight) (hfetch : s.fetch = .ok i)
      (hexec : exec i ({ s with inputs := es } : State) = .next t) : StepEffect s t
  | illegal (es : List Input) (hphase : s.phase = .inFlight) :
      StepEffect s (({ s with inputs := es } : State).complete .illegal false)
  | read (es : List Input) (off : Nat) : StepEffect s (({ s with inputs := es } : State).hostRead off)
  | write (es : List Input) (off : Nat) (v : Word) : StepEffect s (({ s with inputs := es } : State).hostWrite off v)
  | assertReset (es : List Input) (hhead : s.inputs.head? = some .assertReset) :
      StepEffect s ({ s with inputs := es } : State).assertReset
  | releaseReset (es : List Input) : StepEffect s ({ s with inputs := es } : State).releaseReset

theorem engineTurn_effect {s t : State} {es : List Input} (hturn : s.inputs = [] ∨ s.inputs.head? = some .engine)
    (h : engineTurn { s with inputs := es } = .next t) : StepEffect s t := by
  rcases engineTurn_cases { s with inputs := es } with
    ⟨-, hs⟩ | ⟨-, -, hs⟩ | ⟨-, hphase, i, hfetch, hs⟩ | ⟨-, hphase, e, -, hs⟩ <;> rw [hs] at h
  · cases h
    exact .nothing es
  · cases h
    exact .endInit es
  · exact .command es i t hturn hphase hfetch h
  · cases h
    exact .illegal es hphase

theorem step_effect {s t : State} (h : step s = .next t) : StepEffect s t := by
  rcases step_cases s with ⟨hnil, hs⟩ | ⟨e, es, hcons, hs⟩ <;> rw [hs] at h
  · exact engineTurn_effect (es := s.inputs) (.inl hnil) h
  · have hhead : s.inputs.head? = some e := by rw [hcons, List.head?_cons]
    cases e with
    | read addr size =>
      obtain ⟨off, rfl⟩ := eq_act_of_busAccess h
      exact .read es off
    | write addr size v =>
      obtain ⟨off, rfl⟩ := eq_act_of_busAccess (act := fun u off => u.hostWrite off v) h
      exact .write es off v
    | engine => exact engineTurn_effect (.inr hhead) h
    | assertReset =>
      cases h
      exact .assertReset es hhead
    | releaseReset =>
      cases h
      exact .releaseReset es

/-! ## The build -/

theorem State.hostWrite_build (s : State) (off : Nat) (v : Word) : (s.hostWrite off v).build = s.build := by
  rcases hostWrite_cases s off v with he | he | he | he | ⟨-, he⟩ | ⟨l, w, -, he⟩ <;> rw [he]
  · rfl
  · exact State.setData_build s w l

theorem step_build {s t : State} (h : step s = .next t) : t.build = s.build := by
  cases step_effect h with
  | command es i _ _ _ _ hexec => exact (exec_controlFrame hexec).build
  | read es off => rw [State.hostRead_state]
  | write es off v => exact State.hostWrite_build _ off v
  | releaseReset es => rw [State.releaseReset_state]
  | _ => rfl

/-! ## The configuration lock -/

theorem CfgReg.lockable_eq (c : CfgReg) : c.lockable = decide (c ≠ .r) := by cases c <;> rfl

theorem State.hostMayWrite_cfg {s : State} {c : CfgReg} :
    s.hostMayWrite (.cfg c) = true ↔ s.ctrl.lock = false ∨ c = .r := by
  cases hl : s.ctrl.lock <;> simp [State.hostMayWrite, CfgReg.lockable_eq, hl]

/-- LOCK = 1, and the lockable registers have the values they have in `s` (10_state.md R35). -/
def LockedAs (s t : State) : Prop :=
  t.ctrl.lock = true ∧ ∀ c : CfgReg, c ≠ .r → t.cfg.get c = s.cfg.get c

theorem lockedAs_of_frame {s t : State} (hl : s.ctrl.lock = true) (hctrl : t.ctrl = s.ctrl) (hcfg : t.cfg = s.cfg) :
    LockedAs s t :=
  ⟨by rw [hctrl, hl], fun c _ => by rw [hcfg]⟩

theorem hostWrite_lockedAs {s : State} (hl : s.ctrl.lock = true) (off : Nat) (v : Word) :
    LockedAs s (s.hostWrite off v) := by
  rcases hostWrite_cases s off v with he | he | he | he | ⟨-, he⟩ | ⟨l, w, hw, he⟩ <;> rw [he]
  · exact lockedAs_of_frame hl rfl rfl
  · exact ⟨by simp [Ctrl.written, hl], fun _ _ => rfl⟩
  · exact lockedAs_of_frame hl rfl rfl
  · exact lockedAs_of_frame hl rfl rfl
  · exact lockedAs_of_frame hl rfl rfl
  · cases l with
    | cfg k =>
      have hk : k = .r := (State.hostMayWrite_cfg.1 hw).resolve_left (by simp [hl])
      exact ⟨hl, fun c hc => Cfg.get_set_ne s.cfg w (hk ▸ hc)⟩
    | _ => exact lockedAs_of_frame hl rfl rfl

/-- Once LOCK = 1 only an asserted reset clears it or changes a lockable register. -/
theorem step_lockedAs {s t : State} (h : step s = .next t) (hl : s.ctrl.lock = true)
    (hreset : s.inputs.head? ≠ some .assertReset) : LockedAs s t := by
  cases step_effect h with
  | command es i _ _ _ _ hexec =>
    have hc := exec_controlFrame hexec
    exact lockedAs_of_frame hl hc.ctrl hc.cfg
  | read es off =>
    rw [State.hostRead_state]
    exact lockedAs_of_frame hl rfl rfl
  | write es off v => exact hostWrite_lockedAs (s := { s with inputs := es }) hl off v
  | assertReset es hhead => exact absurd hhead hreset
  | releaseReset es =>
    rw [State.releaseReset_state]
    exact lockedAs_of_frame hl rfl rfl
  | _ => exact lockedAs_of_frame hl rfl rfl

/-- The slots of the configuration registers (20_memory.md R62). -/
theorem cfgSlot_slotOffset (c : CfgReg) :
    ∃ k, k < 11 ∧ slotOffset (.cfg c) = 0x1000 + 0x40 * k ∧ cfgSlot k = some c := by
  cases c
  exacts [⟨0, by decide, rfl, rfl⟩, ⟨1, by decide, rfl, rfl⟩, ⟨2, by decide, rfl, rfl⟩, ⟨3, by decide, rfl, rfl⟩,
    ⟨4, by decide, rfl, rfl⟩, ⟨5, by decide, rfl, rfl⟩, ⟨6, by decide, rfl, rfl⟩, ⟨7, by decide, rfl, rfl⟩,
    ⟨8, by decide, rfl, rfl⟩, ⟨9, by decide, rfl, rfl⟩, ⟨10, by decide, rfl, rfl⟩]

theorem locate_cfg (b : Build) (c : CfgReg) {i : Nat} (hi : i < 16) :
    locate b (slotOffset (.cfg c) + 4 * i) = .data (.cfg c) i := by
  obtain ⟨k, hk, hoff, hslot⟩ := cfgSlot_slotOffset c
  have hindex : (0x1000 + 0x40 * k + 4 * i) % 0x1000 / 0x40 = k := by omega
  have hword : (0x1000 + 0x40 * k + 4 * i) % 0x40 / 4 = i := by omega
  have hat : slotAt b (0x1000 + 0x40 * k + 4 * i) = some (.cfg c) := by
    rw [slotAt, if_pos (by omega), hindex, hslot, Option.map_some]
  rw [hoff, locate, if_neg (by omega), hat, hword]

theorem Valid.valueWords_le {b : Build} (h : b.Valid) : valueWords b ≤ 16 := by
  have hw := h.1
  unfold valueWords
  omega

/-- A host write of a configuration register that the lock lets through replaces one word. -/
theorem hostWrite_cfg_taken {s : State} {c : CfgReg} {i : Nat} (v : Word) (hs : s.build.Valid) (hidle : s.phase = .idle)
    (hi : i < valueWords s.build) (hw : s.ctrl.lock = false ∨ c = .r) :
    s.hostWrite (slotOffset (.cfg c) + 4 * i) v = { s with cfg := s.cfg.set (withWord (s.cfg.get c) i v) c } := by
  rw [State.hostWrite, locate_cfg _ c (hi.trans_le (Valid.valueWords_le hs)), State.writeLoc, State.writeData,
    State.busy_eq_false_iff.2 hidle, State.hostMayWrite_cfg.2 hw, decide_eq_true hi]
  rfl

/-- A host write of a locked configuration register is ignored. -/
theorem hostWrite_cfg_ignored {s : State} {c : CfgReg} {i : Nat} (v : Word) (hs : s.build.Valid)
    (hidle : s.phase = .idle) (hi : i < valueWords s.build) (hl : s.ctrl.lock = true) (hc : c ≠ .r) :
    s.hostWrite (slotOffset (.cfg c) + 4 * i) v = s := by
  have hw : s.hostMayWrite (.cfg c) = false := by
    rw [Bool.eq_false_iff, ne_eq, State.hostMayWrite_cfg]
    simp [hl, hc]
  rw [State.hostWrite, locate_cfg _ c (hi.trans_le (Valid.valueWords_le hs)), State.writeLoc, State.writeData,
    State.busy_eq_false_iff.2 hidle, hw]
  rfl

/-- Settles O47: the host's writes by LOCK, and the lock as an invariant of every step but an asserted reset. -/
theorem lockFreezesTheConfiguration : Obligations.LockFreezesTheConfiguration := by
  refine ⟨fun s c i v hs hidle hi => ⟨fun hw => ?_, hostWrite_cfg_ignored v hs hidle hi⟩, fun s t => step_lockedAs⟩
  rw [hostWrite_cfg_taken v hs hidle hi hw]
  exact Cfg.get_set_same _ _ _

/-! ## The shares -/

/-- The share count and every share are as in `s`. -/
def SharesKept (s t : State) : Prop := t.shareN = s.shareN ∧ ∀ k, t.shm k = s.shm k

theorem sharesKept_refl (s : State) : SharesKept s s := ⟨rfl, fun _ => rfl⟩

theorem hostWrite_sharesKept {s : State} (hs : s.Inv) (off : Nat) (v : Word) : SharesKept s (s.hostWrite off v) := by
  rcases hostWrite_cases s off v with he | he | he | he | ⟨-, he⟩ | ⟨l, w, hw, he⟩ <;> rw [he]
  iterate 5 exact sharesKept_refl s
  cases l with
  | coeff b j =>
    have hj : j ≤ s.getDeg b := of_decide_eq_true hw
    have hdeg := hs.banks.degLe b
    have hmax := hs.tMax_le
    exact ⟨rfl, fun k => State.shm_setCoeff hs.build b k w (by omega)⟩
  | _ => exact sharesKept_refl s

theorem exec_sharesKept {i : Instr} {s t : State} (hs : s.Inv) (hi : ¬∃ m b ra, i = .share m b ra)
    (h : exec i s = .next t) : SharesKept s t := by
  obtain ⟨u, e, inf, hu, rfl⟩ := exec_destsWritten h
  exact hu.shares_eq hs hi

theorem exec_idle {i : Instr} {s t : State} (h : exec i s = .next t) : t.phase = .idle := by
  obtain ⟨u, e, inf, -, rfl⟩ := exec_destsWritten h
  rfl

/-- The shares change in an asserted reset and in the completion of a SHARE only. -/
theorem step_sharesKept {s t : State} (hs : s.Inv) (h : step s = .next t) :
    SharesKept s t ∨ s.inputs.head? = some .assertReset ∨
      (s.phase = .inFlight ∧ t.phase = .idle ∧ (s.inputs = [] ∨ s.inputs.head? = some .engine) ∧
        ∃ m b ra, decode s.build.nPoly s.cmd = .ok (.share m b ra)) := by
  have hsIn : ∀ es, ({ s with inputs := es } : State).Inv := fun es =>
    hs.withUnconstrained s.ctrl s.cmd es s.response s.oracle s.freeIx
  cases step_effect h with
  | command es i _ hturn hphase hfetch hexec =>
    by_cases hi : ∃ m b ra, i = .share m b ra
    · obtain ⟨m, b, ra, rfl⟩ := hi
      exact .inr (.inr ⟨hphase, exec_idle hexec, hturn, m, b, ra, hfetch⟩)
    · exact .inl (exec_sharesKept (s := { s with inputs := es }) (hsIn es) hi hexec)
  | read es off =>
    rw [State.hostRead_state]
    exact .inl (sharesKept_refl s)
  | write es off v => exact .inl (hostWrite_sharesKept (hsIn es) off v)
  | assertReset es hhead => exact .inr (.inl hhead)
  | releaseReset es =>
    rw [State.releaseReset_state]
    exact .inl (sharesKept_refl s)
  | _ => exact .inl (sharesKept_refl s)

/-- Settles O49: a changed share or count excludes the first case of `step_sharesKept`. -/
theorem onlyShareAndResetWriteShares : Obligations.OnlyShareAndResetWriteShares := by
  intro s t hs h hchanged
  refine (step_sharesKept hs h).resolve_left fun ⟨hcount, hshares⟩ => ?_
  rcases hchanged with hne | ⟨k, -, -, hne⟩
  · exact hne hcount
  · exact hne (hshares k)

end Sys2Proof.Machine
end

section
/-! SUPPORT. The control page: its reads and writes, the bits of STATUS and CTRL, and the interrupt (10_state.md R37,
R39, R41, R43). And the invariant at reset (R46). -/

namespace Sys2Proof.Machine

/-! ## Accesses to the control page -/

theorem State.hostWrite_control (s : State) (v : Word) {off : Nat} (h : off < 0x1000) :
    s.hostWrite off v = s.writeLoc v (controlLoc off) := by
  rw [State.hostWrite, locate_control _ h]

/-- A location of the control page that the busy window does not hide shows its word at every time. -/
theorem State.hostRead_control (s : State) {off : Nat} (h : off < 0x1000)
    (hshown : (controlLoc off).hiddenWhileBusy = false) :
    s.hostRead off = { s with response := some (s.locWord (controlLoc off)) } := by
  rw [← locate_control s.build h] at hshown ⊢
  rcases hostRead_cases s off with ⟨-, hhidden, -⟩ | ⟨-, he⟩
  · rw [hshown] at hhidden
    cases hhidden
  · exact he

/-- Settles O48: the build is kept by every step, and the six locations are read-only and never hidden. -/
theorem informationRegistersAreConstant : Obligations.InformationRegistersAreConstant := by
  refine ⟨fun s t => step_build, fun s v => ⟨fun off hoff => ?_, s.hostRead_control (by decide) rfl,
    s.hostRead_control (by decide) rfl, s.hostRead_control (by decide) rfl, s.hostRead_control (by decide) rfl,
    s.hostRead_control (by decide) rfl, s.hostRead_control (by decide) rfl⟩⟩
  fin_cases hoff <;> exact s.hostWrite_control v (by decide)

theorem State.hostWrite_ctrl (s : State) (v : Word) : s.hostWrite 0x008 v = { s with ctrl := s.ctrl.written v } :=
  s.hostWrite_control v (by decide)

theorem State.hostWrite_status (s : State) (v : Word) :
    s.hostWrite 0x00C v = { s with status := s.status.written v } :=
  s.hostWrite_control v (by decide)

theorem State.hostWrite_cmd (s : State) (v : Word) : s.hostWrite 0x010 v = s.writeCmd v :=
  s.hostWrite_control v (by decide)

/-- Settles O57: the two locations take the written word by their bits. -/
theorem statusAndCtrlWrites : Obligations.StatusAndCtrlWrites :=
  fun s v => ⟨s.hostWrite_status v, s.hostWrite_ctrl v⟩

/-! ## The bits of STATUS and CTRL -/

theorem flagAt_eq (f : Bool) (k : Nat) : flagAt f k = f.toNat * 2 ^ k := by
  cases f <;> simp [flagAt]

theorem ECode.code_lt (e : ECode) : e.code < 2 ^ 4 := by cases e <;> decide

/-- STATUS from bit 0 up: four flags, then ECODE in four bits, then OVR. -/
theorem State.statusWord_eq_bits (s : State) :
    s.statusWord = BitVec.ofNat 32 (Nat.bit s.busy (Nat.bit s.status.done (Nat.bit s.status.err
      (Nat.bit s.status.inf (2 ^ 4 * s.status.ovr.toNat + s.status.ecode.code))))) := by
  simp only [State.statusWord, flagAt_eq, Nat.bit_val]
  congr 1
  ring

/-- CTRL from bit 0 up: IE, then LOCK. -/
theorem State.ctrlWord_eq_bits (s : State) :
    s.ctrlWord = BitVec.ofNat 32 (Nat.bit s.ctrl.ie s.ctrl.lock.toNat) := by
  simp only [State.ctrlWord, flagAt_eq, Nat.bit_val]
  congr 1
  ring

theorem getLsbD_ofNat_of_lt (n : Nat) {k : Nat} (hk : k < 32) : (BitVec.ofNat 32 n).getLsbD k = n.testBit k := by
  rw [BitVec.getLsbD_ofNat, decide_eq_true hk, Bool.true_and]

theorem State.ctrlWord_ie (s : State) : s.ctrlWord.getLsbD 0 = s.ctrl.ie := by
  rw [State.ctrlWord_eq_bits, getLsbD_ofNat_of_lt _ (by decide), Nat.testBit_bit_zero]

theorem State.statusWord_busy (s : State) : s.statusWord.getLsbD 0 = s.busy := by
  rw [State.statusWord_eq_bits, getLsbD_ofNat_of_lt _ (by decide), Nat.testBit_bit_zero]

theorem State.statusWord_done (s : State) : s.statusWord.getLsbD 1 = s.status.done := by
  rw [State.statusWord_eq_bits, getLsbD_ofNat_of_lt _ (by decide), Nat.testBit_bit_succ, Nat.testBit_bit_zero]

theorem State.statusWord_err (s : State) : s.statusWord.getLsbD 2 = s.status.err := by
  rw [State.statusWord_eq_bits, getLsbD_ofNat_of_lt _ (by decide), Nat.testBit_bit_succ, Nat.testBit_bit_succ,
    Nat.testBit_bit_zero]

theorem State.statusWord_inf (s : State) : s.statusWord.getLsbD 3 = s.status.inf := by
  rw [State.statusWord_eq_bits, getLsbD_ofNat_of_lt _ (by decide), Nat.testBit_bit_succ, Nat.testBit_bit_succ,
    Nat.testBit_bit_succ, Nat.testBit_bit_zero]

theorem State.statusWord_ovr (s : State) : s.statusWord.getLsbD 8 = s.status.ovr := by
  rw [State.statusWord_eq_bits, getLsbD_ofNat_of_lt _ (by decide), Nat.testBit_bit_succ, Nat.testBit_bit_succ,
    Nat.testBit_bit_succ, Nat.testBit_bit_succ, Nat.testBit_two_pow_mul_add _ s.status.ecode.code_lt]
  cases s.status.ovr <;> rfl

theorem State.lowFlags_lt (s : State) :
    s.busy.toNat + 2 * s.status.done.toNat + 4 * s.status.err.toNat + 8 * s.status.inf.toNat < 2 ^ 4 := by
  have := s.busy.toNat_le
  have := s.status.done.toNat_le
  have := s.status.err.toNat_le
  have := s.status.inf.toNat_le
  omega

theorem State.statusWord_toNat (s : State) :
    s.statusWord.toNat = s.busy.toNat + 2 * s.status.done.toNat + 4 * s.status.err.toNat + 8 * s.status.inf.toNat +
      16 * s.status.ecode.code + 256 * s.status.ovr.toNat := by
  have := s.status.ecode.code_lt
  have := s.lowFlags_lt
  have := s.status.ovr.toNat_le
  rw [State.statusWord_eq_bits, BitVec.toNat_ofNat]
  simp only [Nat.bit_val]
  omega

theorem State.statusWord_ecode (s : State) :
    s.statusWord.extractLsb' 4 4 = BitVec.ofNat 4 s.status.ecode.code := by
  have := s.lowFlags_lt
  apply BitVec.eq_of_toNat_eq
  rw [BitVec.extractLsb'_toNat, BitVec.toNat_ofNat, Nat.shiftRight_eq_div_pow, State.statusWord_toNat]
  omega

theorem State.statusWord_above (s : State) {k : Nat} (hk : 9 ≤ k) : s.statusWord.getLsbD k = false := by
  have := s.status.ecode.code_lt
  have := s.lowFlags_lt
  have := s.status.ovr.toNat_le
  have hlt : s.statusWord.toNat < 2 ^ 9 := by
    rw [State.statusWord_toNat]
    omega
  exact Nat.testBit_lt_two_pow (hlt.trans_le (Nat.pow_le_pow_right (by decide) hk))

/-- Settles O56: STATUS is never hidden, and its word is read bit by bit. -/
theorem statusWordBits : Obligations.StatusWordBits := by
  intro s
  refine ⟨s.statusWord, s.hostRead_control (by decide) rfl, rfl, s.statusWord_busy, s.statusWord_done,
    s.statusWord_err, s.statusWord_inf, ?_, s.statusWord_ovr, fun k => s.statusWord_above⟩
  rw [State.statusWord_ecode]
  cases s.status.ecode <;> rfl

/-! ## The interrupt -/

theorem State.irq_eq_true_iff {s : State} : s.irq = true ↔ s.status.done = true ∧ s.ctrl.ie = true :=
  Bool.and_eq_true_iff

theorem State.irq_of_done_eq_false {s : State} (h : s.status.done = false) : s.irq = false := by
  rw [State.irq, h, Bool.false_and]

/-- A completion raises DONE, so the interrupt is IE (60_exceptions.md R230). -/
theorem State.irq_complete (s : State) (e : ECode) (inf : Bool) : (s.complete e inf).irq = s.ctrl.ie := rfl

theorem exec_irq {i : Instr} {s t : State} (h : exec i s = .next t) : t.irq = s.ctrl.ie := by
  obtain ⟨u, e, inf, hu, rfl⟩ := exec_destsWritten h
  rw [State.irq_complete, hu.controlFrame.ctrl]

theorem engineTurn_irq {s t : State} (hr : s.resetLine = false) (hphase : s.phase = .inFlight)
    (h : engineTurn s = .next t) : t.irq = s.ctrl.ie := by
  rcases engineTurn_cases s with ⟨hnot, -⟩ | ⟨-, hnot, -⟩ | ⟨-, -, i, -, hs⟩ | ⟨-, -, e, -, hs⟩
  · simp [hr, hphase] at hnot
  · simp [hphase] at hnot
  · exact exec_irq (hs ▸ h)
  · rw [hs, raiseError_next] at h
    rw [← h, State.irq_complete]

theorem hostWrite_keeps_not_done {s : State} (hd : s.status.done = false) (off : Nat) (v : Word) :
    (s.hostWrite off v).status.done = false := by
  rcases hostWrite_cases s off v with he | he | he | he | ⟨-, he⟩ | ⟨l, w, -, he⟩ <;> rw [he]
  · exact hd
  · exact hd
  · simp [Status.written, hd]
  · exact hd
  · rfl
  · rwa [State.setData_status]

/-- No step but a completion sets DONE. -/
theorem step_sets_done {s t : State} (h : step s = .next t) (hd : s.status.done = false)
    (ht : t.status.done = true) : s.phase = .inFlight ∧ t.phase = .idle := by
  have absurdDone : ∀ {p : Prop}, t.status.done = false → p := fun h' => absurd (ht.symm.trans h') (by decide)
  cases step_effect h with
  | command es i _ _ hphase _ hexec => exact ⟨hphase, exec_idle hexec⟩
  | illegal es hphase => exact ⟨hphase, rfl⟩
  | read es off => exact absurdDone (by rw [State.hostRead_state]; exact hd)
  | write es off v => exact absurdDone (hostWrite_keeps_not_done (s := { s with inputs := es }) hd off v)
  | releaseReset es => exact absurdDone (by rw [State.releaseReset_state]; exact hd)
  | assertReset es hhead => exact absurdDone rfl
  | _ => exact absurdDone hd

/-- Settles O58: the level by its two bits, the completions that raise it, and the three host writes that lower it. -/
theorem interruptFollowsCompletion : Obligations.InterruptFollowsCompletion := by
  refine ⟨fun s => ?_, fun s t => step_sets_done, fun i s t => exec_irq, fun s t => engineTurn_irq,
    fun s v hidle => ?_, fun s v hv => ?_, fun s v hv => ?_⟩
  · rw [State.statusWord_done, State.ctrlWord_ie, State.irq_eq_true_iff]
  · rw [State.hostWrite_cmd, State.writeCmd, State.busy_eq_false_iff.2 hidle]
    rfl
  · rw [State.hostWrite_status]
    exact State.irq_of_done_eq_false (by rw [Status.written, show v.toNat.testBit 1 = true from hv]; simp)
  · rw [State.hostWrite_ctrl, State.irq, Ctrl.written, show v.toNat.testBit 0 = false from hv, Bool.and_false]

/-! ## The state after reset -/

/-- Settles O46: the invariant at reset holds for every valid build, TOY among them. -/
theorem resetHasTheInvariant : Obligations.ResetHasTheInvariant :=
  ⟨fun _ => inv_resetOf, inv_resetOf (by decide)⟩

end Sys2Proof.Machine
end

section
/-! SUPPORT. The address map (20_memory.md R61, R62, R67): the slot of every data location by region, what a word offset
of the window names, and the offsets that name nothing. -/

namespace Sys2Proof.Machine

/-! ## Slots -/

theorem slotOffset_ge (l : DataLoc) : 0x1000 ≤ slotOffset l := by
  cases l with
  | cfg c => cases c <;> decide
  | point r c => cases c <;> simp only [slotOffset] <;> omega
  | _ => simp only [slotOffset]; omega

/-- Every slot is 64-byte aligned (20_memory.md R62). -/
theorem slotOffset_aligned (l : DataLoc) : slotOffset l % 0x40 = 0 := by
  cases l with
  | cfg c => cases c <;> rfl
  | point r c => cases c <;> simp only [slotOffset] <;> omega
  | _ => simp only [slotOffset]; omega

theorem slotOffset_of_cfgSlot {k : Nat} {c : CfgReg} (h : cfgSlot k = some c) :
    slotOffset (.cfg c) = 0x1000 + 0x40 * k := by
  unfold cfgSlot at h
  split at h <;> cases h <;> rfl

theorem slotOffset_of_coordSlot {k : Nat} {c : Coord} (h : coordSlot k = some c) (r : PReg) :
    slotOffset (.point r c) = 0x3000 + 0x100 * r + 0x40 * k := by
  unfold coordSlot at h
  split at h <;> cases h <;> rfl

/-- The slots of a point register's coordinates (20_memory.md R62). -/
theorem coordSlot_slotOffset (r : PReg) (c : Coord) :
    ∃ k, k < 3 ∧ slotOffset (.point r c) = 0x3000 + 0x100 * r + 0x40 * k ∧ coordSlot k = some c := by
  cases c
  exacts [⟨0, by decide, rfl, rfl⟩, ⟨1, by decide, rfl, rfl⟩, ⟨2, by decide, rfl, rfl⟩]

theorem slotAt_scalar (b : Build) (r : SReg) {d : Nat} (hd : d < 0x40) :
    slotAt b (slotOffset (.scalar r) + d) = some (.scalar r) := by
  have hr := r.isLt
  rw [slotAt, slotOffset, if_neg (by omega), if_pos (by omega)]
  exact congrArg (some ∘ DataLoc.scalar) (Fin.ext (show (0x2000 + 0x40 * r.val + d) % 0x400 / 0x40 = r.val by omega))

theorem slotAt_point (b : Build) (r : PReg) (c : Coord) {d : Nat} (hd : d < 0x40) :
    slotAt b (slotOffset (.point r c) + d) = some (.point r c) := by
  obtain ⟨k, hk, hoff, hslot⟩ := coordSlot_slotOffset r c
  have hr := r.isLt
  have hindex : (0x3000 + 0x100 * r.val + 0x40 * k + d) % 0x100 / 0x40 = k := by omega
  rw [hoff, slotAt, if_neg (by omega), if_neg (by omega), if_pos (by omega), hindex, hslot, Option.map_some]
  exact congrArg (fun q => some (DataLoc.point q c))
    (Fin.ext (show (0x3000 + 0x100 * r.val + 0x40 * k + d) % 0x800 / 0x100 = r.val by omega))

theorem slotAt_coeff {b : Build} {k : Bank} {j d : Nat} (hk : k.val < b.nPoly) (hj : j ≤ b.tMax) (hmax : b.tMax ≤ 1023)
    (hd : d < 0x40) : slotAt b (slotOffset (.coeff k j) + d) = some (.coeff k j) := by
  have := k.isLt
  have hbank : (0x10000 + 0x10000 * k.val + 0x40 * j + d) / 0x10000 - 1 = k.val := by omega
  have hindex : (0x10000 + 0x10000 * k.val + 0x40 * j + d) % 0x10000 / 0x40 = j := by omega
  rw [slotAt, slotOffset, if_neg (by omega), if_neg (by omega), if_neg (by omega), dif_pos (by omega),
    if_pos (by omega), hindex]
  exact congrArg (fun q => some (DataLoc.coeff q j)) (Fin.ext hbank)

theorem slotAt_share {b : Build} {i d : Nat} (hi : 1 ≤ i) (hmax : i ≤ b.nMax) (hn : b.nMax ≤ 4096) (hd : d < 0x40) :
    slotAt b (slotOffset (.share i) + d) = some (.share i) := by
  have hindex : (0x200000 + 0x40 * (i - 1) + d) % 0x200000 / 0x40 + 1 = i := by omega
  rw [slotAt, slotOffset, if_neg (by omega), if_neg (by omega), if_neg (by omega), dif_neg (by omega),
    if_pos (by omega), hindex]

/-- The slot that holds an offset begins at most 63 bytes below it. -/
theorem slotOffset_of_slotAt {b : Build} {off : Nat} {l : DataLoc} (h : slotAt b off = some l) :
    slotOffset l ≤ off ∧ off < slotOffset l + 0x40 := by
  unfold slotAt at h
  split_ifs at h with hcfg hscalar hpoint hcoeff hbank hshare
  · obtain ⟨c, hc, rfl⟩ := Option.map_eq_some_iff.1 h
    rw [slotOffset_of_cfgSlot hc]
    omega
  · cases h
    simp only [slotOffset]
    omega
  · obtain ⟨c, hc, rfl⟩ := Option.map_eq_some_iff.1 h
    rw [slotOffset_of_coordSlot hc]
    simp only
    omega
  · cases h
    simp only [slotOffset]
    omega
  · cases h
    simp only [slotOffset]
    omega

/-! ## Word offsets -/

theorem locate_of_slotAt {b : Build} {l : DataLoc} {i : Nat} (hi : i < 16)
    (hat : slotAt b (slotOffset l + 4 * i) = some l) : locate b (slotOffset l + 4 * i) = .data l i := by
  have hge := slotOffset_ge l
  have haligned := slotOffset_aligned l
  have hword : (slotOffset l + 4 * i) % 0x40 / 4 = i := by omega
  rw [locate, if_neg (by omega), hat, hword]

/-- Word `i` of the slot of a location of the build is found there (20_memory.md R62). -/
theorem locate_data {b : Build} (hb : b.Valid) {l : DataLoc} (hl : locPresent b l = true) {i : Nat} (hi : i < 16) :
    locate b (slotOffset l + 4 * i) = .data l i := by
  have hd : 4 * i < 0x40 := by omega
  obtain ⟨-, htMax, ⟨-, hnMax, -⟩, -⟩ := hb
  cases l with
  | cfg c => exact locate_cfg b c hi
  | scalar r => exact locate_of_slotAt hi (slotAt_scalar b r hd)
  | point r c => exact locate_of_slotAt hi (slotAt_point b r c hd)
  | coeff k j =>
    obtain ⟨hk, hj⟩ := of_decide_eq_true hl
    exact locate_of_slotAt hi (slotAt_coeff hk hj htMax hd)
  | share k =>
    obtain ⟨hk, hmax⟩ := of_decide_eq_true hl
    exact locate_of_slotAt hi (slotAt_share hk hmax hnMax hd)

/-- An aligned offset above the control page is a word of a location of the build, or reserved (R67). -/
theorem locate_above_control (b : Build) {off : Nat} (hoff : 0x1000 ≤ off) (haligned : off % 4 = 0) :
    (∃ l i, locPresent b l = true ∧ i < 16 ∧ off = slotOffset l + 4 * i) ∨ locate b off = .reserved := by
  cases hat : slotAt b off with
  | none => exact .inr (by rw [locate, if_neg (by omega), hat])
  | some l =>
    have hloc : locate b off = .data l (off % 0x40 / 4) := by rw [locate, if_neg (by omega), hat]
    have hslot := slotOffset_of_slotAt hat
    have hslotAligned := slotOffset_aligned l
    exact .inl ⟨l, off % 0x40 / 4, locPresent_of_locate hloc, by omega, by omega⟩

/-- Settles O50: the map forwards by region, and backwards from the slot that holds an offset. -/
theorem addressMapOfDataLocations : Obligations.AddressMapOfDataLocations :=
  fun b hb => ⟨fun _ _ hl hi => locate_data hb hl hi,
    fun _ hoff haligned hnone => (locate_above_control b hoff haligned).resolve_left hnone⟩

/-! ## Reserved offsets -/

/-- The offsets that the control page does not list (20_memory.md R61). -/
theorem controlLoc_reserved {off : Nat}
    (hlist : off ∉ [0x000, 0x004, 0x008, 0x00C, 0x010, 0x020, 0x024, 0x028, 0x02C, 0x030])
    (hdeg : off < 0x040 ∨ 0x080 ≤ off) : controlLoc off = .reserved := by
  simp only [List.mem_cons, List.not_mem_nil, or_false, not_or] at hlist
  obtain ⟨h0, h1, h2, h3, h4, h5, h6, h7, h8, h9⟩ := hlist
  rw [controlLoc, if_neg h0, if_neg h1, if_neg h2, if_neg h3, if_neg h4, if_neg h5, if_neg h6, if_neg h7, if_neg h8,
    if_neg h9, if_neg (by omega)]

/-- A reserved offset reads 0 and ignores writes (20_memory.md R67). -/
theorem host_reserved {s : State} {off : Nat} (v : Word) (h : locate s.build off = .reserved) :
    s.hostRead off = { s with response := some 0 } ∧ s.hostWrite off v = s := by
  refine ⟨?_, by rw [State.hostWrite, h, State.writeLoc]⟩
  rcases hostRead_cases s off with ⟨-, hhidden, -⟩ | ⟨-, he⟩
  · rw [h] at hhidden
    cases hhidden
  · rw [he, h, State.locWord]

/-- Settles O54: above the control page and in its gaps the map names no location. -/
theorem reservedOffsetsReadZero : Obligations.ReservedOffsetsReadZero := by
  intro s v off _ haligned hoff
  refine host_reserved v ?_
  rcases hoff with ⟨habove, hnone⟩ | ⟨hpage, hlist, hdeg⟩
  · exact (locate_above_control s.build habove haligned).resolve_left hnone
  · rw [locate_control _ hpage, controlLoc_reserved hlist hdeg]

end Sys2Proof.Machine
end

section
/-! SUPPORT. Host accesses on the bus: which are answered and which stop (20_memory.md R66, R67; 70_reset_and_hazards.md
R250); what reads and writes of data locations do to an idle block (20_memory.md R62 to R64, R69, R75); and the rest of
the control page (R61, R70). -/

namespace Sys2Proof.Machine

/-! ## Accesses that stop -/

theorem inWindow_eq_true_iff {b : Build} {addr : Nat} :
    inWindow b addr = true ↔ b.base ≤ addr ∧ addr < b.base + 0x400000 := by
  rw [inWindow, Bool.and_eq_true, decide_eq_true_eq, decide_eq_true_eq, windowSize]

theorem definedAccess_eq_true_iff {off size : Nat} : definedAccess off size = true ↔ size = 4 ∧ off % 4 = 0 := by
  simp [definedAccess]

section
variable {s : State} {addr size : Nat} (act : State → Nat → State)

theorem busAccess_outside (h : addr < s.build.base ∨ s.build.base + 0x400000 ≤ addr) :
    busAccess addr size act s = .fault .outsideWindow := by
  have hout : inWindow s.build addr = false := by
    rw [Bool.eq_false_iff, ne_eq, inWindow_eq_true_iff]
    omega
  rw [busAccess, if_pos hout]

theorem busAccess_inReset (hlo : s.build.base ≤ addr) (hhi : addr < s.build.base + 0x400000)
    (hr : s.resetLine = true) : busAccess addr size act s = .fault .accessInReset := by
  have hin : inWindow s.build addr = true := inWindow_eq_true_iff.2 ⟨hlo, hhi⟩
  rw [busAccess, if_neg (by rw [hin]; decide), if_pos hr]

theorem busAccess_undefined (hlo : s.build.base ≤ addr) (hhi : addr < s.build.base + 0x400000)
    (hr : s.resetLine = false) (hbad : size ≠ 4 ∨ (addr - s.build.base) % 4 ≠ 0) :
    busAccess addr size act s = .refused .busBadAccess := by
  have hin : inWindow s.build addr = true := inWindow_eq_true_iff.2 ⟨hlo, hhi⟩
  have hundef : definedAccess (addr - s.build.base) size = false := by
    rw [Bool.eq_false_iff, ne_eq, definedAccess_eq_true_iff]
    omega
  rw [busAccess, if_neg (by rw [hin]; decide), if_neg (by rw [hr]; decide), if_pos hundef]

/-- An aligned 32-bit access to the window is answered at its offset (20_memory.md R60, R66). -/
theorem busAccess_answered {off : Nat} (hr : s.resetLine = false) (hoff : off < 0x400000) (haligned : off % 4 = 0) :
    busAccess (s.build.base + off) 4 act s = .next (act s off) := by
  have hin : inWindow s.build (s.build.base + off) = true := inWindow_eq_true_iff.2 ⟨by omega, by omega⟩
  have hdef : definedAccess off 4 = true := definedAccess_eq_true_iff.2 ⟨rfl, haligned⟩
  rw [busAccess, if_neg (by rw [hin]; decide), if_neg (by rw [hr]; decide), Nat.add_sub_cancel_left,
    if_neg (by rw [hdef]; decide)]

end

theorem takeInput_read (addr size : Nat) (s : State) :
    takeInput (.read addr size) s = busAccess addr size State.hostRead s := rfl

theorem takeInput_write (addr size : Nat) (v : Word) (s : State) :
    takeInput (.write addr size v) s = busAccess addr size (fun t off => t.hostWrite off v) s := rfl

/-- Settles O55: host reads and host writes are bus accesses, and stop alike. -/
theorem undefinedAccessesStop : Obligations.UndefinedAccessesStop := by
  intro s addr size v
  rw [takeInput_read, takeInput_write]
  exact ⟨fun h => ⟨busAccess_outside _ h, busAccess_outside _ h⟩,
    fun hlo hhi hr => ⟨busAccess_inReset _ hlo hhi hr, busAccess_inReset _ hlo hhi hr⟩,
    fun hlo hhi hr hbad => ⟨busAccess_undefined _ hlo hhi hr hbad, busAccess_undefined _ hlo hhi hr hbad⟩⟩

/-! ## Words of data locations -/

theorem Valid.lt_valueWords_iff {b : Build} (h : b.Valid) {i : Nat} : i < valueWords b ↔ 32 * i < b.w := by
  have hw := h.1
  unfold valueWords
  omega

theorem State.locWord_data_of_lt {s : State} {i : Nat} (l : DataLoc) (h : i < valueWords s.build) :
    s.locWord (.data l i) = wordOf (s.dataValue l) i := if_pos h

theorem State.locWord_data_of_le {s : State} {i : Nat} (l : DataLoc) (h : valueWords s.build ≤ i) :
    s.locWord (.data l i) = 0 := if_neg (Nat.not_lt.2 h)

/-- The slots of a build's locations lie inside the window (20_memory.md R60, R62). -/
theorem slotOffset_le {b : Build} (hb : b.Valid) {l : DataLoc} (hl : locPresent b l = true) :
    slotOffset l + 0x40 ≤ 0x400000 := by
  obtain ⟨-, htMax, ⟨-, hnMax, -⟩, -⟩ := hb
  cases l with
  | cfg c => cases c <;> decide
  | point r c => cases c <;> simp only [slotOffset] <;> omega
  | scalar r => simp only [slotOffset]; omega
  | coeff k j =>
    obtain ⟨-, hj⟩ := of_decide_eq_true hl
    simp only [slotOffset]
    omega
  | share k =>
    obtain ⟨-, hk⟩ := of_decide_eq_true hl
    simp only [slotOffset]
    omega

/-- A location written with one of its words replaced holds that value. -/
theorem State.dataValue_setData_same {s : State} (hs : s.build.Valid) (hm : s.mem.wf = true) {l : DataLoc}
    (hw : s.hostMayWrite l = true) {i : Nat} (hi : i < valueWords s.build) (x : Word) :
    (s.setData (withWord (s.dataValue l) i x) l).dataValue l = withWord (s.dataValue l) i x := by
  cases l with
  | cfg c => exact Cfg.get_set_same _ _ _
  | scalar r => exact State.getS_setS_same _ _ _
  | point r c => exact (congrArg (Point.coord · c) (State.getPR_setPR_same _ _ _)).trans (Point.coord_withCoord_same _ _ _)
  | coeff b j =>
    exact (State.coeff_setCoeff_same hs hm b j _).trans
      (Nat.mod_eq_of_lt (withWord_lt_of_lt hs x hi (State.coeff_lt hs b j)))
  | share k => cases hw

/-- Writing one location of the build leaves the values of the others. -/
theorem State.dataValue_setData_ne {s : State} (hs : s.build.Valid) {l l' : DataLoc}
    (hl : locPresent s.build l = true) (hl' : locPresent s.build l' = true) (hne : l' ≠ l) (v : Nat) :
    (s.setData v l).dataValue l' = s.dataValue l' := by
  have htMax : s.build.tMax ≤ 1023 := hs.2.1
  cases l with
  | cfg c =>
    cases l' with
    | cfg c' => exact Cfg.get_set_ne s.cfg v fun h => hne (congrArg DataLoc.cfg h)
    | _ => rfl
  | scalar r =>
    cases l' with
    | scalar r' => exact s.getS_setS_ne v fun h => hne (congrArg DataLoc.scalar h)
    | _ => rfl
  | point r c =>
    cases l' with
    | point r' c' =>
      by_cases hr : r' = r
      · subst hr
        exact (congrArg (Point.coord · c') (State.getPR_setPR_same _ _ _)).trans
          (Point.coord_withCoord_ne _ v fun h => hne (congrArg (DataLoc.point r') h))
      · exact congrArg (Point.coord · c') (s.getPR_setPR_ne _ hr)
    | _ => rfl
  | coeff b j =>
    obtain ⟨-, hj⟩ := of_decide_eq_true hl
    cases l' with
    | coeff b' j' =>
      obtain ⟨-, hj'⟩ := of_decide_eq_true hl'
      refine State.coeff_setCoeff_ne hs v (hj.trans htMax) (hj'.trans htMax) ?_
      by_contra! h
      exact hne (congrArg₂ DataLoc.coeff h.1 h.2)
    | share k => exact State.shm_setCoeff hs b k v (hj.trans htMax)
    | _ => rfl
  | share k => rfl

/-- A word of a location replaced is the written word. -/
theorem State.locWord_setData_same {s : State} (hs : s.build.Valid) (hm : s.mem.wf = true) {l : DataLoc}
    (hw : s.hostMayWrite l = true) {i : Nat} (hi : i < valueWords s.build) (x : Word) :
    (s.setData (withWord (s.dataValue l) i x) l).locWord (.data l i) = x := by
  rw [State.locWord_data_of_lt l (by rwa [State.setData_build]), State.dataValue_setData_same hs hm hw hi,
    wordOf_withWord_same]

/-- A word of a location replaced leaves every other word of every location (20_memory.md R64). -/
theorem State.locWord_setData_ne {s : State} (hs : s.build.Valid) (hm : s.mem.wf = true) {l l' : DataLoc}
    (hl : locPresent s.build l = true) (hl' : locPresent s.build l' = true) (hw : s.hostMayWrite l = true) {i j : Nat}
    (hi : i < valueWords s.build) (hne : (l', j) ≠ (l, i)) (x : Word) :
    (s.setData (withWord (s.dataValue l) i x) l).locWord (.data l' j) = s.locWord (.data l' j) := by
  have hbuild := s.setData_build (withWord (s.dataValue l) i x) l
  rcases Nat.lt_or_ge j (valueWords s.build) with hj | hj
  · rw [State.locWord_data_of_lt l' (by rwa [hbuild]), State.locWord_data_of_lt l' hj]
    by_cases hloc : l' = l
    · subst hloc
      rw [State.dataValue_setData_same hs hm hw hi, wordOf_withWord_ne x fun h => hne (congrArg (Prod.mk l') h)]
    · rw [State.dataValue_setData_ne hs hl hl' hloc]
  · rw [State.locWord_data_of_le l' (by rwa [hbuild]), State.locWord_data_of_le l' hj]

/-! ## Host accesses to data locations -/

theorem State.hostWrite_data {s : State} (hs : s.build.Valid) {l : DataLoc} (hl : locPresent s.build l = true) {i : Nat}
    (hi : i < 16) (v : Word) : s.hostWrite (slotOffset l + 4 * i) v = s.writeData l i v := by
  rw [State.hostWrite, locate_data hs hl hi, State.writeLoc]

theorem State.hostRead_data {s : State} (hs : s.build.Valid) (hidle : s.phase = .idle) {l : DataLoc}
    (hl : locPresent s.build l = true) {i : Nat} (hi : i < 16) :
    s.hostRead (slotOffset l + 4 * i) = { s with response := some (s.locWord (.data l i)) } := by
  rw [State.hostRead_idle hidle, locate_data hs hl hi]

/-- An idle block takes a write of a word of the value that the host may write. -/
theorem State.writeData_taken {s : State} (hidle : s.phase = .idle) {l : DataLoc} (hw : s.hostMayWrite l = true)
    {i : Nat} (hi : i < valueWords s.build) (v : Word) :
    s.writeData l i v = s.setData (withWord (s.dataValue l) i v) l := by
  rw [State.writeData, State.busy_eq_false_iff.2 hidle, hw, decide_eq_true hi]
  rfl

/-- An idle block ignores a write that the host may not make and one past the value (20_memory.md R63, R64). -/
theorem State.writeData_ignored {s : State} (hidle : s.phase = .idle) {l : DataLoc} {i : Nat}
    (h : s.hostMayWrite l = false ∨ valueWords s.build ≤ i) (v : Word) : s.writeData l i v = s := by
  rcases writeData_cases s l i v with ⟨hbusy, -⟩ | ⟨-, hw, hi, -⟩ | ⟨-, -, he⟩
  · rw [State.busy_eq_false_iff.2 hidle] at hbusy
    cases hbusy
  · rcases h with hnot | hge
    · exact absurd (hw.symm.trans hnot) (by decide)
    · omega
  · exact he

/-- Settles O52: each write is of a word that the map finds, and that the host may not write or that is no word of the
value. -/
theorem ignoredWritesChangeNothing : Obligations.IgnoredWritesChangeNothing := by
  intro s v i hs hidle hi
  have ignored : ∀ l, locPresent s.build l = true → (s.hostMayWrite l = false ∨ valueWords s.build ≤ i) →
      s.hostWrite (slotOffset l + 4 * i) v = s := fun l hl h => by
    rw [State.hostWrite_data hs hl hi, State.writeData_ignored hidle h]
  refine ⟨fun b j hb hdeg hj => ?_, fun k hk hmax => ?_, fun c hlock hc => ?_, fun l hl hw => ignored l hl (.inr hw)⟩
  · exact ignored (.coeff b j) (decide_eq_true ⟨hb, hj⟩) (.inl (decide_eq_false (Nat.not_le.2 hdeg)))
  · exact ignored (.share k) (decide_eq_true ⟨hk, hmax⟩) (.inl rfl)
  · rcases Nat.lt_or_ge i (valueWords s.build) with hw | hw
    · exact hostWrite_cfg_ignored v hs hidle hw hlock hc
    · exact ignored (.cfg c) rfl (.inr hw)

/-- Word `i` of a location's slot is at an aligned offset of the window. -/
theorem wordOffset_defined {b : Build} (hb : b.Valid) {l : DataLoc} (hl : locPresent b l = true) {i : Nat}
    (hi : i < 16) : slotOffset l + 4 * i < 0x400000 ∧ (slotOffset l + 4 * i) % 4 = 0 := by
  have hend := slotOffset_le hb hl
  have haligned := slotOffset_aligned l
  omega

theorem takeInput_write_data {s : State} (hs : s.build.Valid) (hr : s.resetLine = false) {l : DataLoc}
    (hl : locPresent s.build l = true) {i : Nat} (hi : i < 16) (v : Word) :
    takeInput (.write (s.build.base + (slotOffset l + 4 * i)) 4 v) s = .next (s.writeData l i v) := by
  obtain ⟨hoff, haligned⟩ := wordOffset_defined hs hl hi
  rw [takeInput_write, busAccess_answered _ hr hoff haligned, State.hostWrite_data hs hl hi]

theorem takeInput_read_data {s : State} (hs : s.build.Valid) (hr : s.resetLine = false) (hidle : s.phase = .idle)
    {l : DataLoc} (hl : locPresent s.build l = true) {i : Nat} (hi : i < 16) :
    takeInput (.read (s.build.base + (slotOffset l + 4 * i)) 4) s =
      .next { s with response := some (s.locWord (.data l i)) } := by
  obtain ⟨hoff, haligned⟩ := wordOffset_defined hs hl hi
  rw [takeInput_read, busAccess_answered _ hr hoff haligned, State.hostRead_data hs hidle hl hi]

/-- Settles O51: an idle read shows the word of the value, and a written word is read back, with the frame of the
location written. -/
theorem hostWriteThenRead : Obligations.HostWriteThenRead := by
  constructor
  · intro s l i hs hidle hl hi value
    have hvalue : value = s.dataValue l := by cases l <;> rfl
    rw [hvalue, State.hostRead_data hs hidle hl hi]
    refine ⟨fun hlt => ?_, fun hge => ?_⟩
    · rw [State.locWord_data_of_lt l ((Valid.lt_valueWords_iff hs).2 hlt), wordOf]
    · rw [State.locWord_data_of_le l (Nat.not_lt.1 (mt (Valid.lt_valueWords_iff hs).1 (Nat.not_lt.2 hge)))]
  · intro s l i v hs hm hr hidle hl hw hi
    have hi16 : i < 16 := hi.trans_le (Valid.valueWords_le hs)
    have hwrite := takeInput_write_data hs hr hl hi16 v
    rw [State.writeData_taken hidle hw hi] at hwrite
    refine ⟨_, { s.setData (withWord (s.dataValue l) i v) l with response := some v }, hwrite, ?_, rfl, rfl,
      fun l' j hl' hne => State.locWord_setData_ne hs hm hl hl' hw hi hne v, State.setData_status _ _ _,
      State.setData_ctrl _ _ _, State.setData_cmd _ _ _, State.setData_phase _ _ _, fun b => ?_,
      State.setData_shareN _ _ _⟩
    · rw [← State.setData_build s (withWord (s.dataValue l) i v) l, takeInput_read_data (by rwa [State.setData_build])
        (by rwa [State.setData_resetLine]) (by rwa [State.setData_phase]) (by rwa [State.setData_build]) hi16,
        State.locWord_setData_same hs hm hw hi]
    · rw [State.getDeg, State.setData_deg, State.getDeg]

/-! ## The rest of the control page -/

theorem State.ctrlWord_lock (s : State) : s.ctrlWord.getLsbD 1 = s.ctrl.lock := by
  rw [State.ctrlWord_eq_bits, getLsbD_ofNat_of_lt _ (by decide), Nat.testBit_bit_succ]
  cases s.ctrl.lock <;> rfl

theorem State.ctrlWord_above (s : State) {k : Nat} (hk : 2 ≤ k) : s.ctrlWord.getLsbD k = false := by
  have hlt : s.ctrlWord.toNat < 2 ^ 2 := by
    have hie := s.ctrl.ie.toNat_le
    have hlock := s.ctrl.lock.toNat_le
    rw [State.ctrlWord_eq_bits, BitVec.toNat_ofNat, Nat.bit_val]
    omega
  exact Nat.testBit_lt_two_pow (hlt.trans_le (Nat.pow_le_pow_right (by decide) hk))

/-- What the busy window hides reads as a fresh free word (20_memory.md R70; assumption log 5). -/
theorem State.hostRead_hidden {s : State} {off : Nat} (hbusy : s.phase ≠ .idle)
    (h : (locate s.build off).hiddenWhileBusy = true) :
    s.hostRead off = { s with response := some (Config.freeWord s.freeIx), freeIx := s.freeIx + 1 } := by
  rcases hostRead_cases s off with ⟨-, -, he⟩ | ⟨hnot, -⟩
  · exact he
  · rw [State.busy_eq_false_iff, h] at hnot
    exact absurd hnot (by simp [hbusy])

theorem locate_shareN (b : Build) : locate b 0x030 = .shareN := locate_control b (by decide)

/-- Settles O60: CTRL and CMD are never hidden; SHARE_N and DEG are hidden while busy and never written. -/
theorem controlPageReads : Obligations.ControlPageReads := by
  intro s v b
  have hdeg := locate_deg s.build b
  have hshareN := locate_shareN s.build
  refine ⟨⟨s.ctrlWord, s.hostRead_control (by decide) rfl, s.ctrlWord_ie, s.ctrlWord_lock, fun k => s.ctrlWord_above⟩,
    s.hostRead_control (by decide) rfl, fun hidle => ⟨?_, fun hb => ?_, fun hb => ?_⟩, fun hbusy off hoff => ?_, ?_, ?_⟩
  · rw [State.hostRead_idle hidle, hshareN, State.locWord]
  · rw [State.hostRead_idle hidle, hdeg, State.locWord, if_pos hb]
  · rw [State.hostRead_idle hidle, hdeg, State.locWord, if_neg (Nat.not_lt.2 hb)]
  · refine State.hostRead_hidden hbusy ?_
    rcases List.mem_pair.1 hoff with rfl | rfl
    · rw [hshareN, Loc.hiddenWhileBusy]
    · rw [hdeg, Loc.hiddenWhileBusy]
  · rw [State.hostWrite, hshareN, State.writeLoc]
  · rw [State.hostWrite, hdeg, State.writeLoc]

end Sys2Proof.Machine
end

section
/-! SUPPORT. The decoder and the encoder agree (30_encoding.md R91, R95, R96, R98, R99): what each command's decoder
reads, one lemma a decoder, and from these the two round trips. -/

namespace Sys2Proof

/-! ## Reading in sequence -/

section
variable {ε α β : Type}

@[simp] theorem bind_eq_ok_iff {x : Except ε α} {g : α → Except ε β} {b : β} :
    x >>= g = .ok b ↔ ∃ a, x = .ok a ∧ g a = .ok b := by
  cases x <;> simp [bind, Except.bind]

@[simp] theorem map_eq_ok_iff {x : Except ε α} {g : α → β} {b : β} : g <$> x = .ok b ↔ ∃ a, x = .ok a ∧ g a = b := by
  cases x <;> simp [Functor.map, Except.map]

end

/-! ## What each decoder reads

For the fields of an op value: the shape a decoder accepts, with the operands the fields stand for. -/

section
variable {op nPoly : Nat} {f : Fields} {i : Instr}

theorem decodeNop_ok (hop : f.op = op) : decodeNop f = .ok i ↔ f = ⟨op, 0, 0, 0, 0, 0, 0⟩ ∧ .nop = i := by
  cases f; subst hop
  simp [decodeNop, classZ_ok, and_assoc]

theorem decodeField3_ok {mk : FieldMod → SReg → SReg → SReg → Instr} (hop : f.op = op) :
    decodeField3 mk f = .ok i ↔
      ∃ (m : FieldMod) (rd ra rb : SReg), f = ⟨op, m.code, rd, ra, rb, 0, 0⟩ ∧ mk m rd ra rb = i := by
  cases f; subst hop
  simp [decodeField3, classMF_ok, classS_ok, classZ_ok, and_assoc]

theorem decodeFinv_ok (hop : f.op = op) :
    decodeFinv f = .ok i ↔ ∃ (m : FieldMod) (rd ra : SReg), f = ⟨op, m.code, rd, ra, 0, 0, 0⟩ ∧ .finv m rd ra = i := by
  cases f; subst hop
  simp [decodeFinv, classMF_ok, classS_ok, classZ_ok, and_assoc]

theorem decodeFrand_ok (hop : f.op = op) :
    decodeFrand f = .ok i ↔ ∃ (m : FieldMod) (rd : SReg), f = ⟨op, m.code, rd, 0, 0, 0, 0⟩ ∧ .frand m rd = i := by
  cases f; subst hop
  simp [decodeFrand, classMF_ok, classS_ok, classZ_ok, and_assoc]

theorem decodeScalar2_ok {mk : SReg → SReg → Instr} (hop : f.op = op) :
    decodeScalar2 mk f = .ok i ↔ ∃ rd ra : SReg, f = ⟨op, 0, rd, ra, 0, 0, 0⟩ ∧ mk rd ra = i := by
  cases f; subst hop
  simp [decodeScalar2, classS_ok, classZ_ok, and_assoc]

theorem decodeLdi_ok (hf : f.imm < 256) (hop : f.op = op) :
    decodeLdi f = .ok i ↔ ∃ (rd : SReg) (imm : Byte), f = ⟨op, 0, rd, 0, 0, 0, imm.toNat⟩ ∧ .ldi rd imm = i := by
  cases f; subst hop
  simp [decodeLdi, classS_ok, classZ_ok, classIM_ok hf, and_assoc]

theorem decodePget_ok (hop : f.op = op) :
    decodePget f = .ok i ↔
      ∃ (rd : SReg) (src : PSrc) (c : Coord), f = ⟨op, 0, rd, src.code, 0, 0, c.code⟩ ∧ .pget rd src c = i := by
  cases f; subst hop
  simp [decodePget, classS_ok, classPS_ok, classCO_ok, classZ_ok, and_assoc]

theorem decodePput_ok (hop : f.op = op) :
    decodePput f = .ok i ↔
      ∃ (rd : PReg) (ra : SReg) (c : Coord), f = ⟨op, 0, rd, ra, 0, 0, c.code⟩ ∧ .pput rd c ra = i := by
  cases f; subst hop
  simp [decodePput, classPD_ok, classS_ok, classCO_ok, classZ_ok, and_assoc]

theorem decodePoint3_ok {mk : PReg → PSrc → PSrc → PSrc → Instr} (hop : f.op = op) :
    decodePoint3 mk f = .ok i ↔
      ∃ (rd : PReg) (a b c : PSrc), f = ⟨op, 0, rd, a.code, b.code, c.code, 0⟩ ∧ mk rd a b c = i := by
  cases f; subst hop
  simp [decodePoint3, classPD_ok, classPS_ok, classZ_ok, and_assoc]

theorem decodeXdbl_ok (hop : f.op = op) :
    decodeXdbl f = .ok i ↔ ∃ (rd : PReg) (src : PSrc), f = ⟨op, 0, rd, src.code, 0, 0, 0⟩ ∧ .xdbl rd src = i := by
  cases f; subst hop
  simp [decodeXdbl, classPD_ok, classPS_ok, classZ_ok, and_assoc]

theorem decodeLadder_ok (hop : f.op = op) :
    decodeLadder f = .ok i ↔
      ∃ (rd : PReg) (ra : SReg) (base : PSrc) (re : PReg),
        f = ⟨op, 0, rd, ra, base.code, re, 0⟩ ∧ rd ≠ re ∧ .ladder rd re ra base = i := by
  cases f; subst hop
  simp [decodeLadder, classPD_ok, classS_ok, classPS_ok, classZ_ok, and_assoc, ite_eq_iff, pure, Except.pure]

theorem decodeSmul_ok (hop : f.op = op) :
    decodeSmul f = .ok i ↔
      ∃ (rd : PReg) (ra : SReg) (base : PSrc), f = ⟨op, 0, rd, ra, base.code, 0, 0⟩ ∧ .smul rd ra base = i := by
  cases f; subst hop
  simp [decodeSmul, classPD_ok, classS_ok, classPS_ok, classZ_ok, and_assoc]

theorem decodeBankDraw_ok {mk : ScalarMod → Bank → SReg → Instr} (hop : f.op = op) :
    decodeBankDraw mk nPoly f = .ok i ↔
      ∃ (m : ScalarMod) (ra : SReg) (b : Bank), f = ⟨op, m.code, 0, ra, 0, b, 0⟩ ∧ b.val < nPoly ∧ mk m b ra = i := by
  cases f; subst hop
  simp [decodeBankDraw, classMS_ok, classS_ok, classBK_ok, classZ_ok, and_assoc, @and_left_comm (_ < nPoly)]

theorem decodePeval_ok (hop : f.op = op) :
    decodePeval nPoly f = .ok i ↔
      ∃ (m : ScalarMod) (rd ra : SReg) (b : Bank),
        f = ⟨op, m.code, rd, ra, 0, b, 0⟩ ∧ b.val < nPoly ∧ .peval m rd b ra = i := by
  cases f; subst hop
  simp [decodePeval, classMS_ok, classS_ok, classBK_ok, classZ_ok, and_assoc, @and_left_comm (_ < nPoly)]

theorem decodePcget_ok (hop : f.op = op) :
    decodePcget nPoly f = .ok i ↔
      ∃ (rd ra : SReg) (b : Bank), f = ⟨op, 0, rd, ra, 0, b, 0⟩ ∧ b.val < nPoly ∧ .pcget rd b ra = i := by
  cases f; subst hop
  simp [decodePcget, classS_ok, classBK_ok, classZ_ok, and_assoc, @and_left_comm (_ < nPoly)]

theorem decodePcset_ok (hop : f.op = op) :
    decodePcset nPoly f = .ok i ↔
      ∃ (m : ScalarMod) (ra rb : SReg) (b : Bank),
        f = ⟨op, m.code, 0, ra, rb, b, 0⟩ ∧ b.val < nPoly ∧ .pcset m b ra rb = i := by
  cases f; subst hop
  simp [decodePcset, classMS_ok, classS_ok, classBK_ok, classZ_ok, and_assoc, @and_left_comm (_ < nPoly)]

theorem decodePsdeg_ok (hop : f.op = op) :
    decodePsdeg nPoly f = .ok i ↔
      ∃ (ra : SReg) (b : Bank), f = ⟨op, 0, 0, ra, 0, b, 0⟩ ∧ b.val < nPoly ∧ .psdeg b ra = i := by
  cases f; subst hop
  simp [decodePsdeg, classS_ok, classBK_ok, classZ_ok, and_assoc, @and_left_comm (_ < nPoly)]

theorem decodePgdeg_ok (hop : f.op = op) :
    decodePgdeg nPoly f = .ok i ↔
      ∃ (rd : SReg) (b : Bank), f = ⟨op, 0, rd, 0, 0, b, 0⟩ ∧ b.val < nPoly ∧ .pgdeg rd b = i := by
  cases f; subst hop
  simp [decodePgdeg, classS_ok, classBK_ok, classZ_ok, and_assoc, @and_left_comm (_ < nPoly)]

end

/-! ## The opcode map as a table -/

/-- The decoder of each op value (30_encoding.md R95). -/
def decodeByOp (nPoly : Nat) (f : Fields) : Except Illegal Instr :=
  match f.op with
  | 0x00 => decodeNop f
  | 0x01 => decodeField3 .fadd f
  | 0x02 => decodeField3 .fsub f
  | 0x03 => decodeField3 .fmul f
  | 0x04 => decodeFinv f
  | 0x05 => decodeField3 .fexp f
  | 0x06 => decodeFrand f
  | 0x08 => decodeScalar2 .mov f
  | 0x09 => decodeLdi f
  | 0x0A => decodePget f
  | 0x0B => decodePput f
  | 0x10 => decodePoint3 .xadd f
  | 0x11 => decodeXdbl f
  | 0x12 => decodeLadder f
  | 0x13 => decodePoint3 .recov f
  | 0x14 => decodeSmul f
  | 0x20 => decodeBankDraw .prand nPoly f
  | 0x21 => decodePeval nPoly f
  | 0x22 => decodePcget nPoly f
  | 0x23 => decodePcset nPoly f
  | 0x24 => decodePsdeg nPoly f
  | 0x25 => decodePgdeg nPoly f
  | 0x28 => decodeBankDraw .share nPoly f
  | 0x29 => decodeScalar2 .sget f
  | _ => .error .unassignedOp

theorem decodeFields_eq_decodeByOp (nPoly : Nat) (f : Fields) : decodeFields nPoly f = decodeByOp nPoly f := by
  unfold decodeByOp
  split
  all_goals simp_all [decodeFields]

/-! ## Which terms are well formed -/

theorem wellFormed_bank {i : Instr} {b : Bank} {nPoly : Nat} (hb : i.bank? = some b) (hd : i.destsOk = true) :
    i.wellFormed nPoly = true ↔ b.val < nPoly := by
  simp [Instr.wellFormed, Instr.bankOk, hb, hd]

theorem wellFormed_ladder {nPoly : Nat} {rd re : PReg} {ra : SReg} {base : PSrc} :
    (Instr.ladder rd re ra base).wellFormed nPoly = true ↔ rd ≠ re := by
  simp [Instr.wellFormed, Instr.bankOk, Instr.bank?, Instr.destsOk]

/-! ## The two round trips -/

/-- The fields of a command are the ones a decoder reads it from (30_encoding.md R99, R101). -/
theorem decodeFields_fields {nPoly : Nat} {i : Instr} (h : i.wellFormed nPoly = true) :
    decodeFields nPoly i.fields = .ok i := by
  cases i with
  | nop => exact (decodeNop_ok rfl).2 ⟨rfl, rfl⟩
  | fadd m rd ra rb => exact (decodeField3_ok rfl).2 ⟨m, rd, ra, rb, rfl, rfl⟩
  | fsub m rd ra rb => exact (decodeField3_ok rfl).2 ⟨m, rd, ra, rb, rfl, rfl⟩
  | fmul m rd ra rb => exact (decodeField3_ok rfl).2 ⟨m, rd, ra, rb, rfl, rfl⟩
  | finv m rd ra => exact (decodeFinv_ok rfl).2 ⟨m, rd, ra, rfl, rfl⟩
  | fexp m rd ra rb => exact (decodeField3_ok rfl).2 ⟨m, rd, ra, rb, rfl, rfl⟩
  | frand m rd => exact (decodeFrand_ok rfl).2 ⟨m, rd, rfl, rfl⟩
  | mov rd ra => exact (decodeScalar2_ok rfl).2 ⟨rd, ra, rfl, rfl⟩
  | ldi rd imm => exact (decodeLdi_ok imm.isLt rfl).2 ⟨rd, imm, rfl, rfl⟩
  | pget rd src c => exact (decodePget_ok rfl).2 ⟨rd, src, c, rfl, rfl⟩
  | pput rd c ra => exact (decodePput_ok rfl).2 ⟨rd, ra, c, rfl, rfl⟩
  | xadd rd p q d => exact (decodePoint3_ok rfl).2 ⟨rd, p, q, d, rfl, rfl⟩
  | xdbl rd src => exact (decodeXdbl_ok rfl).2 ⟨rd, src, rfl, rfl⟩
  | ladder rd re ra base => exact (decodeLadder_ok rfl).2 ⟨rd, ra, base, re, rfl, wellFormed_ladder.1 h, rfl⟩
  | recov rd base k k1 => exact (decodePoint3_ok rfl).2 ⟨rd, base, k, k1, rfl, rfl⟩
  | smul rd ra base => exact (decodeSmul_ok rfl).2 ⟨rd, ra, base, rfl, rfl⟩
  | prand m b ra => exact (decodeBankDraw_ok rfl).2 ⟨m, ra, b, rfl, (wellFormed_bank rfl rfl).1 h, rfl⟩
  | peval m rd b ra => exact (decodePeval_ok rfl).2 ⟨m, rd, ra, b, rfl, (wellFormed_bank rfl rfl).1 h, rfl⟩
  | pcget rd b ra => exact (decodePcget_ok rfl).2 ⟨rd, ra, b, rfl, (wellFormed_bank rfl rfl).1 h, rfl⟩
  | pcset m b ra rb => exact (decodePcset_ok rfl).2 ⟨m, ra, rb, b, rfl, (wellFormed_bank rfl rfl).1 h, rfl⟩
  | psdeg b ra => exact (decodePsdeg_ok rfl).2 ⟨ra, b, rfl, (wellFormed_bank rfl rfl).1 h, rfl⟩
  | pgdeg rd b => exact (decodePgdeg_ok rfl).2 ⟨rd, b, rfl, (wellFormed_bank rfl rfl).1 h, rfl⟩
  | share m b ra => exact (decodeBankDraw_ok rfl).2 ⟨m, ra, b, rfl, (wellFormed_bank rfl rfl).1 h, rfl⟩
  | sget rd ra => exact (decodeScalar2_ok rfl).2 ⟨rd, ra, rfl, rfl⟩

/-- Fields decode only to the command that has them (30_encoding.md R98, R99). -/
theorem fields_of_decodeFields {nPoly : Nat} {f : Fields} {i : Instr} (hf : f.InRange)
    (h : decodeFields nPoly f = .ok i) : i.fields = f ∧ i.wellFormed nPoly = true := by
  rw [decodeFields_eq_decodeByOp] at h
  unfold decodeByOp at h
  split at h
  · next nop =>
      obtain ⟨rfl, rfl⟩ := (decodeNop_ok nop).1 h
      exact ⟨rfl, rfl⟩
  · next fadd =>
      obtain ⟨m, rd, ra, rb, rfl, rfl⟩ := (decodeField3_ok fadd).1 h
      exact ⟨rfl, rfl⟩
  · next fsub =>
      obtain ⟨m, rd, ra, rb, rfl, rfl⟩ := (decodeField3_ok fsub).1 h
      exact ⟨rfl, rfl⟩
  · next fmul =>
      obtain ⟨m, rd, ra, rb, rfl, rfl⟩ := (decodeField3_ok fmul).1 h
      exact ⟨rfl, rfl⟩
  · next finv =>
      obtain ⟨m, rd, ra, rfl, rfl⟩ := (decodeFinv_ok finv).1 h
      exact ⟨rfl, rfl⟩
  · next fexp =>
      obtain ⟨m, rd, ra, rb, rfl, rfl⟩ := (decodeField3_ok fexp).1 h
      exact ⟨rfl, rfl⟩
  · next frand =>
      obtain ⟨m, rd, rfl, rfl⟩ := (decodeFrand_ok frand).1 h
      exact ⟨rfl, rfl⟩
  · next mov =>
      obtain ⟨rd, ra, rfl, rfl⟩ := (decodeScalar2_ok mov).1 h
      exact ⟨rfl, rfl⟩
  · next ldi =>
      obtain ⟨rd, imm, rfl, rfl⟩ := (decodeLdi_ok hf.imm ldi).1 h
      exact ⟨rfl, rfl⟩
  · next pget =>
      obtain ⟨rd, src, c, rfl, rfl⟩ := (decodePget_ok pget).1 h
      exact ⟨rfl, rfl⟩
  · next pput =>
      obtain ⟨rd, ra, c, rfl, rfl⟩ := (decodePput_ok pput).1 h
      exact ⟨rfl, rfl⟩
  · next xadd =>
      obtain ⟨rd, p, q, d, rfl, rfl⟩ := (decodePoint3_ok xadd).1 h
      exact ⟨rfl, rfl⟩
  · next xdbl =>
      obtain ⟨rd, src, rfl, rfl⟩ := (decodeXdbl_ok xdbl).1 h
      exact ⟨rfl, rfl⟩
  · next ladder =>
      obtain ⟨rd, ra, base, re, rfl, hne, rfl⟩ := (decodeLadder_ok ladder).1 h
      exact ⟨rfl, wellFormed_ladder.2 hne⟩
  · next recov =>
      obtain ⟨rd, base, k, k1, rfl, rfl⟩ := (decodePoint3_ok recov).1 h
      exact ⟨rfl, rfl⟩
  · next smul =>
      obtain ⟨rd, ra, base, rfl, rfl⟩ := (decodeSmul_ok smul).1 h
      exact ⟨rfl, rfl⟩
  · next prand =>
      obtain ⟨m, ra, b, rfl, hb, rfl⟩ := (decodeBankDraw_ok prand).1 h
      exact ⟨rfl, (wellFormed_bank rfl rfl).2 hb⟩
  · next peval =>
      obtain ⟨m, rd, ra, b, rfl, hb, rfl⟩ := (decodePeval_ok peval).1 h
      exact ⟨rfl, (wellFormed_bank rfl rfl).2 hb⟩
  · next pcget =>
      obtain ⟨rd, ra, b, rfl, hb, rfl⟩ := (decodePcget_ok pcget).1 h
      exact ⟨rfl, (wellFormed_bank rfl rfl).2 hb⟩
  · next pcset =>
      obtain ⟨m, ra, rb, b, rfl, hb, rfl⟩ := (decodePcset_ok pcset).1 h
      exact ⟨rfl, (wellFormed_bank rfl rfl).2 hb⟩
  · next psdeg =>
      obtain ⟨ra, b, rfl, hb, rfl⟩ := (decodePsdeg_ok psdeg).1 h
      exact ⟨rfl, (wellFormed_bank rfl rfl).2 hb⟩
  · next pgdeg =>
      obtain ⟨rd, b, rfl, hb, rfl⟩ := (decodePgdeg_ok pgdeg).1 h
      exact ⟨rfl, (wellFormed_bank rfl rfl).2 hb⟩
  · next share =>
      obtain ⟨m, ra, b, rfl, hb, rfl⟩ := (decodeBankDraw_ok share).1 h
      exact ⟨rfl, (wellFormed_bank rfl rfl).2 hb⟩
  · next sget =>
      obtain ⟨rd, ra, rfl, rfl⟩ := (decodeScalar2_ok sget).1 h
      exact ⟨rfl, rfl⟩
  · cases h

open Laws in
/-- The fields of a command's word are the command's fields (30_encoding.md R91). -/
theorem fieldsOf_encode : ∀ i : Instr, fieldsOf (encode i) = i.fields
  | .nop => FieldsRoundTrip.nop
  | .fadd m rd ra rb => FieldsRoundTrip.fadd m rd ra rb
  | .fsub m rd ra rb => FieldsRoundTrip.fsub m rd ra rb
  | .fmul m rd ra rb => FieldsRoundTrip.fmul m rd ra rb
  | .finv m rd ra => FieldsRoundTrip.finv m rd ra
  | .fexp m rd ra rb => FieldsRoundTrip.fexp m rd ra rb
  | .frand m rd => FieldsRoundTrip.frand m rd
  | .mov rd ra => FieldsRoundTrip.mov rd ra
  | .ldi rd imm => FieldsRoundTrip.ldi rd imm
  | .pget rd src c => FieldsRoundTrip.pget rd src c
  | .pput rd c ra => FieldsRoundTrip.pput rd c ra
  | .xadd rd p q d => FieldsRoundTrip.xadd rd p q d
  | .xdbl rd src => FieldsRoundTrip.xdbl rd src
  | .ladder rd re ra base => FieldsRoundTrip.ladder rd re ra base
  | .recov rd base k k1 => FieldsRoundTrip.recov rd base k k1
  | .smul rd ra base => FieldsRoundTrip.smul rd ra base
  | .prand m b ra => FieldsRoundTrip.prand m b ra
  | .peval m rd b ra => FieldsRoundTrip.peval m rd b ra
  | .pcget rd b ra => FieldsRoundTrip.pcget rd b ra
  | .pcset m b ra rb => FieldsRoundTrip.pcset m b ra rb
  | .psdeg b ra => FieldsRoundTrip.psdeg b ra
  | .pgdeg rd b => FieldsRoundTrip.pgdeg rd b
  | .share m b ra => FieldsRoundTrip.share m b ra
  | .sget rd ra => FieldsRoundTrip.sget rd ra

/-- Settles O1: the word's fields are the command's, and the command's decoder reads it from them. -/
theorem decodeOfEncodeIsTheCommand : Obligations.DecodeOfEncodeIsTheCommand := by
  intro nPoly i h
  rw [decode, fieldsOf_encode]
  exact decodeFields_fields h

/-- Settles O2: the command has the word's fields, and a word is the packing of its fields. -/
theorem decodedWordIsTheEncoding : Obligations.DecodedWordIsTheEncoding := by
  intro nPoly w i h
  obtain ⟨hfields, hwf⟩ := fields_of_decodeFields (fieldsOf_inRange w) h
  exact ⟨by rw [encode, hfields, pack_fieldsOf], hwf⟩

end Sys2Proof
end

section
/-! SUPPORT. The decoder accepts exactly the words the tables of 30_encoding.md R92, R95 and R96 allow (R97): a class
accepts its values, so a decoder accepts its row, so the opcode map accepts the tables. And what an ILLEGAL word in
flight does (60_exceptions.md R227). -/

namespace Sys2Proof

/-! ## Which values a class accepts -/

section
variable {ε α β : Type}

@[simp] theorem isOk_ok (a : α) : (.ok a : Except ε α).isOk = true := rfl

@[simp] theorem isOk_error (e : ε) : (.error e : Except ε α).isOk = false := rfl

@[simp] theorem exists_eq_ok_iff {x : Except ε α} : (∃ a, x = .ok a) ↔ x.isOk = true := by cases x <;> simp

theorem exists_eq_error_iff {x : Except ε α} : (∃ e, x = .error e) ↔ x.isOk = false := by cases x <;> simp

@[simp] theorem isOk_bind {x : Except ε α} {g : α → Except ε β} :
    (x >>= g).isOk = true ↔ ∃ a, x = .ok a ∧ (g a).isOk = true := by
  cases x <;> simp [bind, Except.bind]

@[simp] theorem isOk_map {x : Except ε α} {g : α → β} : (g <$> x).isOk = x.isOk := by cases x <;> rfl

@[simp] theorem isOk_ite_error {p : Prop} [Decidable p] {e : ε} {a : α} :
    (if p then .error e else pure a : Except ε α).isOk = true ↔ ¬p := by
  split <;> simp [*, pure, Except.pure]

end

section
variable {v nPoly : Nat}

@[simp] theorem isOk_classS (h : v < 16) : (classS v).isOk = true := by simp [classS, h]

@[simp] theorem isOk_classPD : (classPD v).isOk = true ↔ v < 8 := by
  unfold classPD
  split <;> simp [*]

@[simp] theorem isOk_classPS : (classPS v).isOk = true ↔ v < 11 := by
  unfold classPS
  split_ifs <;> simp <;> omega

@[simp] theorem isOk_classBK (h : v < 16) : (classBK nPoly v).isOk = true ↔ v < nPoly := by
  unfold classBK
  split_ifs <;> simp [*]

@[simp] theorem isOk_classMF (h : v < 4) : (classMF v).isOk = true ↔ v ≠ 3 := by
  unfold classMF
  split_ifs <;> simp <;> omega

@[simp] theorem isOk_classMS : (classMS v).isOk = true ↔ v = 1 ∨ v = 2 := by
  unfold classMS
  split_ifs <;> simp [*]

@[simp] theorem isOk_classCO : (classCO v).isOk = true ↔ v < 3 := by
  unfold classCO
  split_ifs <;> simp <;> omega

@[simp] theorem isOk_classIM : (classIM v).isOk = true := rfl

@[simp] theorem isOk_classZ : (classZ v).isOk = true ↔ v = 0 := by
  unfold classZ
  split <;> simp [*]

end

namespace Machine

/-! ## Each decoder accepts the fields its row allows -/

/-- Every field is in the class of its column (30_encoding.md R97). -/
def Columns.admits (c : Columns) (nPoly : Nat) (f : Fields) : Bool :=
  c.m.allows nPoly f.m && c.rd.allows nPoly f.rd && c.ra.allows nPoly f.ra && c.rb.allows nPoly f.rb &&
    c.rc.allows nPoly f.rc && c.imm.allows nPoly f.imm

section
variable {nPoly : Nat} {f : Fields}

theorem isOk_decodeNop : (decodeNop f).isOk = true ↔ Columns.admits ⟨.z, .z, .z, .z, .z, .z⟩ nPoly f = true := by
  simp [decodeNop, Columns.admits, FieldClass.allows, and_assoc]

theorem isOk_decodeField3 (hf : f.InRange) (mk : FieldMod → SReg → SReg → SReg → Instr) :
    (decodeField3 mk f).isOk = true ↔ Columns.admits ⟨.mf, .s, .s, .s, .z, .z⟩ nPoly f = true := by
  simp [decodeField3, Columns.admits, FieldClass.allows, hf.m, hf.rd, hf.ra, hf.rb, and_assoc]

theorem isOk_decodeFinv (hf : f.InRange) :
    (decodeFinv f).isOk = true ↔ Columns.admits ⟨.mf, .s, .s, .z, .z, .z⟩ nPoly f = true := by
  simp [decodeFinv, Columns.admits, FieldClass.allows, hf.m, hf.rd, hf.ra, and_assoc]

theorem isOk_decodeFrand (hf : f.InRange) :
    (decodeFrand f).isOk = true ↔ Columns.admits ⟨.mf, .s, .z, .z, .z, .z⟩ nPoly f = true := by
  simp [decodeFrand, Columns.admits, FieldClass.allows, hf.m, hf.rd, and_assoc]

theorem isOk_decodeScalar2 (hf : f.InRange) (mk : SReg → SReg → Instr) :
    (decodeScalar2 mk f).isOk = true ↔ Columns.admits ⟨.z, .s, .s, .z, .z, .z⟩ nPoly f = true := by
  simp [decodeScalar2, Columns.admits, FieldClass.allows, hf.rd, hf.ra, and_assoc]

theorem isOk_decodeLdi (hf : f.InRange) :
    (decodeLdi f).isOk = true ↔ Columns.admits ⟨.z, .s, .z, .z, .z, .im⟩ nPoly f = true := by
  simp [decodeLdi, Columns.admits, FieldClass.allows, hf.rd, and_assoc]

theorem isOk_decodePget (hf : f.InRange) :
    (decodePget f).isOk = true ↔ Columns.admits ⟨.z, .s, .ps, .z, .z, .co⟩ nPoly f = true := by
  simp [decodePget, Columns.admits, FieldClass.allows, hf.rd, and_assoc]

theorem isOk_decodePput (hf : f.InRange) :
    (decodePput f).isOk = true ↔ Columns.admits ⟨.z, .pd, .s, .z, .z, .co⟩ nPoly f = true := by
  simp [decodePput, Columns.admits, FieldClass.allows, hf.ra, and_assoc]

theorem isOk_decodePoint3 (mk : PReg → PSrc → PSrc → PSrc → Instr) :
    (decodePoint3 mk f).isOk = true ↔ Columns.admits ⟨.z, .pd, .ps, .ps, .ps, .z⟩ nPoly f = true := by
  simp [decodePoint3, Columns.admits, FieldClass.allows, and_assoc]

theorem isOk_decodeXdbl : (decodeXdbl f).isOk = true ↔ Columns.admits ⟨.z, .pd, .ps, .z, .z, .z⟩ nPoly f = true := by
  simp [decodeXdbl, Columns.admits, FieldClass.allows, and_assoc]

theorem isOk_decodeLadder (hf : f.InRange) :
    (decodeLadder f).isOk = true ↔ Columns.admits ⟨.z, .pd, .s, .ps, .pd, .z⟩ nPoly f = true ∧ f.rd ≠ f.rc := by
  by_cases hrd : f.rd < 8 <;> by_cases hrc : f.rc < 8 <;>
    simp [decodeLadder, classPD, Columns.admits, FieldClass.allows, hrd, hrc, hf.ra, and_assoc]

theorem isOk_decodeSmul (hf : f.InRange) :
    (decodeSmul f).isOk = true ↔ Columns.admits ⟨.z, .pd, .s, .ps, .z, .z⟩ nPoly f = true := by
  simp [decodeSmul, Columns.admits, FieldClass.allows, hf.ra, and_assoc]

theorem isOk_decodeBankDraw (hf : f.InRange) (mk : ScalarMod → Bank → SReg → Instr) :
    (decodeBankDraw mk nPoly f).isOk = true ↔ Columns.admits ⟨.ms, .z, .s, .z, .bk, .z⟩ nPoly f = true := by
  simp [decodeBankDraw, Columns.admits, FieldClass.allows, hf.ra, hf.rc, and_assoc]

theorem isOk_decodePeval (hf : f.InRange) :
    (decodePeval nPoly f).isOk = true ↔ Columns.admits ⟨.ms, .s, .s, .z, .bk, .z⟩ nPoly f = true := by
  simp [decodePeval, Columns.admits, FieldClass.allows, hf.rd, hf.ra, hf.rc, and_assoc]

theorem isOk_decodePcget (hf : f.InRange) :
    (decodePcget nPoly f).isOk = true ↔ Columns.admits ⟨.z, .s, .s, .z, .bk, .z⟩ nPoly f = true := by
  simp [decodePcget, Columns.admits, FieldClass.allows, hf.rd, hf.ra, hf.rc, and_assoc]

theorem isOk_decodePcset (hf : f.InRange) :
    (decodePcset nPoly f).isOk = true ↔ Columns.admits ⟨.ms, .z, .s, .s, .bk, .z⟩ nPoly f = true := by
  simp [decodePcset, Columns.admits, FieldClass.allows, hf.ra, hf.rb, hf.rc, and_assoc]

theorem isOk_decodePsdeg (hf : f.InRange) :
    (decodePsdeg nPoly f).isOk = true ↔ Columns.admits ⟨.z, .z, .s, .z, .bk, .z⟩ nPoly f = true := by
  simp [decodePsdeg, Columns.admits, FieldClass.allows, hf.ra, hf.rc, and_assoc]

theorem isOk_decodePgdeg (hf : f.InRange) :
    (decodePgdeg nPoly f).isOk = true ↔ Columns.admits ⟨.z, .s, .z, .z, .bk, .z⟩ nPoly f = true := by
  simp [decodePgdeg, Columns.admits, FieldClass.allows, hf.rd, hf.rc, and_assoc]

end

/-! ## The decoder against the tables -/

/-- The fields of a word that is not ILLEGAL (30_encoding.md R97). -/
def LegalFields (nPoly : Nat) (f : Fields) : Prop :=
  ∃ c, columnsOf f.op = some c ∧ c.admits nPoly f = true ∧ (f.op = 0x12 → f.rd ≠ f.rc)

theorem legalWord_iff {nPoly : Nat} {w : Word} : legalWord nPoly w = true ↔ LegalFields nPoly (fieldsOf w) := by
  unfold legalWord LegalFields
  cases h : columnsOf (fieldsOf w).op <;> simp [Columns.admits, h, imp_iff_not_or]

/-- The fields of an op value other than LADDER's are legal when its row admits them. -/
theorem admits_iff_legalFields {nPoly op : Nat} {f : Fields} {c : Columns} (hop : f.op = op)
    (hc : columnsOf op = some c) (hne : op ≠ 0x12) : c.admits nPoly f = true ↔ LegalFields nPoly f := by
  simp [LegalFields, hop, hc, hne]

/-- LADDER's fields are legal when its row admits them and its destinations differ, the extra check of R96. -/
theorem legalFields_ladder {nPoly : Nat} {f : Fields} (hop : f.op = 0x12) :
    LegalFields nPoly f ↔ Columns.admits ⟨.z, .pd, .s, .ps, .pd, .z⟩ nPoly f = true ∧ f.rd ≠ f.rc := by
  simp [LegalFields, hop, columnsOf]

/-- Decoding succeeds exactly on the fields the tables allow (30_encoding.md R97, R99). -/
theorem isOk_decodeFields {nPoly : Nat} {f : Fields} (hf : f.InRange) :
    (decodeFields nPoly f).isOk = true ↔ LegalFields nPoly f := by
  rw [decodeFields_eq_decodeByOp]
  unfold decodeByOp
  split
  · next nop => exact isOk_decodeNop.trans (admits_iff_legalFields nop rfl (by decide))
  · next fadd => exact (isOk_decodeField3 hf _).trans (admits_iff_legalFields fadd rfl (by decide))
  · next fsub => exact (isOk_decodeField3 hf _).trans (admits_iff_legalFields fsub rfl (by decide))
  · next fmul => exact (isOk_decodeField3 hf _).trans (admits_iff_legalFields fmul rfl (by decide))
  · next finv => exact (isOk_decodeFinv hf).trans (admits_iff_legalFields finv rfl (by decide))
  · next fexp => exact (isOk_decodeField3 hf _).trans (admits_iff_legalFields fexp rfl (by decide))
  · next frand => exact (isOk_decodeFrand hf).trans (admits_iff_legalFields frand rfl (by decide))
  · next mov => exact (isOk_decodeScalar2 hf _).trans (admits_iff_legalFields mov rfl (by decide))
  · next ldi => exact (isOk_decodeLdi hf).trans (admits_iff_legalFields ldi rfl (by decide))
  · next pget => exact (isOk_decodePget hf).trans (admits_iff_legalFields pget rfl (by decide))
  · next pput => exact (isOk_decodePput hf).trans (admits_iff_legalFields pput rfl (by decide))
  · next xadd => exact (isOk_decodePoint3 _).trans (admits_iff_legalFields xadd rfl (by decide))
  · next xdbl => exact isOk_decodeXdbl.trans (admits_iff_legalFields xdbl rfl (by decide))
  · next ladder => exact (isOk_decodeLadder hf).trans (legalFields_ladder ladder).symm
  · next recov => exact (isOk_decodePoint3 _).trans (admits_iff_legalFields recov rfl (by decide))
  · next smul => exact (isOk_decodeSmul hf).trans (admits_iff_legalFields smul rfl (by decide))
  · next prand => exact (isOk_decodeBankDraw hf _).trans (admits_iff_legalFields prand rfl (by decide))
  · next peval => exact (isOk_decodePeval hf).trans (admits_iff_legalFields peval rfl (by decide))
  · next pcget => exact (isOk_decodePcget hf).trans (admits_iff_legalFields pcget rfl (by decide))
  · next pcset => exact (isOk_decodePcset hf).trans (admits_iff_legalFields pcset rfl (by decide))
  · next psdeg => exact (isOk_decodePsdeg hf).trans (admits_iff_legalFields psdeg rfl (by decide))
  · next pgdeg => exact (isOk_decodePgdeg hf).trans (admits_iff_legalFields pgdeg rfl (by decide))
  · next share => exact (isOk_decodeBankDraw hf _).trans (admits_iff_legalFields share rfl (by decide))
  · next sget => exact (isOk_decodeScalar2 hf _).trans (admits_iff_legalFields sget rfl (by decide))
  · have hnone : columnsOf f.op = none := by simp_all [columnsOf]
    simp [LegalFields, hnone]

theorem isOk_decode (nPoly : Nat) (w : Word) : (decode nPoly w).isOk = legalWord nPoly w := by
  rw [Bool.eq_iff_iff, legalWord_iff]
  exact isOk_decodeFields (fieldsOf_inRange w)

/-! ## An ILLEGAL word in flight -/

theorem State.writeCmd_idle {s : State} (h : s.phase = .idle) (v : Word) : s.writeCmd v = s.accept v := by
  rcases writeCmd_cases s v with ⟨hbusy, -⟩ | ⟨-, haccept⟩
  · simp [State.busy, h] at hbusy
  · exact haccept

theorem engineTurn_illegal {s : State} (hr : s.resetLine = false) (hphase : s.phase = .inFlight)
    (h : legalWord s.build.nPoly s.cmd = false) : engineTurn s = raiseError .illegal s := by
  obtain ⟨e, he⟩ : ∃ e, s.fetch = .error e := exists_eq_error_iff.2 ((isOk_decode _ _).trans h)
  simp [engineTurn, hr, hphase, he]

/-- Settles O3: the decoder accepts what the tables allow, and an ILLEGAL word in flight raises ILLEGAL. -/
theorem illegalWordsAreTheTablesAndCompleteIllegal : Obligations.IllegalWordsAreTheTablesAndCompleteIllegal := by
  refine ⟨fun nPoly w => ?_, fun s v hidle => State.writeCmd_idle hidle v, fun s hr hphase hillegal => ?_⟩
  · rw [exists_eq_error_iff, isOk_decode]
  · have hturn := engineTurn_illegal hr hphase hillegal
    obtain ⟨t, ht, hw⟩ := wroteNothing_raiseError .illegal s
    have hstep : engineTurn s = .next t := hturn.trans ht
    exact ⟨t, hstep, hw, engineTurn_irq hr hphase hstep⟩

end Machine
end Sys2Proof
end

section
/-! SUPPORT. FINV, and the expansion of FDIV (30_encoding.md R102; 40_field.md R124, R128). -/

namespace Sys2Proof.Machine

theorem gcd_mod_left (a m : Nat) : Nat.gcd (a % m) m = Nat.gcd a m := by rw [← Nat.gcd_rec, Nat.gcd_comm]

section
variable {m : FieldMod} {s : State} {ra : SReg}

/-- FINV of an invertible register writes its inverse in [0, M) (40_field.md R124). -/
theorem finv_wroteScalar (hM : 2 ≤ s.fieldMod m) (rd : SReg) (hg : Nat.gcd (s.getS ra) (s.fieldMod m) = 1) :
    ∃ t v, exec (.finv m rd ra) s = .next t ∧ WroteScalar s t rd v ∧ v < s.fieldMod m ∧
      s.getS ra * v % s.fieldMod m = 1 := by
  rw [← gcd_mod_left] at hg
  have hexec : exec (.finv m rd ra) s =
      succeed false (s.setS rd (invMod (s.getS ra % s.fieldMod m) (s.fieldMod m))) := by
    simp [exec, execFinv, hg, Nat.not_lt.2 hM]
  obtain ⟨t, ht, hw⟩ := wroteScalar_succeed s rd (invMod (s.getS ra % s.fieldMod m) (s.fieldMod m))
  refine ⟨t, _, hexec.trans ht, hw, invMod_lt _ (by omega), ?_⟩
  rw [← Nat.mod_mul_mod, mul_invMod _ (by omega) hg, Nat.mod_eq_of_lt (by omega)]

/-- FINV of a register that is not invertible raises NOT_INVERTIBLE (40_field.md R124). -/
theorem finv_notInvertible (hM : 2 ≤ s.fieldMod m) (rd : SReg) (hg : Nat.gcd (s.getS ra) (s.fieldMod m) ≠ 1) :
    ∃ t, exec (.finv m rd ra) s = .next t ∧ WroteNothing s t .notInvertible := by
  rw [← gcd_mod_left] at hg
  have hexec : exec (.finv m rd ra) s = raiseError .notInvertible s := by
    simp [exec, execFinv, hg, Nat.not_lt.2 hM]
  rw [hexec]
  exact wroteNothing_raiseError _ _

end

/-- A quotient by an inverse, multiplied by the divisor, is the dividend again. -/
theorem mul_inverse_mul_mod {a b v M : Nat} (hv : b * v % M = 1) : a * v % M * b % M = a % M :=
  calc a * v % M * b % M = a * (b * v) % M := by rw [Nat.mod_mul_mod]; ring_nf
    _ = a * (b * v % M) % M := (Nat.mul_mod_mod _ _ _).symm
    _ = a % M := by rw [hv, Nat.mul_one]

theorem State.fieldMod_eq_of_cfg {s t : State} (h : t.cfg = s.cfg) (m : FieldMod) : t.fieldMod m = s.fieldMod m := by
  cases m <;> simp [State.fieldMod, h]

theorem WroteScalar.err_eq_false {s t : State} {rd : SReg} {v : Nat} (h : WroteScalar s t rd v) :
    t.status.err = false := h.outcome.err

/-- Settles O18: FINV leaves the inverse of the divisor in S[rd], and FMUL by the dividend, which is still in S[ra],
leaves the quotient; a divisor without inverse stops at the FINV. -/
theorem fdivExpansionDivides : Obligations.FdivExpansionDivides := by
  intro m rd ra rb s hM
  refine ⟨fun hd => if_pos hd, fun hd hg => ?_, fun hd hg => ?_⟩
  · obtain ⟨t, v, ht, hwt, -, hv⟩ := finv_wroteScalar hM rd hg
    have hmod : t.fieldMod m = s.fieldMod m := State.fieldMod_eq_of_cfg hwt.control.cfg m
    obtain ⟨-, -, u, hu, hwu⟩ := fieldOps_wroteScalar (hmod ▸ hM) rd ra rd
    have hresult : u.getS rd = s.getS ra * v % s.fieldMod m := by
      rw [hwu.result, hmod, hwt.result, hwt.scalars ra hd.symm]
    refine ⟨_, _, t, u, if_neg hd, ht, hwt.err_eq_false, hu, hwu.err_eq_false, ?_, ?_⟩
    · rw [hresult]
      exact Nat.mod_lt _ (by omega)
    · rw [hresult]
      exact mul_inverse_mul_mod hv
  · obtain ⟨t, ht, hw⟩ := finv_notInvertible hM rd hg
    exact ⟨_, _, t, if_neg hd, ht, hw⟩

end Sys2Proof.Machine
end

section
/-! SUPPORT. FINV, FEXP and FRAND, for a modulus of at least 2 (40_field.md R124, R125, R126). -/

namespace Sys2Proof.Machine

/-- Settles O15: the two outcomes of FINV, split on the greatest common divisor of the raw register and the modulus. -/
theorem finvIsTheInverseOrNotInvertible : Obligations.FinvIsTheInverseOrNotInvertible :=
  fun _ rd _ _ hM => ⟨finv_wroteScalar hM rd, finv_notInvertible hM rd⟩

section
variable {m : FieldMod} {s : State}

/-- FEXP passes the modulus check and writes the power; the base may as well be unreduced (40_field.md R125). -/
theorem exec_fexp_eq (hM : 2 ≤ s.fieldMod m) (rd ra rb : SReg) :
    exec (.fexp m rd ra rb) s = succeed false (s.setS rd (s.getS ra ^ s.getS rb % s.fieldMod m)) :=
  calc exec (.fexp m rd ra rb) s
    _ = succeed false (s.setS rd (powMod (s.getS ra % s.fieldMod m) (s.getS rb) (s.fieldMod m))) :=
      if_neg (Nat.not_lt.2 hM)
    _ = _ := by rw [powMod_eq, ← Nat.pow_mod]

/-- FRAND passes the modulus check, takes one answer of the random source and writes it reduced (40_field.md R126). -/
theorem exec_frand_eq (hM : 2 ≤ s.fieldMod m) (rd : SReg) :
    exec (.frand m rd) s = .next ((s.afterAnswer.setS rd (s.draw (s.fieldMod m))).complete .none false) :=
  if_neg (Nat.not_lt.2 hM)

end

/-- Settles O16: square-and-multiply computes the power, and FEXP writes it and nothing else. -/
theorem fexpIsTheModularPower : Obligations.FexpIsTheModularPower := by
  intro m rd ra rb s hM
  rw [exec_fexp_eq hM]
  exact wroteScalar_succeed s rd _

/-- Without a fixed answer, taking one counts a free value (assumption log 4). -/
theorem State.afterAnswer_of_oracle_nil {s : State} (h : s.oracle = []) :
    s.afterAnswer = { s with freeIx := s.freeIx + 1 } := by
  simp [State.afterAnswer, h]

/-- Settles O17: FRAND's frames are instances of those of every command (O10); the value and the random source after it
follow from where the one answer came from. -/
theorem frandWritesOneDraw : Obligations.FrandWritesOneDraw := by
  intro m rd s hM
  have hexec := exec_frand_eq hM rd
  obtain ⟨hscalars, hpoints, hbanks, -, -, hcontrol⟩ := commandsWriteOnlyTheirDestinations _ s _ hexec
  have hresult : ((s.afterAnswer.setS rd (s.draw (s.fieldMod m))).complete .none false).getS rd =
      s.draw (s.fieldMod m) := by simp
  refine ⟨_, hexec, completed_complete _ _ (by simp) (by simp), ?_,
    fun r hr => hscalars r fun e => hr (Option.some.inj e).symm, fun r => hpoints r List.not_mem_nil, hbanks rfl,
    hcontrol, fun v rest ho => ?_, fun ho => ?_⟩
  · rw [hresult]
    exact s.draw_lt (by omega)
  · -- the environment's next answer
    obtain ⟨hdraw, hafter⟩ := s.draw_oracle v rest ho (s.fieldMod m)
    exact ⟨hresult.trans hdraw, by simp [hafter], by simp [hafter]⟩
  · -- a free value
    simp [State.afterAnswer_of_oracle_nil ho, ho]

end Sys2Proof.Machine
end

section
/-! SUPPORT. The no-operation and move commands (41_move.md): what each does, for every state, and NOP as the only word
with op 0. -/

namespace Sys2Proof.Machine

/-! ## What each command does -/

section
variable (s : State)

theorem exec_nop_eq : exec .nop s = succeed false s := rfl

theorem exec_mov_eq (rd ra : SReg) : exec (.mov rd ra) s = succeed false (s.setS rd (s.getS ra)) := rfl

theorem exec_ldi_eq (rd : SReg) (imm : Byte) : exec (.ldi rd imm) s = succeed false (s.setS rd imm.toNat) := rfl

theorem exec_pget_eq (rd : SReg) (src : PSrc) (c : Coord) :
    exec (.pget rd src c) s = succeed false (s.setS rd ((s.pointSource src).coord c)) := rfl

theorem exec_pput_eq (rd : PReg) (c : Coord) (ra : SReg) :
    exec (.pput rd c ra) s = succeed false (s.setPR rd ((s.getPR rd).withCoord c (s.getS ra))) := rfl

/-- A success that wrote nothing; `raiseError .none` is the same completion. -/
theorem wroteNothing_succeed : ∃ t, succeed false s = .next t ∧ WroteNothing s t .none :=
  wroteNothing_raiseError .none s

end

/-! ## NOP -/

/-- STATUS after a completion: BUSY = 0 and DONE = 1, and the outcome in the other fields (10_state.md R39). -/
theorem Completed.statusWord_toNat {s t : State} {e : ECode} {inf : Bool} (h : Completed s t e inf) :
    t.statusWord.toNat =
      2 + 4 * (decide (e ≠ .none)).toNat + 8 * inf.toNat + 16 * e.code + 256 * s.status.ovr.toNat := by
  rw [State.statusWord_toNat, State.busy_eq_false_iff.2 h.idle, h.done, h.err, h.inf, h.ecode, h.ovr]
  simp

/-- A word with op 0 decodes to nothing but NOP (30_encoding.md R95). -/
theorem eq_nop_of_decode {nPoly : Nat} {w : Word} {i : Instr} (hop : w.toNat / 2 ^ 26 = 0)
    (h : decode nPoly w = .ok i) : i = .nop := by
  have hfield : (fieldsOf w).op = 0 := by
    change bitField w 26 6 = 0
    rw [bitField, hop, Nat.zero_mod]
  rw [decode, decodeFields, if_pos hfield] at h
  exact ((decodeNop_ok hfield).1 h).2.symm

/-- Every other word with op 0 is ILLEGAL: a command has one word (O2), and NOP's is 0. -/
theorem decode_error_of_op_zero (nPoly : Nat) {w : Word} (hop : w.toNat / 2 ^ 26 = 0) (hw : w ≠ 0) :
    ∃ r, decode nPoly w = .error r := by
  cases h : decode nPoly w with
  | error r => exact ⟨r, rfl⟩
  | ok i =>
    obtain ⟨hencode, -⟩ := decodedWordIsTheEncoding nPoly w i h
    rw [eq_nop_of_decode hop h] at hencode
    exact absurd hencode.symm hw

/-- Settles O19: the word by the two round trips (O1, O2), the acceptance by the control page, the outcome by the
completion. -/
theorem nopOnlyCompletes : Obligations.NopOnlyCompletes := by
  refine ⟨rfl, fun nPoly => decodeOfEncodeIsTheCommand nPoly .nop rfl, fun s hidle => ?_,
    fun nPoly w => decode_error_of_op_zero nPoly, fun s => ?_⟩
  · rw [State.hostWrite_cmd, State.writeCmd_idle hidle]
  · obtain ⟨t, ht, hw⟩ := wroteNothing_succeed s
    have hexec : exec .nop s = .next t := (exec_nop_eq s).trans ht
    refine ⟨t, hexec, hw, exec_irq hexec, fun hovr => BitVec.eq_of_toNat_eq ?_⟩
    rw [hw.outcome.statusWord_toNat, hovr]
    rfl

/-! ## Moves -/

/-- Settles O20: each of the two is one write of a scalar register. -/
theorem movLdiResults : Obligations.MovLdiResults := by
  intro rd ra imm s
  rw [exec_mov_eq, exec_ldi_eq]
  exact ⟨wroteScalar_succeed s rd _, wroteScalar_succeed s rd _⟩

/-- PGET writes the coordinate of whatever its point source stands for (41_move.md R143). -/
theorem pget_wroteScalar (rd : SReg) (src : PSrc) (c : Coord) (s : State) :
    ∃ t, exec (.pget rd src c) s = .next t ∧ WroteScalar s t rd ((s.pointSource src).coord c) := by
  rw [exec_pget_eq]
  exact wroteScalar_succeed s rd _

/-- Settles O21: the four kinds of point source, a register and the three generators. -/
theorem pgetReadsTheRawCoordinate : Obligations.PgetReadsTheRawCoordinate :=
  fun rd c s => ⟨fun r => pget_wroteScalar rd (.reg r) c s, pget_wroteScalar rd (.gen .g) c s,
    pget_wroteScalar rd (.gen .h) c s, pget_wroteScalar rd (.gen .k) c s⟩

/-- Settles O22: the point written is the old one with one coordinate replaced. -/
theorem pputWritesOneCoordinate : Obligations.PputWritesOneCoordinate := by
  intro rd c ra s
  obtain ⟨t, ht, hw⟩ := wrotePoint_succeed s rd ((s.getPR rd).withCoord c (s.getS ra)) false
  exact ⟨t, _, (exec_pput_eq s rd c ra).trans ht, hw, Point.coord_withCoord_same _ _ _,
    fun _ hd => Point.coord_withCoord_ne _ _ hd⟩

end Sys2Proof.Machine
end

section
/-! SUPPORT. The operand readings of the curve commands (42_curve.md R150 to R153): when a check passes, and what it
then reads. -/

namespace Sys2Proof.Machine

theorem XZ.isNull_iff {a : XZ} : a.isNull = true ↔ a.x = 0 ∧ a.z = 0 := by simp [XZ.isNull]

theorem XZ.not_isNull_of_z {a : XZ} (h : a.z ≠ 0) : ¬a.isNull = true := fun hn => h (XZ.isNull_iff.1 hn).2

theorem readXZ_isNull {s : State} {src : PSrc} :
    (s.readXZ src).isNull = true ↔ (s.pointSource src).x % s.cfg.p = 0 ∧ (s.pointSource src).z % s.cfg.p = 0 :=
  XZ.isNull_iff

theorem readXZ_x_zmod (s : State) (src : PSrc) : ((s.readXZ src).x : ZMod s.cfg.p) = (s.pointSource src).x :=
  ZMod.natCast_mod _ _

theorem readXZ_z_zmod (s : State) (src : PSrc) : ((s.readXZ src).z : ZMod s.cfg.p) = (s.pointSource src).z :=
  ZMod.natCast_mod _ _

/-- A stored XZ result that is reduced is read back as it is. -/
theorem readXZ_of_toPoint {s : State} {r : PReg} {a : XZ} (h : s.getPR r = a.toPoint)
    (hlt : a.x < s.cfg.p ∧ a.z < s.cfg.p) : s.readXZ (.reg r) = a := by
  simp [State.readXZ, State.pointSource, h, XZ.toPoint, Nat.mod_eq_of_lt hlt.1, Nat.mod_eq_of_lt hlt.2]

theorem readAff_identity {s : State} {src : PSrc} (hz : (s.pointSource src).z % s.cfg.p = 0) :
    s.readAff src = some .identity := if_pos hz

theorem readAff_affine {s : State} {src : PSrc} (hz : (s.pointSource src).z % s.cfg.p = 1) :
    s.readAff src = some (.finite ((s.pointSource src).x % s.cfg.p) ((s.pointSource src).y % s.cfg.p)) := by
  simp [State.readAff, hz]

theorem readAff_none {s : State} {src : PSrc} (h0 : (s.pointSource src).z % s.cfg.p ≠ 0)
    (h1 : (s.pointSource src).z % s.cfg.p ≠ 1) : s.readAff src = none := by
  simp [State.readAff, h0, h1]

/-- The three readings of a base (42_curve.md R152) are exclusive: only a Z of 1 gives a finite point. -/
theorem readAff_eq_finite {s : State} {src : PSrc} {x y : Nat} (h : s.readAff src = some (.finite x y)) :
    (s.pointSource src).z % s.cfg.p = 1 ∧ x = (s.pointSource src).x % s.cfg.p ∧
      y = (s.pointSource src).y % s.cfg.p := by
  by_cases h0 : (s.pointSource src).z % s.cfg.p = 0
  · simp [readAff_identity h0] at h
  by_cases h1 : (s.pointSource src).z % s.cfg.p = 1
  · rw [readAff_affine h1] at h
    cases h
    exact ⟨h1, rfl, rfl⟩
  · simp [readAff_none h0 h1] at h

@[simp] theorem State.setS_pointSource (s : State) (r : SReg) (v : Nat) (src : PSrc) :
    (s.setS r v).pointSource src = s.pointSource src := by
  rcases src with r | code
  · rfl
  · cases code <;> rfl

/-- A point source reads the configuration or one point register (10_state.md R26). -/
theorem pointSource_congr {s t : State} (hcfg : t.cfg = s.cfg) {src : PSrc}
    (hreg : ∀ r, src = .reg r → t.getPR r = s.getPR r) : t.pointSource src = s.pointSource src := by
  rcases src with r | code
  · exact hreg r rfl
  · cases code <;> simp [State.pointSource, hcfg]

end Sys2Proof.Machine
end

section
/-! SUPPORT. The curve formulas in the ring of residues (42_curve.md R154, R155, R157): the model reduces after every
line, and a reduced value stands for the same residue. -/

namespace Sys2Proof.Machine

/-- A reduced value is 0 exactly when its residue is. -/
theorem zmod_natCast_eq_zero_of_lt {P n : Nat} (h : n < P) : (n : ZMod P) = 0 ↔ n = 0 := by
  rw [ZMod.natCast_eq_zero_iff]
  exact ⟨fun hd => Nat.eq_zero_of_dvd_of_lt hd h, fun h0 => h0 ▸ dvd_zero P⟩

/-- A reduced value is the remainder of any number with its residue. -/
theorem eq_mod_of_zmod {P n m : Nat} (hn : n < P) (h : (n : ZMod P) = m) : n = m % P := by
  rw [← Nat.mod_eq_of_lt hn]
  exact (ZMod.natCast_eq_natCast_iff' _ _ _).1 h

theorem xADD_zmod {P : Nat} (hP : 0 < P) (a b d : XZ) :
    ((xADD P a b d).x : ZMod P) =
        d.z * (((a.x : ZMod P) - a.z) * (b.x + b.z) + ((a.x : ZMod P) + a.z) * (b.x - b.z)) ^ 2 ∧
      ((xADD P a b d).z : ZMod P) =
        d.x * (((a.x : ZMod P) - a.z) * (b.x + b.z) - ((a.x : ZMod P) + a.z) * (b.x - b.z)) ^ 2 := by
  simp [xADD, modZ_zmod _ hP]

theorem xDBL_zmod {P : Nat} (hP : 0 < P) (A24 : Nat) (a : XZ) :
    ((xDBL P A24 a).x : ZMod P) = ((a.x : ZMod P) + a.z) ^ 2 * ((a.x : ZMod P) - a.z) ^ 2 ∧
      ((xDBL P A24 a).z : ZMod P) =
        (4 * a.x * a.z) * (((a.x : ZMod P) - a.z) ^ 2 + A24 * (4 * a.x * a.z)) := by
  simp only [xDBL, modZ_zmod _ hP]
  push_cast [modZ_zmod _ hP]
  exact ⟨rfl, by ring⟩

theorem recoverXYZ_zmod {P : Nat} (hP : 0 < P) (A x y : Nat) (q r : XZ) :
    ((recoverXYZ P A x y q r).x : ZMod P) = 2 * y * q.z * r.z * q.x ∧
    ((recoverXYZ P A x y q r).y : ZMod P) =
      ((q.x + x * q.z + 2 * A * q.z) * (x * q.x + q.z) - 2 * A * q.z ^ 2) * r.z - (q.x - x * q.z) ^ 2 * r.x ∧
    ((recoverXYZ P A x y q r).z : ZMod P) = 2 * y * q.z * r.z * q.z := by
  simp only [recoverXYZ, modZ_zmod _ hP]
  push_cast [modZ_zmod _ hP]
  exact ⟨rfl, by ring, rfl⟩

/-- The recovery's denominator as a number: the one of the formula, reduced. -/
theorem recoverXYZ_z {P : Nat} (hP : 0 < P) (A x y : Nat) (q r : XZ) {den : Nat}
    (hden : (den : ZMod P) = 2 * y * q.z * r.z * q.z) : (recoverXYZ P A x y q r).z = den % P := by
  refine eq_mod_of_zmod (by simp only [recoverXYZ]; exact modZ_lt _ hP) ?_
  rw [(recoverXYZ_zmod hP A x y q r).2.2, hden]

/-- A product with the inverse of the denominator is the quotient by it. -/
theorem mul_invMod_mul_zmod {P d : Nat} (hP : 0 < P) (hg : Nat.gcd d P = 1) (n : Nat) :
    ((n * invMod d P % P : Nat) : ZMod P) * d = n := by
  have hinv := invMod_zmod d hP hg
  rw [ZMod.natCast_mod, Nat.cast_mul]
  linear_combination (n : ZMod P) * hinv

end Sys2Proof.Machine
end

section
/-! SUPPORT. XADD and XDBL (42_curve.md R160, R161). -/

namespace Sys2Proof.Machine

/-- The end XADD and XDBL share: an XZ result stored as (X, 0, Z), or DEGENERATE where it is (0, 0). -/
def storeXZ (rd : PReg) (r : XZ) (s : State) : Host.Outcome State Fault Refusal :=
  if r.isNull then raiseError .degenerate s else succeed false (s.setPR rd r.toPoint)

theorem exec_xadd_eq {s : State} (hP : 2 ≤ s.cfg.p) (rd : PReg) (a b d : PSrc) :
    exec (.xadd rd a b d) s =
      if (s.readXZ a).isNull = true ∨ (s.readXZ b).isNull = true ∨ (s.readXZ d).z = 0 then raiseError .degenerate s
      else storeXZ rd (xADD s.cfg.p (s.readXZ a) (s.readXZ b) (s.readXZ d)) s := by
  by_cases hd : (s.readXZ d).z = 0
  · simp [exec, execXadd, Nat.not_lt.2 hP, hd]
  · -- a difference with Z ≠ 0 is no (0, 0)
    simp [exec, execXadd, Nat.not_lt.2 hP, hd, XZ.not_isNull_of_z hd, storeXZ]

theorem exec_xdbl_eq {s : State} (hP : 2 ≤ s.cfg.p) (rd : PReg) (src : PSrc) :
    exec (.xdbl rd src) s =
      if (s.readXZ src).isNull = true then raiseError .degenerate s
      else storeXZ rd (xDBL s.cfg.p s.coeffA24 (s.readXZ src)) s := by
  simp [exec, execXdbl, Nat.not_lt.2 hP, storeXZ]

/-- What storing a reduced XZ result does, told by its residues. -/
theorem storeXZ_outcome (rd : PReg) {r : XZ} (s : State) {P : Nat} {X Z : ZMod P} (hlt : r.x < P ∧ r.z < P)
    (hr : (r.x : ZMod P) = X ∧ (r.z : ZMod P) = Z) :
    (¬(X = 0 ∧ Z = 0) →
      ∃ t x z, storeXZ rd r s = .next t ∧ WrotePoint s t rd { x := x, y := 0, z := z } false ∧ x < P ∧ z < P ∧
        (x : ZMod P) = X ∧ (z : ZMod P) = Z) ∧
    (X = 0 ∧ Z = 0 → ∃ t, storeXZ rd r s = .next t ∧ WroteNothing s t .degenerate) := by
  obtain ⟨hxlt, hzlt⟩ := hlt
  obtain ⟨hx, hz⟩ := hr
  have hnull : r.isNull = true ↔ X = 0 ∧ Z = 0 := by
    rw [XZ.isNull_iff, ← hx, ← hz, zmod_natCast_eq_zero_of_lt hxlt, zmod_natCast_eq_zero_of_lt hzlt]
  constructor
  · intro h
    rw [storeXZ, if_neg (mt hnull.1 h)]
    obtain ⟨t, ht, hw⟩ := wrotePoint_succeed s rd r.toPoint false
    exact ⟨t, r.x, r.z, ht, hw, hxlt, hzlt, hx, hz⟩
  · intro h
    rw [storeXZ, if_pos (hnull.2 h)]
    exact wroteNothing_raiseError _ _

/-- Settles O23: with its operands accepted, XADD stores xADD of their residues. -/
theorem xaddFormula : Obligations.XaddFormula := by
  intro rd srcP srcQ srcDiff s P p q d U V X3 Z3 hP hp hq hd
  have hP0 : 0 < s.cfg.p := Nat.lt_of_lt_of_le Nat.two_pos hP
  rw [exec_xadd_eq hP, if_neg (by rw [readXZ_isNull, readXZ_isNull]; exact not_or.2 ⟨hp, not_or.2 ⟨hq, hd⟩⟩)]
  refine storeXZ_outcome rd s (xADD_lt hP0 _ _ _) ?_
  simpa only [readXZ_x_zmod, readXZ_z_zmod] using xADD_zmod hP0 (s.readXZ srcP) (s.readXZ srcQ) (s.readXZ srcDiff)

/-- Settles O24: with its operand accepted, XDBL stores xDBL of its residues. -/
theorem xdblFormula : Obligations.XdblFormula := by
  intro rd src s P p T X2 Z2 hP hp
  have hP0 : 0 < s.cfg.p := Nat.lt_of_lt_of_le Nat.two_pos hP
  rw [exec_xdbl_eq hP, if_neg (mt readXZ_isNull.1 hp)]
  refine storeXZ_outcome rd s (xDBL_lt hP0 _ _) ?_
  simpa only [readXZ_x_zmod, readXZ_z_zmod, State.coeffA24, ZMod.natCast_mod] using
    xDBL_zmod hP0 s.coeffA24 (s.readXZ src)

end Sys2Proof.Machine
end

section
/-! SUPPORT. LADDER (42_curve.md R156, R162). -/

namespace Sys2Proof.Machine

/-- The ladder's outputs for the raw scalar S[ra] and the base's x. -/
def State.ladderOf (s : State) (ra : SReg) (base : PSrc) : XZ × XZ :=
  ladder s.cfg.p s.coeffA24 (s.getS ra) ((s.pointSource base).x % s.cfg.p)

/-- Whether one of the ladder's outputs is (0, 0), no projective point. -/
def NullOutput (l : XZ × XZ) : Prop := (l.1.x = 0 ∧ l.1.z = 0) ∨ (l.2.x = 0 ∧ l.2.z = 0)

theorem nullOutput_iff {l : XZ × XZ} : (l.1.isNull || l.2.isNull) = true ↔ NullOutput l := by
  rw [Bool.or_eq_true, XZ.isNull_iff, XZ.isNull_iff, NullOutput]

theorem ladderOf_lt {s : State} (hP : 2 ≤ s.cfg.p) (ra : SReg) (base : PSrc) :
    ((s.ladderOf ra base).1.x < s.cfg.p ∧ (s.ladderOf ra base).1.z < s.cfg.p) ∧
      (s.ladderOf ra base).2.x < s.cfg.p ∧ (s.ladderOf ra base).2.z < s.cfg.p :=
  ladder_lt hP (Nat.mod_lt _ (Nat.lt_of_lt_of_le Nat.two_pos hP)) _ _

section
variable {s : State} {rd re : PReg} {ra : SReg} {base : PSrc}

theorem exec_ladder_null (hP : 2 ≤ s.cfg.p) (hne : rd ≠ re) (hz : (s.pointSource base).z % s.cfg.p = 1)
    (hx : (s.pointSource base).x % s.cfg.p ≠ 0) (hl : NullOutput (s.ladderOf ra base)) :
    exec (.ladder rd re ra base) s = raiseError .degenerate s := by
  rw [← nullOutput_iff, State.ladderOf] at hl
  simp only [exec, execLadder, if_neg hne, if_neg (Nat.not_lt.2 hP), readAff_affine hz, if_neg hx, if_pos hl]

theorem exec_ladder_points (hP : 2 ≤ s.cfg.p) (hne : rd ≠ re) (hz : (s.pointSource base).z % s.cfg.p = 1)
    (hx : (s.pointSource base).x % s.cfg.p ≠ 0) (hl : ¬NullOutput (s.ladderOf ra base)) :
    exec (.ladder rd re ra base) s =
      succeed false ((s.setPR rd (s.ladderOf ra base).1.toPoint).setPR re (s.ladderOf ra base).2.toPoint) := by
  rw [← nullOutput_iff, State.ladderOf] at hl
  simp only [exec, execLadder, if_neg hne, if_neg (Nat.not_lt.2 hP), readAff_affine hz, if_neg hx, if_neg hl]
  rfl

/-- What a LADDER that succeeded tells of the state it ran on and of the registers after it. -/
structure LadderSucceeds (s t : State) (rd re : PReg) (ra : SReg) (base : PSrc) : Prop where
  modulus : 2 ≤ s.cfg.p
  dests : rd ≠ re
  finite : (s.pointSource base).z % s.cfg.p = 1
  xNonzero : (s.pointSource base).x % s.cfg.p ≠ 0
  points : ¬NullOutput (s.ladderOf ra base)
  first : t.getPR rd = (s.ladderOf ra base).1.toPoint
  second : t.getPR re = (s.ladderOf ra base).2.toPoint

/-- Past its checks LADDER writes its two outputs; every other way out of it is an error. -/
theorem ladderSucceeds_of_exec {t : State} (h : exec (.ladder rd re ra base) s = .next t)
    (he : t.status.ecode = .none) : LadderSucceeds s t rd re ra base := by
  have noError : ∀ e, exec (.ladder rd re ra base) s = raiseError e s → e = .none := fun e hi => by
    rw [hi, raiseError_next] at h
    rw [← he, ← h]
    rfl
  by_cases hne : rd = re
  · cases noError .illegal (by simp [exec, execLadder, hne])
  by_cases hP : s.cfg.p < 2
  · cases noError .param (by simp [exec, execLadder, hne, hP])
  cases ha : s.readAff base with
  | none => cases noError .param (by simp [exec, execLadder, hne, hP, ha])
  | some b =>
    cases b with
    | identity => cases noError .degenerate (by simp [exec, execLadder, hne, hP, ha])
    | finite x y =>
      obtain ⟨hz, hx, -⟩ := readAff_eq_finite ha
      by_cases hx0 : (s.pointSource base).x % s.cfg.p = 0
      · cases noError .degenerate (by simp [exec, execLadder, hne, hP, ha, hx, hx0])
      by_cases hl : NullOutput (s.ladderOf ra base)
      · cases noError .degenerate (exec_ladder_null (Nat.not_lt.1 hP) hne hz hx0 hl)
      rw [exec_ladder_points (Nat.not_lt.1 hP) hne hz hx0 hl, succeed_next] at h
      refine ⟨Nat.not_lt.1 hP, hne, hz, hx0, hl, ?_, ?_⟩
      · rw [← h, State.complete_getPR, State.getPR_setPR_ne _ _ hne, State.getPR_setPR_same]
      · rw [← h, State.complete_getPR, State.getPR_setPR_same]

end

/-- Settles O25: the frames are those of every command (O10); the two outputs stand in the registers because a LADDER
past its checks succeeds. -/
theorem ladderWritesItsTwoOutputs : Obligations.LadderWritesItsTwoOutputs := by
  intro rd re ra base s P b l hP hne hz hx
  constructor
  · intro h1 h2
    have hexec := exec_ladder_points (ra := ra) hP hne hz hx (not_or.2 ⟨h1, h2⟩)
    rw [succeed_eq] at hexec
    have hsucc := ladderSucceeds_of_exec hexec rfl
    obtain ⟨hscalars, hpoints, hbanks, -, hrandom, hcontrol⟩ := commandsWriteOnlyTheirDestinations _ s _ hexec
    refine ⟨_, hexec, completed_complete _ _ (by simp) (by simp), hsucc.first, hsucc.second, ?_, ?_, hbanks rfl,
      hcontrol, hrandom rfl⟩
    · exact fun r hrd hre => hpoints r (by simp [pointDests, hrd, hre])
    · exact fun r => hscalars r (by simp [scalarDest])
  · intro hl
    rw [exec_ladder_null hP hne hz hx hl]
    exact wroteNothing_raiseError _ _

/-- The registers after a LADDER on scalar `k`. -/
theorem ladder_outputs {s t : State} {rd re : PReg} {ra : SReg} {base : PSrc} {k : Nat}
    (h : exec (.ladder rd re ra base) (s.setS ra k) = .next t) (he : t.status.ecode = .none) :
    t.getPR rd = (ladder s.cfg.p s.coeffA24 k ((s.pointSource base).x % s.cfg.p)).1.toPoint ∧
      t.getPR re = (ladder s.cfg.p s.coeffA24 k ((s.pointSource base).x % s.cfg.p)).2.toPoint := by
  have hsucc := ladderSucceeds_of_exec h he
  have hout : (s.setS ra k).ladderOf ra base =
      ladder s.cfg.p s.coeffA24 k ((s.pointSource base).x % s.cfg.p) := by
    simp [State.ladderOf, State.coeffA24]
  rw [← hout]
  exact ⟨hsucc.first, hsucc.second⟩

/-- Settles O26: the registers hold the outputs of the ladder function, whose recursion on the scalar is one step for
the last bit. -/
theorem ladderStepsByBits : Obligations.LadderStepsByBits := by
  intro rd re ra base s t u j b ht het hu heu
  obtain ⟨ht0, ht1⟩ := ladder_outputs ht het
  obtain ⟨hu0, hu1⟩ := ladder_outputs hu heu
  constructor
  · intro hpos
    rw [ladder_double _ _ _ _ _ hpos] at hu0 hu1
    simp only [ht0, ht1, hu0, hu1]
    refine ⟨?_, ?_⟩ <;> rintro rfl <;> exact ⟨rfl, rfl⟩
  · rintro rfl
    rw [ladder_zero] at ht0 ht1
    exact ⟨ht0, ht1⟩

end Sys2Proof.Machine
end

section
/-! SUPPORT. RECOV and SMUL, which end alike (42_curve.md R157, R158, R163, R164). -/

namespace Sys2Proof.Machine

/-! ## The common end -/

/-- An affine result is written, with INF = 1 exactly for O. -/
theorem finishAffine_ok (rd : PReg) (pt : Affine) (s : State) :
    ∃ t, finishAffine rd (.ok pt) s = .next t ∧ WrotePoint s t rd pt.toPoint pt.isIdentity :=
  wrotePoint_succeed s rd pt.toPoint pt.isIdentity

/-- The recovery's error is raised. -/
theorem finishAffine_error (rd : PReg) (e : ECode) (s : State) :
    ∃ t, finishAffine rd (.error e) s = .next t ∧ WroteNothing s t e :=
  wroteNothing_raiseError e s

/-- What the end records and writes does not depend on the state it starts from. -/
theorem finishAffine_agrees {rd : PReg} {r : Except ECode Affine} {s t u v : State} (hr : r ≠ .error .none)
    (hu : finishAffine rd r t = .next u) (hv : finishAffine rd r s = .next v) :
    v.status.ecode = u.status.ecode ∧ v.status.inf = u.status.inf ∧
      (u.status.ecode = .none → v.getPR rd = u.getPR rd) := by
  cases r with
  | ok pt =>
    obtain ⟨u', hu', hwu⟩ := finishAffine_ok rd pt t
    obtain ⟨v', hv', hwv⟩ := finishAffine_ok rd pt s
    cases hu.symm.trans hu'
    cases hv.symm.trans hv'
    exact ⟨hwv.outcome.ecode.trans hwu.outcome.ecode.symm, hwv.outcome.inf.trans hwu.outcome.inf.symm,
      fun _ => hwv.result.trans hwu.result.symm⟩
  | error e =>
    obtain ⟨u', hu', hwu⟩ := finishAffine_error rd e t
    obtain ⟨v', hv', hwv⟩ := finishAffine_error rd e s
    cases hu.symm.trans hu'
    cases hv.symm.trans hv'
    exact ⟨hwv.outcome.ecode.trans hwu.outcome.ecode.symm, hwv.outcome.inf.trans hwu.outcome.inf.symm,
      fun hnone => absurd (hwu.outcome.ecode.symm.trans hnone) fun h => hr (h ▸ rfl)⟩

section
variable {s : State} {rd : PReg} {ra : SReg} {base k k1 : PSrc}

theorem exec_recov_points (hP : 2 ≤ s.cfg.p) (hz : (s.pointSource base).z % s.cfg.p = 1)
    (hk : ¬(s.readXZ k).isNull = true) (hk1 : ¬(s.readXZ k1).isNull = true) :
    exec (.recov rd base k k1) s =
      finishAffine rd (recover s.cfg.p s.coeffA ((s.pointSource base).x % s.cfg.p) ((s.pointSource base).y % s.cfg.p)
        (s.readXZ k) (s.readXZ k1)) s := by
  simp [exec, execRecov, Nat.not_lt.2 hP, readAff_affine hz, hk, hk1]

theorem exec_recov_null (hP : 2 ≤ s.cfg.p) (hz : (s.pointSource base).z % s.cfg.p = 1)
    (h : (s.readXZ k).isNull = true ∨ (s.readXZ k1).isNull = true) :
    exec (.recov rd base k k1) s = raiseError .degenerate s := by
  simp [exec, execRecov, Nat.not_lt.2 hP, readAff_affine hz, h]

theorem exec_smul_identity (hP : 2 ≤ s.cfg.p) (hz : (s.pointSource base).z % s.cfg.p = 0) :
    exec (.smul rd ra base) s = finishAffine rd (.ok .identity) s := by
  simp [exec, execSmul, Nat.not_lt.2 hP, readAff_identity hz]

theorem exec_smul_null (hP : 2 ≤ s.cfg.p) (hz : (s.pointSource base).z % s.cfg.p = 1)
    (hx : (s.pointSource base).x % s.cfg.p ≠ 0) (hl : NullOutput (s.ladderOf ra base)) :
    exec (.smul rd ra base) s = raiseError .degenerate s := by
  rw [← nullOutput_iff, State.ladderOf] at hl
  simp only [exec, execSmul, if_neg (Nat.not_lt.2 hP), readAff_affine hz, if_neg hx, if_pos hl]

theorem exec_smul_points (hP : 2 ≤ s.cfg.p) (hz : (s.pointSource base).z % s.cfg.p = 1)
    (hx : (s.pointSource base).x % s.cfg.p ≠ 0) (hl : ¬NullOutput (s.ladderOf ra base)) :
    exec (.smul rd ra base) s =
      finishAffine rd (recover s.cfg.p s.coeffA ((s.pointSource base).x % s.cfg.p) ((s.pointSource base).y % s.cfg.p)
        (s.ladderOf ra base).1 (s.ladderOf ra base).2) s := by
  rw [← nullOutput_iff, State.ladderOf] at hl
  simp only [exec, execSmul, if_neg (Nat.not_lt.2 hP), readAff_affine hz, if_neg hx, if_neg hl]
  rfl

end

/-! ## What the recovery answers -/

section
variable {P A x y : Nat} {q r : XZ}

theorem recover_identity (hq : q.z = 0) : recover P A x y q r = .ok .identity := if_pos hq

theorem recover_negated (hq : q.z ≠ 0) (hr : r.z = 0) :
    recover P A x y q r = .ok (.finite x (modZ ((P : Int) - y) P)) := by
  rw [recover, if_neg hq, if_pos hr]

variable {den : Nat}

theorem recover_degenerate (hP : 0 < P) (hq : q.z ≠ 0) (hr : r.z ≠ 0)
    (hden : (den : ZMod P) = 2 * y * q.z * r.z * q.z) (h0 : den % P = 0) :
    recover P A x y q r = .error .degenerate := by
  simp [recover, hq, hr, recoverXYZ_z hP A x y q r hden, h0]

theorem recover_notInvertible (hP : 0 < P) (hq : q.z ≠ 0) (hr : r.z ≠ 0)
    (hden : (den : ZMod P) = 2 * y * q.z * r.z * q.z) (h0 : den % P ≠ 0) (hg : Nat.gcd den P ≠ 1) :
    recover P A x y q r = .error .notInvertible := by
  simp [recover, hq, hr, recoverXYZ_z hP A x y q r hden, h0, gcd_mod_left, hg]

/-- With an invertible denominator the recovery answers the quotients of the formula (42_curve.md R157). -/
theorem recover_finite (hP : 2 ≤ P) (hq : q.z ≠ 0) (hr : r.z ≠ 0)
    (hden : (den : ZMod P) = 2 * y * q.z * r.z * q.z) (hg : Nat.gcd den P = 1) :
    ∃ u v, recover P A x y q r = .ok (.finite u v) ∧ u < P ∧ v < P ∧
      (u : ZMod P) * den = 2 * y * q.z * r.z * q.x ∧
      (v : ZMod P) * den =
        ((q.x + x * q.z + 2 * A * q.z) * (x * q.x + q.z) - 2 * A * q.z ^ 2) * r.z - (q.x - x * q.z) ^ 2 * r.x := by
  have hP0 : 0 < P := by omega
  obtain ⟨hX, hY, hZ⟩ := recoverXYZ_zmod hP0 A x y q r
  rw [← gcd_mod_left, ← recoverXYZ_z hP0 A x y q r hden] at hg
  have h0 : (recoverXYZ P A x y q r).z ≠ 0 := fun h => by
    rw [h, Nat.gcd_zero_left] at hg
    omega
  rw [hden, ← hX, ← hY, ← hZ]
  exact ⟨_, _, (if_neg hq).trans ((if_neg hr).trans ((if_neg h0).trans (if_neg (not_not.2 hg)))), Nat.mod_lt _ hP0,
    Nat.mod_lt _ hP0, mul_invMod_mul_zmod hP0 hg _, mul_invMod_mul_zmod hP0 hg _⟩

end

/-! ## RECOV -/

/-- Settles O27: the three ways the denominator can be, each with the recovery's answer for it. -/
theorem recovFormula : Obligations.RecovFormula := by
  intro rd base srcK srcK1 s P b q r den x A Xp Yp hP hb hq hr
  have hP0 : 0 < s.cfg.p := Nat.lt_of_lt_of_le Nat.two_pos hP
  rw [exec_recov_points hP hb (XZ.not_isNull_of_z hq) (XZ.not_isNull_of_z hr)]
  have hden : (den : ZMod s.cfg.p) =
      2 * (b.y % s.cfg.p : Nat) * (s.readXZ srcK).z * (s.readXZ srcK1).z * (s.readXZ srcK).z := by
    simp only [readXZ_z_zmod, ZMod.natCast_mod]
    push_cast [den]
    rfl
  refine ⟨fun hg => ?_, fun h0 => ?_, fun h0 hg => ?_⟩
  · -- invertible
    obtain ⟨u, v, hrec, hu, hv, hX, hY⟩ := recover_finite (P := s.cfg.p) (A := s.coeffA) (x := b.x % P) hP hq hr hden hg
    obtain ⟨t, ht, hw⟩ := finishAffine_ok rd (.finite u v) s
    simp only [readXZ_x_zmod, readXZ_z_zmod, State.coeffA, ZMod.natCast_mod] at hX hY
    exact ⟨t, u, v, hrec ▸ ht, hw, hu, hv, hX, hY⟩
  · rw [recover_degenerate hP0 hq hr hden h0]
    exact finishAffine_error _ _ _
  · rw [recover_notInvertible hP0 hq hr hden h0 hg]
    exact finishAffine_error _ _ _

/-- The reduced negative of a reduced y cancels y. -/
theorem modZ_neg_add_mod {P : Nat} (hP : 0 < P) (y : Nat) : (modZ ((P : Int) - (y % P : Nat)) P + y) % P = 0 := by
  apply Nat.mod_eq_zero_of_dvd
  rw [← ZMod.natCast_eq_zero_iff]
  push_cast [modZ_zmod _ hP]
  simp

/-- Settles O28: the recovery looks at ZQ first, then at ZS. -/
theorem recovEarlyAnswers : Obligations.RecovEarlyAnswers := by
  intro rd base srcK srcK1 s P b q r hP hb hq hr
  have hP0 : 0 < s.cfg.p := Nat.lt_of_lt_of_le Nat.two_pos hP
  rw [exec_recov_points hP hb (mt readXZ_isNull.1 hq) (mt readXZ_isNull.1 hr)]
  refine ⟨fun hq0 => ?_, fun hq0 hr0 => ?_⟩
  · rw [recover_identity hq0]
    exact finishAffine_ok _ _ _
  · rw [recover_negated hq0 hr0]
    obtain ⟨t, ht, hw⟩ := finishAffine_ok rd (.finite (b.x % P) (modZ ((P : Int) - (b.y % P : Nat)) P)) s
    exact ⟨t, _, ht, hw, modZ_lt _ hP0, modZ_neg_add_mod hP0 b.y⟩

/-! ## SMUL -/

/-- Settles O29: RECOV reads back the outputs LADDER stored, which are reduced, and the same base. -/
theorem smulIsLadderThenRecov : Obligations.SmulIsLadderThenRecov := by
  intro rd re rx ra base s t u v hrd hre ht het hu hv
  have hl := ladderSucceeds_of_exec ht het
  obtain ⟨-, hpoints, -, -, -, hcontrol⟩ := commandsWriteOnlyTheirDestinations _ s _ ht
  have hcfg : t.cfg = s.cfg := hcontrol.cfg
  have hbase : t.pointSource base = s.pointSource base := by
    refine pointSource_congr hcfg fun r hr => hpoints r ?_
    intro hmem
    rcases List.mem_pair.1 hmem with rfl | rfl
    exacts [hrd hr, hre hr]
  obtain ⟨hlt1, hlt2⟩ := ladderOf_lt hl.modulus ra base
  have hread : t.readXZ (.reg rd) = (s.ladderOf ra base).1 := readXZ_of_toPoint hl.first (hcfg ▸ hlt1)
  have hread1 : t.readXZ (.reg re) = (s.ladderOf ra base).2 := readXZ_of_toPoint hl.second (hcfg ▸ hlt2)
  obtain ⟨hn1, hn2⟩ := not_or.1 hl.points
  rw [exec_recov_points (hcfg ▸ hl.modulus) (by rw [hbase, hcfg]; exact hl.finite)
    (by rw [hread]; exact mt XZ.isNull_iff.1 hn1) (by rw [hread1]; exact mt XZ.isNull_iff.1 hn2),
    hread, hread1, hbase, State.coeffA, hcfg] at hu
  rw [exec_smul_points hl.modulus hl.finite hl.xNonzero hl.points] at hv
  exact finishAffine_agrees (fun h => recover_error h rfl) hu hv

/-- Settles O30: past its checks SMUL ends as the recovery from its ladder's outputs does. -/
theorem smulWritesTheRecoveredPoint : Obligations.SmulWritesTheRecoveredPoint := by
  intro rd ra base s P b l r hP hb hx
  constructor
  · intro h1 h2
    have hexec : exec (.smul rd ra base) s = finishAffine rd r s := exec_smul_points hP hb hx (not_or.2 ⟨h1, h2⟩)
    refine ⟨fun u v hr => ?_, fun hr => ?_, fun e hr => ?_⟩
    · rw [hexec, hr]
      exact finishAffine_ok _ _ _
    · rw [hexec, hr]
      exact finishAffine_ok _ _ _
    · rw [hexec, hr]
      exact finishAffine_error _ _ _
  · intro hl
    rw [exec_smul_null hP hb hx hl]
    exact wroteNothing_raiseError _ _

/-- Settles O31: a base O answers O before the ladder, and the ladder of 0 ends at O. -/
theorem smulGivesTheIdentity : Obligations.SmulGivesTheIdentity := by
  intro rd ra base s hP
  refine ⟨fun hz => ?_, fun hz hx hk => ?_⟩
  · rw [exec_smul_identity hP hz]
    exact finishAffine_ok _ _ _
  · have hl : s.ladderOf ra base = ({ x := 1, z := 0 }, { x := (s.pointSource base).x % s.cfg.p, z := 1 }) := by
      rw [State.ladderOf, hk, ladder_zero]
    rw [exec_smul_points hP hz hx (by simp [hl, NullOutput]), recover_identity (by rw [hl])]
    exact finishAffine_ok _ _ _

end Sys2Proof.Machine
end

section
/-! SUPPORT. SMUL by 1 on a curve (42_curve.md R158): the ladder's one step, and the recovery from its outputs. -/

namespace Sys2Proof.Machine

/-- The ladder of 1 is one step for the bit 1. -/
theorem ladder_one (P A24 x : Nat) :
    ladder P A24 1 x =
      (xADD P { x := 1, z := 0 } { x := x, z := 1 } { x := x, z := 1 }, xDBL P A24 { x := x, z := 1 }) :=
  ladder_double P A24 x 0 true Nat.one_pos

/-- The ladder's first output for 1 is the base in XZ form, scaled by 4x. -/
theorem ladder_one_first {P : Nat} (hP : 0 < P) (A24 x : Nat) :
    ((ladder P A24 1 x).1.x : ZMod P) = 4 * x ^ 2 ∧ ((ladder P A24 1 x).1.z : ZMod P) = 4 * x := by
  obtain ⟨hx, hz⟩ := xADD_zmod hP { x := 1, z := 0 } { x := x, z := 1 } { x := x, z := 1 }
  rw [ladder_one, hx, hz]
  push_cast
  constructor <;> ring

/-- The ladder's second output for 1 is the double of a base on the curve, whose Z is 4y². -/
theorem ladder_one_second {P : Nat} (hP : 0 < P) {A24 x : Nat} {A y : ZMod P} (hA : 4 * (A24 : ZMod P) = A + 2)
    (hcurve : y ^ 2 = (x : ZMod P) ^ 3 + A * x ^ 2 + x) :
    ((ladder P A24 1 x).2.x : ZMod P) = ((x : ZMod P) ^ 2 - 1) ^ 2 ∧ ((ladder P A24 1 x).2.z : ZMod P) = 4 * y ^ 2 := by
  obtain ⟨hx, hz⟩ := xDBL_zmod hP A24 { x := x, z := 1 }
  rw [ladder_one, hx, hz, hcurve]
  push_cast
  exact ⟨by ring, by linear_combination 4 * (x : ZMod P) ^ 2 * hA⟩

/-- On a non-singular curve (70_reset_and_hazards.md R256) a point of order two is no double root: its x is not ±1. -/
theorem sq_ne_one_of_nonsingular {F : Type} [Field F] {A x : F} (hA : A ^ 2 ≠ 4) (hx : x ≠ 0)
    (hroot : x ^ 3 + A * x ^ 2 + x = 0) : x ^ 2 ≠ 1 := fun h => by
  have hsum : A * x + 2 = 0 := mul_left_cancel₀ hx (by linear_combination hroot - x * h)
  exact hA (by linear_combination (A * x - 2) * hsum - A ^ 2 * h)

section
variable {P : Nat} [hprime : Fact P.Prime]

/-- An odd prime has 2 among its non-zero residues. -/
theorem two_ne_zero_zmod (h2 : P ≠ 2) : (2 : ZMod P) ≠ 0 := fun h => by
  have hdvd : P ∣ 2 := (ZMod.natCast_eq_zero_iff 2 P).1 (by exact_mod_cast h)
  exact h2 ((Nat.prime_dvd_prime_iff_eq hprime.out Nat.prime_two).1 hdvd)

theorem four_ne_zero_zmod (h2 : P ≠ 2) : (4 : ZMod P) ≠ 0 := by
  rw [show (4 : ZMod P) = 2 * 2 by norm_num]
  exact mul_ne_zero (two_ne_zero_zmod h2) (two_ne_zero_zmod h2)

/-- A number with a non-zero residue is prime to P. -/
theorem gcd_eq_one_of_zmod_ne_zero {n : Nat} (h : (n : ZMod P) ≠ 0) : Nat.gcd n P = 1 :=
  ((hprime.out.coprime_iff_not_dvd).2 (mt (ZMod.natCast_eq_zero_iff n P).2 h)).symm

section
variable {A A24 x y : Nat}

theorem ladder_one_first_z (h2 : P ≠ 2) (hx : (x : ZMod P) ≠ 0) : (ladder P A24 1 x).1.z ≠ 0 := fun h => by
  obtain ⟨-, hz⟩ := ladder_one_first hprime.out.pos A24 x
  rw [h, Nat.cast_zero] at hz
  exact mul_ne_zero (four_ne_zero_zmod h2) hx hz.symm

/-- The second output for 1 has Z = 0 exactly where the base has order two. -/
theorem ladder_one_second_z (h2 : P ≠ 2) (hA24 : 4 * (A24 : ZMod P) = A + 2) (hxlt : x < P)
    (hcurve : (y : ZMod P) ^ 2 = (x : ZMod P) ^ 3 + A * x ^ 2 + x) :
    (ladder P A24 1 x).2.z = 0 ↔ (y : ZMod P) = 0 := by
  obtain ⟨-, hz⟩ := ladder_one_second hprime.out.pos hA24 hcurve
  rw [← zmod_natCast_eq_zero_of_lt (ladder_lt hprime.out.two_le hxlt A24 1).2.2, hz]
  simp [four_ne_zero_zmod h2]

/-- Both outputs for 1 are points. -/
theorem ladder_one_points (h2 : P ≠ 2) (hA : (A : ZMod P) ^ 2 ≠ 4) (hA24 : 4 * (A24 : ZMod P) = A + 2)
    (hx : (x : ZMod P) ≠ 0) (hxlt : x < P) (hcurve : (y : ZMod P) ^ 2 = (x : ZMod P) ^ 3 + A * x ^ 2 + x) :
    ¬NullOutput (ladder P A24 1 x) := by
  rintro (⟨-, hz⟩ | ⟨hX, hz⟩)
  · exact ladder_one_first_z h2 hx hz
  · have hy : (y : ZMod P) = 0 := (ladder_one_second_z h2 hA24 hxlt hcurve).1 hz
    obtain ⟨hrx, -⟩ := ladder_one_second hprime.out.pos hA24 hcurve
    rw [hX, Nat.cast_zero] at hrx
    rw [hy, zero_pow two_ne_zero] at hcurve
    exact sq_ne_one_of_nonsingular hA hx hcurve.symm (sub_eq_zero.1 (pow_eq_zero_iff two_ne_zero |>.1 hrx.symm))

/-- The recovery from the ladder's outputs for 1 answers the base: by the early answer where y = 0, and by the formula
everywhere else. -/
theorem recover_ladder_one (h2 : P ≠ 2) (hA24 : 4 * (A24 : ZMod P) = A + 2) (hx : (x : ZMod P) ≠ 0) (hxlt : x < P)
    (hylt : y < P) (hcurve : (y : ZMod P) ^ 2 = (x : ZMod P) ^ 3 + A * x ^ 2 + x) :
    recover P A x y (ladder P A24 1 x).1 (ladder P A24 1 x).2 = .ok (.finite x y) := by
  have hq := ladder_one_first_z (A24 := A24) h2 hx
  have hr := ladder_one_second_z h2 hA24 hxlt hcurve
  obtain ⟨hqx, hqz⟩ := ladder_one_first hprime.out.pos A24 x
  obtain ⟨hrx, hrz⟩ := ladder_one_second hprime.out.pos hA24 hcurve
  generalize (ladder P A24 1 x).1 = q at *
  generalize (ladder P A24 1 x).2 = r at *
  by_cases hy : (y : ZMod P) = 0
  · rw [recover_negated hq (hr.2 hy), (zmod_natCast_eq_zero_of_lt hylt).1 hy]
    simp
  have hden0 : ((2 * y * q.z * r.z * q.z : Nat) : ZMod P) ≠ 0 := by
    push_cast
    simp [hqz, hrz, hx, hy, two_ne_zero_zmod h2, four_ne_zero_zmod h2]
  obtain ⟨u, v, hrec, hu, hv, hX, hY⟩ := recover_finite (A := A) (x := x) hprime.out.two_le hq (mt hr.1 hy)
    (by push_cast; rfl) (gcd_eq_one_of_zmod_ne_zero hden0)
  have hux : (u : ZMod P) = x := mul_right_cancel₀ hden0 (hX.trans (by
    push_cast [hqx, hqz]
    ring))
  have hvy : (v : ZMod P) = y := mul_right_cancel₀ hden0 (hY.trans (by
    push_cast [hqx, hqz, hrz]
    linear_combination (-128 * (x : ZMod P) ^ 2 * y ^ 2) * hcurve))
  rw [hrec, eq_mod_of_zmod hu hux, eq_mod_of_zmod hv hvy, Nat.mod_eq_of_lt hxlt, Nat.mod_eq_of_lt hylt]

end

end

/-- Settles O32: the ladder of 1 ends at two points, and the recovery from them answers the base. -/
theorem smulByOneGivesTheBase : Obligations.SmulByOneGivesTheBase := by
  intro rd ra base s P b A hprime h2 hA hA24 hz hx hcurve hk
  have : Fact s.cfg.p.Prime := ⟨hprime⟩
  have hxlt : b.x % P < P := Nat.mod_lt _ hprime.pos
  have hx0 : ((b.x % P : Nat) : ZMod s.cfg.p) ≠ 0 := mt (zmod_natCast_eq_zero_of_lt hxlt).1 hx
  have hA' : ((s.coeffA : Nat) : ZMod s.cfg.p) ^ 2 ≠ 4 := by rwa [State.coeffA, ZMod.natCast_mod]
  have hA24' : 4 * (s.coeffA24 : ZMod s.cfg.p) = s.coeffA + 2 := by
    rwa [State.coeffA, State.coeffA24, ZMod.natCast_mod, ZMod.natCast_mod]
  have hcurve' : ((b.y % P : Nat) : ZMod s.cfg.p) ^ 2 =
      ((b.x % P : Nat) : ZMod s.cfg.p) ^ 3 + s.coeffA * ((b.x % P : Nat) : ZMod s.cfg.p) ^ 2 + (b.x % P : Nat) := by
    simpa only [State.coeffA, ZMod.natCast_mod, P] using hcurve
  have hl : s.ladderOf ra base = ladder P s.coeffA24 1 (b.x % P) := by rw [State.ladderOf, hk]
  rw [exec_smul_points hprime.two_le hz hx (hl ▸ ladder_one_points h2 hA' hA24' hx0 hxlt hcurve'), hl,
    recover_ladder_one h2 hA24' hx0 hxlt (Nat.mod_lt _ hprime.pos) hcurve']
  exact finishAffine_ok _ _ _

end Sys2Proof.Machine
end

section
/-! SUPPORT. The errors of the curve commands' operand checks (42_curve.md R151 to R153; 60_exceptions.md R223,
R224). -/

namespace Sys2Proof.Machine

/-- Settles O33: each check raises its error before anything is computed. -/
theorem curveOperandErrors : Obligations.CurveOperandErrors := by
  intro rd re ra base a b d s P pt null hP hne
  have hlt : ¬s.cfg.p < 2 := Nat.not_lt.2 hP
  have raises : ∀ {i : Instr} {e : ECode}, exec i s = raiseError e s → ∃ t, exec i s = .next t ∧ WroteNothing s t e :=
    fun hi => hi ▸ wroteNothing_raiseError _ _
  have hnull : ∀ src, null src ↔ (s.readXZ src).isNull = true := fun src => readXZ_isNull.symm
  refine ⟨fun h0 h1 i hi => raises ?_, fun h0 i hi => raises ?_, fun h1 hx i hi => raises ?_, fun h1 hab => raises ?_,
    fun h => raises ?_, fun ha => raises ?_⟩
  · -- a base that is neither O nor affine
    have hread : s.readAff base = none := readAff_none h0 h1
    simp only [List.mem_cons, List.not_mem_nil, or_false] at hi
    rcases hi with rfl | rfl | rfl <;>
      simp [exec, execLadder, execRecov, execSmul, hlt, hne, hread]
  · -- a base O
    have hread : s.readAff base = some .identity := readAff_identity h0
    simp only [List.mem_cons, List.not_mem_nil, or_false] at hi
    rcases hi with rfl | rfl <;> simp [exec, execLadder, execRecov, hlt, hne, hread]
  · -- a base with x = 0
    have hread : s.readAff base = some (.finite 0 (pt.y % P)) := by rw [readAff_affine h1, hx]
    simp only [List.mem_cons, List.not_mem_nil, or_false] at hi
    rcases hi with rfl | rfl <;> simp [exec, execLadder, execSmul, hlt, hne, hread]
  · exact exec_recov_null hP h1 (hab.imp (hnull a).1 (hnull b).1)
  · have hcheck : (s.readXZ a).isNull = true ∨ (s.readXZ b).isNull = true ∨ (s.readXZ d).z = 0 :=
      h.imp (hnull a).1 (Or.imp (hnull b).1 fun hd => hd.elim And.right id)
    rw [exec_xadd_eq hP, if_pos hcheck]
  · rw [exec_xdbl_eq hP, if_pos ((hnull a).1 ha)]

end Sys2Proof.Machine
end

section
/-! SUPPORT. The INF flag (42_curve.md R165). -/

namespace Sys2Proof.Machine

/-- Command `i` is a RECOV or SMUL into PR[rd]. -/
def AffineDest (i : Instr) (rd : PReg) : Prop := (∃ b k k1, i = .recov rd b k k1) ∨ (∃ ra b, i = .smul rd ra b)

/-- Every completion but the success of a RECOV or SMUL has INF = 0; such a success has INF = 1 exactly for O. -/
theorem exec_inf_cases {i : Instr} {s t : State} (h : exec i s = .next t) :
    (t.status.inf = false ∧ (t.status.ecode = .none → ∀ rd, ¬AffineDest i rd)) ∨
    ∃ (rd : PReg) (pt : Affine), AffineDest i rd ∧ t = (s.setPR rd pt.toPoint).complete .none pt.isIdentity := by
  have plain : ∀ {u : State}, exec i s = succeed false u → (∀ rd, ¬AffineDest i rd) →
      t.status.inf = false ∧ (t.status.ecode = .none → ∀ rd, ¬AffineDest i rd) := fun hi hkind => by
    rw [hi, succeed_next] at h
    exact ⟨h ▸ rfl, fun _ => hkind⟩
  rcases exec_cases i s with
    ⟨e, he, hi⟩ | ⟨rfl, hi⟩ | ⟨rd, v, hrd, -, -, hi⟩ | ⟨rd, pt, hkind, -, hi⟩ | ⟨rd, pt, hkind, -, hi⟩ |
    ⟨rd, re, ra, b, x, rfl, -, -, -, hi⟩ | ⟨m, rd, rfl, -, hi⟩ | hbank | ⟨m, b, ra, rfl, -, -, -, -, -, hi⟩
  · -- an error
    rw [hi, raiseError_next] at h
    subst h
    exact .inl ⟨rfl, fun hnone => absurd hnone he⟩
  · exact .inl (plain hi (by simp [AffineDest]))
  · -- a scalar register
    refine .inl (plain hi ?_)
    rintro rd' (⟨b, k, k1, rfl⟩ | ⟨ra, b, rfl⟩) <;> simp [scalarDest] at hrd
  · -- PPUT, XADD or XDBL
    refine .inl (plain hi ?_)
    rcases hkind with ⟨c, ra, rfl⟩ | ⟨p, q, d, rfl⟩ | ⟨p, rfl⟩ <;> simp [AffineDest]
  · -- RECOV or SMUL
    rw [hi, succeed_next] at h
    exact .inr ⟨rd, pt, hkind, h.symm⟩
  · exact .inl (plain hi (by simp [AffineDest]))
  · exact .inl (plain hi (by simp [AffineDest]))
  · -- PRAND, PCSET or PSDEG
    rcases hbank with ⟨m, b, ra, rfl, -, -, -, hi⟩ | ⟨m, b, ra, rb, rfl, -, -, -, hi⟩ | ⟨b, ra, rfl, -, -, hi⟩ <;>
      exact .inl (plain hi (by simp [AffineDest]))
  · exact .inl (plain hi (by simp [AffineDest]))

/-- A command has one affine destination. -/
theorem AffineDest.unique {i : Instr} {rd rd' : PReg} (h : AffineDest i rd) (h' : AffineDest i rd') : rd = rd' := by
  rcases h with ⟨b, k, k1, rfl⟩ | ⟨ra, b, rfl⟩ <;> simpa [AffineDest] using h'

/-- Settles O12: O is stored with Z = 0 and INF = 1, a finite point with Z = 1 and INF = 0. -/
theorem infExactlyWhenTheIdentityIsWritten : Obligations.InfExactlyWhenTheIdentityIsWritten := by
  intro i s t h
  rcases exec_inf_cases h with ⟨hinf, hkind⟩ | ⟨rd, pt, hrd, rfl⟩
  · rw [hinf]
    exact ⟨fun hf => absurd hf Bool.false_ne_true, fun ⟨rd, hrd, hnone, _⟩ => absurd hrd (hkind hnone rd)⟩
  · have hresult : ((s.setPR rd pt.toPoint).complete .none pt.isIdentity).getPR rd = pt.toPoint := by simp
    have hinf : ((s.setPR rd pt.toPoint).complete .none pt.isIdentity).status.inf = pt.isIdentity := Bool.and_true _
    cases pt with
    | identity => exact ⟨fun _ => ⟨rd, hrd, rfl, by rw [hresult]; rfl, hresult⟩, fun _ => hinf⟩
    | finite x y =>
      refine ⟨fun hf => absurd (hinf.symm.trans hf) Bool.false_ne_true, fun ⟨rd', hrd', _, hz, _⟩ => ?_⟩
      rw [← AffineDest.unique hrd hrd', hresult] at hz
      exact absurd hz Nat.one_ne_zero

end Sys2Proof.Machine
end

section
/-! SUPPORT. The polynomial engine (43_poly.md): what each of its commands does on a bank of the build, and what the
coefficients are after a bank is written. -/

namespace Sys2Proof.Machine

/-! ## What each command does

For a bank of the build: the checks that are left, in one condition, and the state completed. -/

section
variable {s : State} {b : Bank} (hb : b.val < s.build.nPoly)
include hb

theorem State.bankOk_ne_false : s.bankOk b ≠ false := by simpa [State.bankOk] using hb

theorem exec_prand_eq (m : ScalarMod) (ra : SReg) :
    exec (.prand m b ra) s =
      if s.scalarMod m < 2 ∨ s.build.tMax < s.getS ra then raiseError .param s
      else succeed false ((State.draws (s.scalarMod m) (s.getS ra + 1) s).2.setBank b (s.getS ra)
        (State.draws (s.scalarMod m) (s.getS ra + 1) s).1) := by
  rw [ite_or]
  exact if_neg (State.bankOk_ne_false hb)

theorem exec_peval_eq (m : ScalarMod) (rd ra : SReg) :
    exec (.peval m rd b ra) s =
      if s.scalarMod m < 2 then raiseError .param s
      else succeed false (s.setS rd (s.evalBank b (s.getS ra % s.scalarMod m) (s.scalarMod m))) :=
  if_neg (State.bankOk_ne_false hb)

theorem exec_pcget_eq (rd ra : SReg) :
    exec (.pcget rd b ra) s =
      if s.getDeg b < s.getS ra then raiseError .param s else succeed false (s.setS rd (s.coeff b (s.getS ra))) :=
  if_neg (State.bankOk_ne_false hb)

theorem exec_pcset_eq (m : ScalarMod) (ra rb : SReg) :
    exec (.pcset m b ra rb) s =
      if s.scalarMod m < 2 ∨ s.getDeg b < s.getS ra then raiseError .param s
      else succeed false (s.setCoeff b (s.getS ra) (s.getS rb % s.scalarMod m)) := by
  rw [ite_or]
  exact if_neg (State.bankOk_ne_false hb)

theorem exec_psdeg_eq (ra : SReg) :
    exec (.psdeg b ra) s =
      if s.build.tMax < s.getS ra then raiseError .param s
      else succeed false ((s.setDeg b (s.getS ra)).setCoeffs b (s.getS ra + 1)
        (List.replicate (s.build.tMax - s.getS ra) 0)) :=
  if_neg (State.bankOk_ne_false hb)

theorem exec_pgdeg_eq (rd : SReg) : exec (.pgdeg rd b) s = succeed false (s.setS rd (s.getDeg b)) :=
  if_neg (State.bankOk_ne_false hb)

end

/-! ## A bank written -/

/-- The success of PRAND and PSDEG: a degree bound and coefficients of its bank up to T_MAX written, from a state whose
random source may have been used. `State.setBank` is the case `j = 0`. -/
theorem wroteBank_setCoeffs {s : State} (o : List Nat) (k : Nat) (b : Bank) (t : Nat) {j : Nat} {vs : List Nat}
    (hlen : j + vs.length ≤ s.build.tMax + 1) :
    WroteBank s
      (((({ s with oracle := o, freeIx := k } : State).setDeg b t).setCoeffs b j vs).complete .none false) b :=
  ⟨completed_complete .none false rfl (by simp), fun _ => rfl, fun _ => rfl, fun _ => State.getDeg_setDeg_ne _ t,
    fun _ => State.read_setCoeffs_outside (s := ({ s with oracle := o, freeIx := k } : State).setDeg b t) hlen, rfl,
    ⟨rfl, rfl, rfl, rfl, rfl, rfl, rfl⟩⟩

section
variable {s : State} (hv : s.build.Valid) (hm : s.mem.wf = true) {t : Nat} (ht : t ≤ s.build.tMax)
include hv hm ht

/-- A bank written whole reads back each entry that fits in W bits (43_poly.md R180). -/
theorem State.coeff_setBank_entry (b : Bank) {cs : List Nat} (hlen : cs.length = t + 1) {j : Nat} (hj : j < cs.length)
    (hfit : cs[j] < 2 ^ s.build.w) : (s.setBank b t cs).coeff b j = cs[j] := by
  rw [State.coeff_setBank_same hv hm b hlen ht j (by omega), dif_pos hj, Nat.mod_eq_of_lt hfit]

/-- A bank written whole is zero above its degree bound. -/
theorem State.coeff_setBank_above (b : Bank) {cs : List Nat} (hlen : cs.length = t + 1) {j : Nat} (htj : t < j)
    (hj : j ≤ s.build.tMax) : (s.setBank b t cs).coeff b j = 0 := by
  rw [State.coeff_setBank_same hv hm b hlen ht j hj, dif_neg (by omega), Nat.zero_mod]

end

/-! ## PRAND -/

/-- Draws answer `n` values below the modulus and leave a state that differs in the random source alone. -/
theorem exists_draws_eq {m : Nat} (hm : 0 < m) (n : Nat) (s : State) :
    ∃ cs o k, State.draws m n s = (cs, { s with oracle := o, freeIx := k }) ∧ cs.length = n ∧ ∀ v ∈ cs, v < m :=
  ⟨_, _, _, Prod.ext rfl (draws_state m n s), draws_length m n s, draws_lt hm n s⟩

/-- Settles O34: the draws are below M, so they fit, and the bank reads them back with zeros above. -/
theorem prandFillsTheBank : Obligations.PrandFillsTheBank := by
  intro m b ra s hv hm hb hM hfit ht
  obtain ⟨cs, o, k, hdraws, hlen, hlt⟩ := exists_draws_eq (Nat.zero_lt_of_lt hM) (s.getS ra + 1) s
  have hread : ∀ j (h : j < cs.length),
      (({ s with oracle := o, freeIx := k } : State).setBank b (s.getS ra) cs).coeff b j = cs[j] := fun j h =>
    State.coeff_setBank_entry (s := { s with oracle := o, freeIx := k }) hv hm ht b hlen h
      ((hlt _ (List.getElem_mem h)).trans_le hfit)
  rw [exec_prand_eq hb, if_neg (by omega), hdraws]
  refine ⟨_, rfl, wroteBank_setCoeffs o k b _ (by simp; omega), State.getDeg_setBank_same _ b _ cs, fun j hj => ?_,
    fun j htj hj => ?_, fun as rest ho has => ?_⟩
  · rw [State.complete_coeff, hread j (by omega)]
    exact hlt _ (List.getElem_mem _)
  · exact State.coeff_setBank_above (s := { s with oracle := o, freeIx := k }) hv hm ht b hlen htj hj
  · -- the answers the environment has fixed
    rw [← has, draws_oracle _ as rest s ho, Prod.mk.injEq] at hdraws
    obtain ⟨rfl, hstate⟩ := hdraws
    have horacle : o = rest := congrArg State.oracle hstate.symm
    have hfreeIx : k = s.freeIx := congrArg State.freeIx hstate.symm
    refine ⟨fun j h => ?_, horacle, hfreeIx⟩
    rw [State.complete_coeff, hread j (by simpa using h), List.getElem_map]

/-! ## PEVAL -/

/-- Evaluation may as well take an unreduced point (43_poly.md R188). -/
theorem State.evalBank_mod (s : State) (b : Bank) (x m : Nat) : s.evalBank b (x % m) m = s.evalBank b x m := by
  rw [State.evalBank_eq, State.evalBank_eq]
  apply (ZMod.natCast_eq_natCast_iff' _ _ m).1
  push_cast [ZMod.natCast_mod]
  rfl

theorem peval_wroteScalar {m : ScalarMod} {b : Bank} {s : State} (hb : b.val < s.build.nPoly) (hM : 2 ≤ s.scalarMod m)
    (rd ra : SReg) :
    ∃ t, exec (.peval m rd b ra) s = .next t ∧
      WroteScalar s t rd ((∑ j ∈ Finset.range (s.getDeg b + 1), s.coeff b j * s.getS ra ^ j) % s.scalarMod m) := by
  rw [exec_peval_eq hb, if_neg (Nat.not_lt.2 hM), State.evalBank_mod, State.evalBank_eq]
  exact wroteScalar_succeed s rd _

/-- Settles O35: the suffix names CFG.Q or CFG.R, and Horner's rule computes the sum modulo it. -/
theorem pevalIsThePolynomialValue : Obligations.PevalIsThePolynomialValue := by
  intro m rd b ra s
  cases m
  · exact fun hb hM => peval_wroteScalar (m := .q) hb hM rd ra
  · exact fun hb hM => peval_wroteScalar (m := .r) hb hM rd ra

/-! ## PCGET, PGDEG, PCSET and PSDEG -/

/-- Settles O36: the index is checked against DEG[b], and both results are written as they are read, unreduced. -/
theorem pcgetPgdegResults : Obligations.PcgetPgdegResults := by
  intro rd b ra s hb
  rw [exec_pcget_eq hb, exec_pgdeg_eq hb]
  refine ⟨fun hj => ?_, fun hj => ?_, wroteScalar_succeed s rd _⟩
  · rw [if_neg (Nat.not_lt.2 hj)]
    exact wroteScalar_succeed s rd _
  · rw [if_pos hj]
    exact wroteNothing_raiseError _ _

/-- Settles O37: the reduced value fits in W bits, so the coefficient reads it back, and only its bytes are written. -/
theorem pcsetWritesOneCoefficient : Obligations.PcsetWritesOneCoefficient := by
  intro m b ra rb s hv hm hb hM hfit
  rw [exec_pcset_eq hb]
  refine ⟨fun hj => ?_, fun hj => ?_⟩
  · have hlt : s.getS rb % s.scalarMod m < 2 ^ s.build.w := (Nat.mod_lt _ (by omega)).trans_le hfit
    rw [if_neg (by omega)]
    refine ⟨_, rfl, completed_complete .none false rfl (by simp), ?_, fun _ => Memory.read_writeLE_outside _ _,
      fun _ => rfl, fun _ => rfl, fun _ => rfl, rfl, ⟨rfl, rfl, rfl, rfl, rfl, rfl, rfl⟩, ⟨rfl, rfl⟩⟩
    rw [State.complete_coeff, State.coeff_setCoeff_same hv hm, Nat.mod_eq_of_lt hlt]
  · rw [if_pos (.inr hj)]
    exact wroteNothing_raiseError _ _

/-- Settles O38: the zeros are written from index t + 1 to T_MAX, so the coefficients up to t are out of their reach. -/
theorem psdegTruncatesTheBank : Obligations.PsdegTruncatesTheBank := by
  intro b ra s hv hm hb ht
  rw [exec_psdeg_eq hb, if_neg (Nat.not_lt.2 ht)]
  refine ⟨_, rfl, wroteBank_setCoeffs s.oracle s.freeIx b _ (by simp; omega), ⟨rfl, rfl⟩,
    State.getDeg_setDeg_same s b _, fun j hj => ?_, fun j htj hj => ?_⟩
  · exact State.coeff_setCoeffs_out (s := s.setDeg b (s.getS ra)) hv b _ _ _ (.inl (by omega))
  · obtain ⟨i, rfl⟩ := Nat.exists_eq_add_of_le (Nat.succ_le_of_lt htj)
    rw [State.complete_coeff, State.coeff_setCoeffs_in (s := s.setDeg b (s.getS ra)) hv hm b _ i _ (by simp; omega)]
    simp

/-- Settles O39: the degree check fails before anything is drawn. -/
theorem degreeAboveTheBankRaisesParam : Obligations.DegreeAboveTheBankRaisesParam := by
  intro m b ra s hb ht
  rw [exec_prand_eq hb, exec_psdeg_eq hb, if_pos (.inr ht), if_pos ht]
  exact ⟨wroteNothing_raiseError _ _, wroteNothing_raiseError _ _⟩

end Sys2Proof.Machine
end

section
/-! SUPPORT. The Shamir commands (44_shamir.md): what SHARE and SGET check and write, and what the coefficients and the
shares are after SHARE. -/

namespace Sys2Proof.Machine

/-! ## What each command does -/

/-- The destinations of SHARE written, with the draws `cs` (44_shamir.md R201): the bank, then its evaluations as the
shares. -/
def State.shareOut (s : State) (b : Bank) (n M : Nat) (cs : List Nat) : State :=
  (s.setBank b (n / 2 - 1) cs).setShares n ((s.setBank b (n / 2 - 1) cs).shareValues b n M)

/-- SHARE on a bank of the build: the checks that are left, in one condition, and the state completed. -/
theorem exec_share_eq {s : State} {b : Bank} (hb : b.val < s.build.nPoly) (m : ScalarMod) (ra : SReg) :
    exec (.share m b ra) s =
      if s.scalarMod m < 2 ∨ s.getS ra % 2 = 1 ∨ s.getS ra < 2 ∨ s.build.nMax < s.getS ra ∨
          s.scalarMod m ≤ s.getS ra then raiseError .param s
      else succeed false ((State.draws (s.scalarMod m) (s.getS ra / 2 - 1 + 1) s).2.shareOut b (s.getS ra)
        (s.scalarMod m) (State.draws (s.scalarMod m) (s.getS ra / 2 - 1 + 1) s).1) := by
  rw [ite_or, ite_or, ite_or, ite_or]
  exact if_neg (State.bankOk_ne_false hb)

theorem exec_sget_eq (rd ra : SReg) (s : State) :
    exec (.sget rd ra) s =
      if s.getS ra < 1 ∨ s.shareN < s.getS ra then raiseError .param s
      else succeed false (s.setS rd (s.shm (s.getS ra))) := rfl

theorem ecode_of_raiseError {e : ECode} {s t : State} (h : raiseError e s = .next t) : t.status.ecode = e := by
  rw [raiseError_next] at h
  rw [← h]
  rfl

/-- A sharing that ends without an error had a bank of the build and a count that SHARE accepts (44_shamir.md R201). -/
theorem share_accepts {m : ScalarMod} {b : Bank} {ra : SReg} {s t : State} (h : exec (.share m b ra) s = .next t)
    (hok : t.status.ecode = .none) :
    b.val < s.build.nPoly ∧ s.getS ra % 2 = 0 ∧ 2 ≤ s.getS ra ∧ s.getS ra ≤ s.build.nMax ∧
      s.getS ra < s.scalarMod m := by
  by_cases hb : b.val < s.build.nPoly
  · rw [exec_share_eq hb] at h
    split at h
    · cases hok.symm.trans (ecode_of_raiseError h)
    · exact ⟨hb, by omega⟩
  · have hillegal : exec (.share m b ra) s = raiseError .illegal s := if_pos (by simpa [State.bankOk] using hb)
    cases hok.symm.trans (ecode_of_raiseError (hillegal.symm.trans h))

/-- Settles O41: each bad count fails a check of its own, before anything is drawn. -/
theorem shareRejectsBadCounts : Obligations.ShareRejectsBadCounts := by
  intro m b ra s hb hbad
  rw [exec_share_eq hb, if_pos (.inr hbad)]
  exact wroteNothing_raiseError _ _

/-- Settles O42: the index is checked unreduced, and the share is written as it is read. -/
theorem sgetReadsTheShare : Obligations.SgetReadsTheShare := by
  intro rd ra s
  rw [exec_sget_eq]
  refine ⟨fun hlo hhi => ?_, fun hout => ?_⟩
  · rw [if_neg (by omega)]
    exact wroteScalar_succeed s rd _
  · rw [if_pos (by omega)]
    exact wroteNothing_raiseError _ _

/-! ## The shares written -/

theorem State.shareValues_length (s : State) (b : Bank) (n M : Nat) : (s.shareValues b n M).length = s.build.nMax := by
  simp [State.shareValues]

theorem State.shareValues_getElem (s : State) (b : Bank) (n M : Nat) {k : Nat}
    (hk : k < (s.shareValues b n M).length) :
    (s.shareValues b n M)[k] = if k + 1 ≤ n then s.evalBank b (k + 1) M else 0 := by
  simp [State.shareValues]

/-- Evaluations fit in W bits, so the share memory reads them back, with zeros above the count (44_shamir.md R201). -/
theorem State.shm_setShareValues {s : State} (hv : s.build.Valid) (hm : s.mem.wf = true) (b : Bank) {n M : Nat}
    (hM : 0 < M) (hfit : M ≤ 2 ^ s.build.w) {i : Nat} (hpos : 1 ≤ i) (hi : i ≤ s.build.nMax) :
    (s.setShares n (s.shareValues b n M)).shm i = if i ≤ n then s.evalBank b i M else 0 := by
  obtain ⟨k, rfl⟩ := Nat.exists_eq_add_of_le' hpos
  have hk : k < (s.shareValues b n M).length := by rw [State.shareValues_length]; omega
  rw [State.shm_setShares hv hm n _ k hk, State.shareValues_getElem, Nat.mod_eq_of_lt]
  split
  · exact (State.evalBank_lt s b _ hM).trans_le hfit
  · exact Nat.two_pow_pos _

section
variable {s : State} (hv : s.build.Valid) (b : Bank) {n M : Nat} (cs : List Nat)
include hv

/-- Writing the shares leaves the bank they were evaluated on. -/
theorem State.coeff_shareOut (n M : Nat) {j : Nat} (hj : j ≤ s.build.tMax) :
    (s.shareOut b n M cs).coeff b j = (s.setBank b (n / 2 - 1) cs).coeff b j :=
  State.coeff_setShares (s := s.setBank b (n / 2 - 1) cs) hv n _ b (hj.trans hv.2.1)

/-- The success of SHARE, from a state whose random source may have been used. -/
theorem wroteShares_shareOut (M : Nat) {cs : List Nat} (o : List Nat) (k : Nat) (hn : n ≤ s.build.nMax)
    (hcs : cs.length = n / 2 - 1 + 1) :
    WroteShares s ((({ s with oracle := o, freeIx := k } : State).shareOut b n M cs).complete .none false) b :=
  ⟨completed_complete .none false rfl (by simp), fun _ => rfl, fun _ => rfl, fun _ => State.getDeg_setBank_ne _ _ cs,
    fun _ hbank hshares =>
      (State.read_setShares_outside (s := ({ s with oracle := o, freeIx := k } : State).setBank b _ cs) n
        (State.shareValues_length _ b n M) hshares).trans
      (State.read_setBank_outside (s := { s with oracle := o, freeIx := k }) (Valid.shareDegree_le hv hn) hcs hbank),
    ⟨rfl, rfl, rfl, rfl, rfl, rfl, rfl⟩⟩

variable (hm : s.mem.wf = true) (hM : 0 < M) (hfit : M ≤ 2 ^ s.build.w)
include hm hM hfit

/-- Each share up to the count is the value of the bank's polynomial at its index (44_shamir.md R200). -/
theorem State.shm_shareOut_le (htwo : 2 ≤ n) (hn : n ≤ s.build.nMax) {i : Nat} (hpos : 1 ≤ i) (hi : i ≤ n) :
    (s.shareOut b n M cs).shm i = (∑ j ∈ Finset.range (n / 2), (s.shareOut b n M cs).coeff b j * i ^ j) % M := by
  have ht : n / 2 - 1 ≤ s.build.tMax := Valid.shareDegree_le hv hn
  have hshm := State.shm_setShareValues (s := s.setBank b (n / 2 - 1) cs) hv (Memory.writeSlots_wf hm _ _ _) b
    (n := n) hM hfit hpos (hi.trans hn)
  rw [if_pos hi, State.evalBank_eq, State.getDeg_setBank_same, show n / 2 - 1 + 1 = n / 2 by omega] at hshm
  refine hshm.trans (congrArg (· % M) (Finset.sum_congr rfl fun j hj => ?_))
  rw [State.coeff_shareOut hv b cs n M (by have := Finset.mem_range.1 hj; omega)]

theorem State.shm_shareOut_above {i : Nat} (hni : n < i) (hi : i ≤ s.build.nMax) :
    (s.shareOut b n M cs).shm i = 0 :=
  (State.shm_setShareValues (s := s.setBank b (n / 2 - 1) cs) hv (Memory.writeSlots_wf hm _ _ _) b hM hfit
    (Nat.one_le_of_lt hni) hi).trans (if_neg (Nat.not_le.2 hni))

end

/-- Settles O40: the draws fill the bank, and the shares are Horner's values on it, which writing them leaves. -/
theorem shareIsTheEvaluations : Obligations.ShareIsTheEvaluations := by
  intro m b ra s M n hv hm hb hfit heven htwo hmax hlt
  have hM : 0 < M := by omega
  have ht : n / 2 - 1 ≤ s.build.tMax := Valid.shareDegree_le hv hmax
  obtain ⟨cs, o, k, hdraws, hlen, hdrawn⟩ := exists_draws_eq hM (n / 2 - 1 + 1) s
  rw [exec_share_eq hb, if_neg (by omega), hdraws]
  have hentry : ∀ j (h : j < cs.length),
      (({ s with oracle := o, freeIx := k } : State).shareOut b n M cs).coeff b j = cs[j] := fun j h => by
    have hj : j ≤ s.build.tMax := by omega
    rw [State.coeff_shareOut (s := { s with oracle := o, freeIx := k }) hv b cs n M hj]
    exact State.coeff_setBank_entry (s := { s with oracle := o, freeIx := k }) hv hm ht b hlen h
      ((hdrawn _ (List.getElem_mem h)).trans_le hfit)
  refine ⟨_, rfl, wroteShares_shareOut hv b M o k hmax hlen, State.getDeg_setBank_same _ b _ cs, rfl, fun j hj => ?_,
    fun j htj hj => ?_, fun i hpos hi => ?_, fun i hni hi => ?_, fun as rest ho has => ?_⟩
  · rw [State.complete_coeff, hentry j (by omega)]
    exact hdrawn _ (List.getElem_mem _)
  · rw [State.complete_coeff, State.coeff_shareOut (s := { s with oracle := o, freeIx := k }) hv b cs n M hj]
    exact State.coeff_setBank_above (s := { s with oracle := o, freeIx := k }) hv hm ht b hlen htj hj
  · exact State.shm_shareOut_le (s := { s with oracle := o, freeIx := k }) hv b cs hm hM hfit htwo hmax hpos hi
  · exact State.shm_shareOut_above (s := { s with oracle := o, freeIx := k }) hv b cs hm hM hfit hni hi
  · -- the answers the environment has fixed
    rw [show n / 2 - 1 + 1 = as.length by omega, draws_oracle _ as rest s ho, Prod.mk.injEq] at hdraws
    obtain ⟨rfl, hstate⟩ := hdraws
    have horacle : o = rest := congrArg State.oracle hstate.symm
    have hfreeIx : k = s.freeIx := congrArg State.freeIx hstate.symm
    refine ⟨fun j h => ?_, horacle, hfreeIx⟩
    rw [State.complete_coeff, hentry j (by simpa using h), List.getElem_map]

end Sys2Proof.Machine
end

section
/-! SUPPORT. Reconstruction and secrecy (44_shamir.md R204, R205): a polynomial of k coefficients modulo a prime is
determined by its values at k nodes, and may take any values there. -/

namespace Sys2Proof.Machine

/-! ## Coefficient lists as polynomials -/

/-- The value at `x` of the polynomial with the `k` coefficients `c`, before reduction (43_poly.md R188). -/
def polyValue (k : Nat) (c : Nat → Nat) (x : Nat) : Nat := ∑ j ∈ Finset.range k, c j * x ^ j

/-- The polynomial over the integers modulo `M` with the `k` coefficients `c`. -/
noncomputable def polyMod (M k : Nat) (c : Nat → Nat) : Polynomial (ZMod M) :=
  ∑ j ∈ Finset.range k, Polynomial.monomial j (c j : ZMod M)

section
variable {M k : Nat} {c : Nat → Nat}

theorem polyValue_zero (hk : 0 < k) : polyValue k c 0 = c 0 := by
  obtain ⟨k, rfl⟩ := Nat.exists_eq_add_of_le' hk
  simp [polyValue, Finset.sum_range_succ']

theorem polyMod_coeff (j : Nat) : (polyMod M k c).coeff j = if j < k then (c j : ZMod M) else 0 := by
  simp [polyMod, Polynomial.coeff_monomial]

theorem polyMod_degree_lt : (polyMod M k c).degree < k :=
  (Polynomial.degree_lt_iff_coeff_zero _ _).2 fun j hj => by rw [polyMod_coeff, if_neg (by omega)]

theorem polyMod_eval (x : Nat) : (polyMod M k c).eval (x : ZMod M) = (polyValue k c x : ZMod M) := by
  simp [polyMod, polyValue, Polynomial.eval_finsetSum]

/-- The first `k` coefficients of a polynomial, by their representatives below `M`. -/
def coeffList (k : Nat) (f : Polynomial (ZMod M)) : List Nat := (List.range k).map fun j => (f.coeff j).val

theorem polyMod_coeffList [NeZero M] {f : Polynomial (ZMod M)} (hf : f.degree < k) :
    polyMod M k ((coeffList k f).getD · 0) = f := by
  ext j
  rw [polyMod_coeff]
  split
  · next hj => simp [coeffList, List.getD_eq_getElem?_getD, hj]
  · next hj => exact ((Polynomial.degree_lt_iff_coeff_zero f k).1 hf j (Nat.le_of_not_lt hj)).symm

end

/-! ## Values at distinct nodes -/

section
variable {M : Nat} [hprime : Fact M.Prime] {J : Finset Nat}

/-- Nodes below the modulus are distinct modulo it. -/
theorem injOn_natCast_of_lt (hJ : ∀ i ∈ J, i < M) : Set.InjOn (fun i : Nat => (i : ZMod M)) J := fun i hi j hj h => by
  rw [eq_mod_of_zmod (hJ i hi) h, Nat.mod_eq_of_lt (hJ j hj)]

/-- `J.card` coefficients are determined by the values at the nodes `J`. -/
theorem coeffs_eq_of_polyValue_eq {c d : Nat → Nat} (hJ : ∀ i ∈ J, i < M) (hc : ∀ j, j < J.card → c j < M)
    (hd : ∀ j, j < J.card → d j < M) (h : ∀ i ∈ J, polyValue J.card c i % M = polyValue J.card d i % M) :
    ∀ j, j < J.card → c j = d j := by
  have hpoly : polyMod M J.card c = polyMod M J.card d :=
    Polynomial.eq_of_degrees_lt_of_eval_index_eq J (injOn_natCast_of_lt hJ) polyMod_degree_lt polyMod_degree_lt
      fun i hi => by
        rw [polyMod_eval, polyMod_eval]
        exact (ZMod.natCast_eq_natCast_iff' _ _ M).2 (h i hi)
  intro j hj
  have hcoeff : (c j : ZMod M) = d j := by
    simpa only [polyMod_coeff, if_pos hj] using congrArg (Polynomial.coeff · j) hpoly
  rw [eq_mod_of_zmod (hc j hj) hcoeff, Nat.mod_eq_of_lt (hd j hj)]

/-- Any values at the nodes `J` are those of `J.card` coefficients: Lagrange's polynomial. -/
theorem exists_polyValue_eq (r : Nat → Nat) (hJ : ∀ i ∈ J, i < M) (hr : ∀ i ∈ J, r i < M) :
    ∃ c : List Nat, c.length = J.card ∧ (∀ x ∈ c, x < M) ∧ ∀ i ∈ J, polyValue J.card (c.getD · 0) i % M = r i := by
  obtain ⟨f, hdeg, heval⟩ : ∃ f : Polynomial (ZMod M), f.degree < J.card ∧ ∀ i ∈ J, f.eval (i : ZMod M) = r i :=
    ⟨Lagrange.interpolate J (fun i : Nat => (i : ZMod M)) fun i => (r i : ZMod M),
      Lagrange.degree_interpolate_lt _ (injOn_natCast_of_lt hJ),
      fun _ hi => Lagrange.eval_interpolate_at_node _ (injOn_natCast_of_lt hJ) hi⟩
  refine ⟨coeffList J.card f, by simp [coeffList], fun x hx => ?_, fun i hi => ?_⟩
  · obtain ⟨j, -, rfl⟩ := List.mem_map.1 hx
    exact ZMod.val_lt _
  · refine (eq_mod_of_zmod (hr i hi) ?_).symm
    rw [← polyMod_eval, polyMod_coeffList hdeg, heval i hi]

/-- Exactly one list of `J.card` coefficients takes given values at the nodes `J`. -/
theorem existsUnique_polyValue_eq (r : Nat → Nat) (hJ : ∀ i ∈ J, i < M) (hr : ∀ i ∈ J, r i < M) :
    ∃! c : List Nat,
      c.length = J.card ∧ (∀ x ∈ c, x < M) ∧ ∀ i ∈ J, polyValue J.card (c.getD · 0) i % M = r i := by
  have hentry : ∀ {c : List Nat}, c.length = J.card → (∀ x ∈ c, x < M) → ∀ j, j < J.card → c.getD j 0 < M :=
    fun hlen hlt j hj => by
      rw [List.getD_eq_getElem _ _ (hlen ▸ hj)]
      exact hlt _ (List.getElem_mem _)
  obtain ⟨c, hlen, hlt, hc⟩ := exists_polyValue_eq r hJ hr
  refine ⟨c, ⟨hlen, hlt, hc⟩, fun e ⟨helen, helt, he⟩ => List.ext_getElem (helen.trans hlen.symm) fun j hje hjc => ?_⟩
  have heq := coeffs_eq_of_polyValue_eq hJ (hentry helen helt) (hentry hlen hlt)
    (fun i hi => (he i hi).trans (hc i hi).symm) j (helen ▸ hje)
  rwa [List.getD_eq_getElem _ _ hje, List.getD_eq_getElem _ _ hjc] at heq

end

/-! ## The obligations -/

/-- A sharing that ends without an error, in the terms of this part: coefficients below the modulus, and the shares the
values they give at nodes below it. -/
theorem share_result {m : ScalarMod} {b : Bank} {ra : SReg} {s t : State} (hv : s.build.Valid) (hm : s.mem.wf = true)
    (hfit : s.scalarMod m ≤ 2 ^ s.build.w) (hexec : exec (.share m b ra) s = .next t) (hok : t.status.ecode = .none) :
    2 ≤ s.getS ra ∧ s.getS ra < s.scalarMod m ∧ (∀ j, j < s.getS ra / 2 → t.coeff b j < s.scalarMod m) ∧
      ∀ i, 1 ≤ i → i ≤ s.getS ra → t.shm i = polyValue (s.getS ra / 2) (t.coeff b) i % s.scalarMod m := by
  obtain ⟨hb, heven, htwo, hmax, hlt⟩ := share_accepts hexec hok
  obtain ⟨t', hexec', -, -, -, hcoeff, -, hshm, -⟩ := shareIsTheEvaluations m b ra s hv hm hb hfit heven htwo hmax hlt
  obtain rfl : t = t' := Host.Outcome.next.inj (hexec.symm.trans hexec')
  exact ⟨htwo, hlt, fun j hj => hcoeff j (by omega), hshm⟩

/-- Settles O43: the bank's coefficients take the shares' values at the nodes, so the other coefficients are theirs. -/
theorem sharesDetermineThePolynomial : Obligations.SharesDetermineThePolynomial := by
  intro m b ra s t I c M n hv hm hfit hprime hexec hok hI hcard hc hagree
  have : Fact M.Prime := ⟨hprime⟩
  obtain ⟨-, hlt, hcoeff, hshm⟩ := share_result hv hm hfit hexec hok
  rw [← hcard] at hc hagree hcoeff hshm ⊢
  exact coeffs_eq_of_polyValue_eq (fun i hi => (hI i hi).2.trans_lt hlt) hc hcoeff fun i hi =>
    (hagree i hi).trans (hshm i (hI i hi).1 (hI i hi).2)

/-- What a polynomial that shares `v` must give at a node: the secret at 0, the shares elsewhere. -/
def secretOrShare (t : State) (v i : Nat) : Nat := if i = 0 then v else t.shm i

/-- Settles O44: the secret is the value at the node 0, which with the n/2 − 1 shares makes n/2 nodes. -/
theorem fewerSharesLeaveEverySecret : Obligations.FewerSharesLeaveEverySecret := by
  intro m b ra s t I v M n hv hm hfit hprime hexec hok hI hcard hvM
  have : Fact M.Prime := ⟨hprime⟩
  obtain ⟨htwo, hlt, -, hshm⟩ := share_result hv hm hfit hexec hok
  have hzero : 0 ∉ I := fun h => absurd (hI 0 h).1 (by decide)
  have hnodes : (insert 0 I).card = n / 2 := by rw [Finset.card_insert_of_notMem hzero]; omega
  have hrI : ∀ i ∈ I, secretOrShare t v i = t.shm i := fun i hi => if_neg (ne_of_mem_of_not_mem hi hzero)
  have hunique := existsUnique_polyValue_eq (M := M) (J := insert 0 I) (secretOrShare t v)
    (Finset.forall_mem_insert _ _ _ |>.2 ⟨by omega, fun i hi => (hI i hi).2.trans_lt hlt⟩)
    (Finset.forall_mem_insert _ _ _ |>.2 ⟨hvM, fun i hi => by
      rw [hrI i hi, hshm i (hI i hi).1 (hI i hi).2]
      exact Nat.mod_lt _ (by omega)⟩)
  rw [hnodes] at hunique
  refine (existsUnique_congr fun c => and_congr_right fun hlen => and_congr_right fun hcs => ?_).1 hunique
  have hsecret : polyValue (n / 2) (c.getD · 0) 0 % M = c.getD 0 0 := by
    rw [polyValue_zero (by omega), List.getD_eq_getElem _ _ (by omega)]
    exact Nat.mod_eq_of_lt (hcs _ (List.getElem_mem _))
  rw [Finset.forall_mem_insert, hsecret]
  exact and_congr_right fun _ => forall₂_congr fun i hi => by rw [hrI i hi]; rfl

end Sys2Proof.Machine
end

section
/-! SUPPORT. The life cycle of a command (60_exceptions.md R220 to R229): its acceptance on the bus, the engine's turn
that completes it, the two ways it can end, and the check of a selected modulus. -/

namespace Sys2Proof.Machine

/-! ## Completions -/

/-- A command either raises an error or succeeds: no command stops the machine (60_exceptions.md R220, R226). -/
theorem exec_raises_or_succeeds (i : Instr) (s : State) :
    (∃ e, e ≠ .none ∧ exec i s = raiseError e s) ∨ ∃ inf u, exec i s = succeed inf u := by
  rcases exec_cases i s with
    herr | ⟨-, hi⟩ | ⟨rd, v, -, -, -, hi⟩ | ⟨rd, pt, -, -, hi⟩ | ⟨rd, pt, -, -, hi⟩ |
    ⟨rd, re, ra, b, x, -, -, -, -, hi⟩ | ⟨m, rd, -, -, hi⟩ |
    (⟨m, b, ra, -, -, -, -, hi⟩ | ⟨m, b, ra, rb, -, -, -, -, hi⟩ | ⟨b, ra, -, -, -, hi⟩) |
    ⟨m, b, ra, -, -, -, -, -, -, hi⟩
  · exact .inl herr
  all_goals exact .inr ⟨_, _, hi⟩

theorem DestsWritten.status_eq {i : Instr} {s u : State} (h : DestsWritten s i u) : u.status = s.status := by
  cases h <;> rfl

/-- OVR is independent of the command (60_exceptions.md R228). -/
theorem exec_ovr {i : Instr} {s t : State} (h : exec i s = .next t) : t.status.ovr = s.status.ovr := by
  obtain ⟨u, e, inf, hu, rfl⟩ := exec_destsWritten h
  have hovr : u.status.ovr = s.status.ovr := by rw [hu.status_eq]
  exact hovr

/-- Settles O6: an error and a success are both completions, and the frame is that of every command (O10). -/
theorem everyCommandCompletes : Obligations.EveryCommandCompletes := by
  intro i s
  rcases exec_raises_or_succeeds i s with ⟨e, -, hi⟩ | ⟨inf, u, hi⟩
  · exact ⟨_, e, false, hi, completed_complete e false rfl (by simp), exec_controlFrame hi⟩
  · have hnext : exec i s = .next (u.complete .none inf) := hi.trans (succeed_eq inf u)
    have hovr : (u.complete .none inf).status.ovr = s.status.ovr := exec_ovr hnext
    exact ⟨_, .none, inf, hnext, completed_complete .none inf hovr fun _ => rfl, exec_controlFrame hnext⟩

/-- Settles O9: a code other than NONE excludes a success, and an error writes nothing. -/
theorem errorsWriteNothing : Obligations.ErrorsWriteNothing := by
  intro i s t h hcode
  rcases exec_raises_or_succeeds i s with ⟨e, -, hi⟩ | ⟨inf, u, hi⟩
  · obtain ⟨t', ht', hw⟩ := wroteNothing_raiseError e s
    obtain rfl : t = t' := Host.Outcome.next.inj (h.symm.trans (hi.trans ht'))
    rwa [hw.outcome.ecode]
  · rw [hi, succeed_next] at h
    exact absurd (h ▸ rfl) hcode

/-! ## The check of a selected modulus -/

/-- The bank of a command of the build is one of its banks (30_encoding.md R92). -/
theorem bank_lt_of_wellFormed {i : Instr} {nPoly : Nat} {b : Bank} (hwf : i.wellFormed nPoly = true)
    (hb : i.bank? = some b) : b.val < nPoly := by
  have hbank : i.bankOk nPoly = true := (Bool.and_eq_true_iff.1 hwf).1
  rw [Instr.bankOk, hb] at hbank
  exact of_decide_eq_true hbank

/-- The destinations of a LADDER that is not ILLEGAL differ (30_encoding.md R96). -/
theorem ladder_dests_ne_of_wellFormed {nPoly : Nat} {rd re : PReg} {ra : SReg} {base : PSrc}
    (hwf : (Instr.ladder rd re ra base).wellFormed nPoly = true) : rd ≠ re :=
  of_decide_eq_true (Bool.and_eq_true_iff.1 hwf).2

/-- The check of the modulus comes first in every command that selects one; only an ILLEGAL term is rejected before it
(60_exceptions.md R222, R228). -/
theorem exec_of_modulus_lt_two {i : Instr} {s : State} {M : Nat} (hwf : i.wellFormed s.build.nPoly = true)
    (hsel : selectedModulus i s = some M) (hM : M < 2) : exec i s = raiseError .param s := by
  cases i with
  | nop | mov | ldi | pget | pput | pcget | psdeg | pgdeg | sget => cases hsel
  | fadd | fsub | fmul | finv | fexp | frand | xadd | xdbl | recov | smul =>
    cases hsel
    exact if_pos hM
  | ladder rd re ra base =>
    cases hsel
    exact (if_neg (ladder_dests_ne_of_wellFormed hwf)).trans (if_pos hM)
  | prand m b ra =>
    cases hsel
    rw [exec_prand_eq (bank_lt_of_wellFormed hwf rfl), if_pos (.inl hM)]
  | peval m rd b ra =>
    cases hsel
    rw [exec_peval_eq (bank_lt_of_wellFormed hwf rfl), if_pos hM]
  | pcset m b ra rb =>
    cases hsel
    rw [exec_pcset_eq (bank_lt_of_wellFormed hwf rfl), if_pos (.inl hM)]
  | share m b ra =>
    cases hsel
    rw [exec_share_eq (bank_lt_of_wellFormed hwf rfl), if_pos (.inl hM)]

/-- Settles O13: the check of the modulus raises PARAM, and an error writes nothing. -/
theorem modulusBelowTwoRaisesParam : Obligations.ModulusBelowTwoRaisesParam := by
  intro i s M hwf hsel hM
  rw [exec_of_modulus_lt_two hwf hsel hM]
  exact wroteNothing_raiseError .param s

/-! ## The engine's turn -/

theorem step_of_inputs_nil {s : State} (h : s.inputs = []) : step s = engineTurn s := by
  rw [step, h]

theorem step_of_inputs_cons {s : State} {e : Input} {es : List Input} (h : s.inputs = e :: es) :
    step s = takeInput e { s with inputs := es } := by
  rw [step, h]

theorem step_of_inputs_engine {s : State} {es : List Input} (h : s.inputs = .engine :: es) :
    step s = engineTurn { s with inputs := es } :=
  step_of_inputs_cons h

theorem engineTurn_of_fetch_ok {s : State} {i : Instr} (hr : s.resetLine = false) (hphase : s.phase = .inFlight)
    (hi : s.fetch = .ok i) : engineTurn s = exec i s := by
  simp [engineTurn, hr, hphase, hi]

/-- The engine's turn completes the word in flight, ILLEGAL or not (60_exceptions.md R220, R226, R227). -/
theorem engineTurn_completes {s : State} (hr : s.resetLine = false) (hphase : s.phase = .inFlight) :
    ∃ u e inf, engineTurn s = .next u ∧ Completed s u e inf ∧ ControlFrame s u := by
  rcases engineTurn_cases s with ⟨hnot, -⟩ | ⟨-, hnot, -⟩ | ⟨-, -, i, -, hturn⟩ | ⟨-, -, r, -, hturn⟩
  · simp [hr, hphase] at hnot
  · simp [hphase] at hnot
  · rw [hturn]
    exact everyCommandCompletes i s
  · obtain ⟨u, hu, hw⟩ := wroteNothing_raiseError .illegal s
    exact ⟨u, .illegal, false, hturn.trans hu, hw.outcome, hw.control⟩

/-- Settles O5: the turn is the engine's with no input pending or as the oldest one, and it runs the decoded word. -/
theorem stepRunsTheDecodedCommand : Obligations.StepRunsTheDecodedCommand := by
  intro s i
  refine ⟨fun hr hphase hi => ⟨fun hnil => ?_, fun es hcons => ?_⟩, step_of_inputs_nil,
    fun es => step_of_inputs_engine, fun w hw => ?_⟩
  · exact (step_of_inputs_nil hnil).trans (engineTurn_of_fetch_ok hr hphase hi)
  · exact (step_of_inputs_engine hcons).trans (engineTurn_of_fetch_ok (s := { s with inputs := es }) hr hphase hi)
  · -- a word placed by withFetchWord
    have hword : BitVec.ofNat 32 (w.toNat % 2 ^ 32) = w := by
      rw [Nat.mod_eq_of_lt w.isLt, BitVec.ofNat_toNat, BitVec.setWidth_eq]
    have hstep : step (s.withFetchWord 32 w.toNat) = engineTurn { s.accept w with resetLine := false } := by
      rw [State.withFetchWord, hword, step_of_inputs_engine rfl]
      rfl
    rw [hstep]
    exact engineTurn_of_fetch_ok rfl rfl hw

/-! ## Acceptance -/

/-- A bus write of CMD to an idle block out of reset is accepted (60_exceptions.md R225). -/
theorem takeInput_write_cmd_idle {s : State} (hr : s.resetLine = false) (hidle : s.phase = .idle) (v : Word) :
    takeInput (.write (s.build.base + 0x010) 4 v) s = .next (s.accept v) := by
  rw [takeInput_write, busAccess_answered _ hr (by decide) (by decide), State.hostWrite_cmd, State.writeCmd_idle hidle]

/-- Settles O8: the bus write of CMD is `State.accept`, read off field by field. -/
theorem acceptanceClearsTheOutcome : Obligations.AcceptanceClearsTheOutcome :=
  fun s v hr hidle =>
    ⟨s.accept v, takeInput_write_cmd_idle hr hidle v, rfl, rfl, rfl, rfl, rfl, rfl, rfl, rfl⟩

/-- Settles O7: the write is accepted, and the engine's turn that follows completes the word in flight. -/
theorem acceptedCommandCompletesAtTheEngineTurn : Obligations.AcceptedCommandCompletesAtTheEngineTurn := by
  intro s v es hr hidle hinputs
  have haccept : step s = .next (({ s with inputs := .engine :: es } : State).accept v) :=
    (step_of_inputs_cons hinputs).trans (takeInput_write_cmd_idle (s := { s with inputs := .engine :: es }) hr hidle v)
  have hturn : step (({ s with inputs := .engine :: es } : State).accept v) =
      engineTurn (({ s with inputs := es } : State).accept v) :=
    step_of_inputs_engine (s := ({ s with inputs := .engine :: es } : State).accept v) rfl
  obtain ⟨u, e, inf, hu, hdone, hframe⟩ :=
    engineTurn_completes (s := ({ s with inputs := es } : State).accept v) hr rfl
  exact ⟨_, u, haccept, hturn.trans hu, rfl, State.irq_of_done_eq_false rfl, hdone.idle, hdone.done, hframe.cmd,
    hframe.inputs⟩

end Sys2Proof.Machine
end

section
/-! SUPPORT. What a command reads: nothing of CTRL, CMD, STATUS, the reset input or the bus (10_state.md R40;
70_reset_and_hazards.md R255; 90_conflicts.md C9). Two states that differ only there are compared through each command,
along the branches of its meaning. -/

namespace Sys2Proof.Machine

/-! ## States that differ in the control state -/

/-- The state no command reads. -/
structure ControlState where
  ctrl : Ctrl
  cmd : Word
  status : Status
  resetLine : Bool
  inputs : List Input
  response : Option Word

/-- `s` with its control state replaced by `k`. -/
def State.withControl (s : State) (k : ControlState) : State :=
  { s with ctrl := k.ctrl, cmd := k.cmd, status := k.status, resetLine := k.resetLine, inputs := k.inputs,
           response := k.response }

/-- The state that should come of a command run under `k`, where it left `t` under another control state: only OVR is
left of the STATUS of `k`. -/
def State.completedUnder (t : State) (k : ControlState) : State :=
  t.withControl { k with status := { t.status with ovr := k.status.ovr } }

theorem State.complete_withControl (s : State) (k : ControlState) (e : ECode) (inf : Bool) :
    (s.withControl k).complete e inf = (s.complete e inf).completedUnder k := rfl

theorem State.draw_withControl (s : State) (k : ControlState) (m : Nat) : (s.withControl k).draw m = s.draw m := rfl

theorem State.afterAnswer_withControl (s : State) (k : ControlState) :
    (s.withControl k).afterAnswer = s.afterAnswer.withControl k := by
  unfold State.afterAnswer State.withControl
  cases s.oracle <;> rfl

theorem draws_withControl (m n : Nat) (s : State) (k : ControlState) :
    State.draws m n (s.withControl k) = ((State.draws m n s).1, (State.draws m n s).2.withControl k) := by
  induction n generalizing s with
  | zero => rfl
  | succ n ih => rw [draws_succ, draws_succ, State.afterAnswer_withControl, ih, State.draw_withControl]

/-! ## Outcomes that agree -/

/-- Where `o` is a next state, `o'` is the same one under the control state `k`. -/
def SameResult (k : ControlState) (o o' : Host.Outcome State Fault Refusal) : Prop :=
  ∀ t, o = .next t → o' = .next (t.completedUnder k)

namespace SameResult

variable {k : ControlState}

theorem raiseError (e : ECode) (s : State) : SameResult k (raiseError e s) (raiseError e (s.withControl k)) := by
  rintro _ ⟨⟩
  rfl

theorem succeed (inf : Bool) {u u' : State} (hu : u' = u.withControl k) :
    SameResult k (succeed inf u) (succeed inf u') := by
  subst hu
  rintro _ ⟨⟩
  rfl

theorem finishAffine (rd : PReg) (r : Except ECode Affine) (s : State) :
    SameResult k (finishAffine rd r s) (finishAffine rd r (s.withControl k)) := by
  cases r with
  | ok pt => exact succeed pt.isIdentity rfl
  | error e => exact raiseError e s

/-- A check before two meanings that agree. -/
theorem check {c : Prop} [Decidable c] {e : ECode} {s : State} {o o' : Host.Outcome State Fault Refusal}
    (h : SameResult k o o') :
    SameResult k (if c then Machine.raiseError e s else o)
      (if c then Machine.raiseError e (s.withControl k) else o') := by
  split
  · exact raiseError e s
  · exact h

/-- The reading of an affine base, whose checks LADDER, RECOV and SMUL share. -/
theorem readAff {base : PSrc} {s : State} {onIdentity onIdentity' : Host.Outcome State Fault Refusal}
    {onFinite onFinite' : Nat → Nat → Host.Outcome State Fault Refusal} (hid : SameResult k onIdentity onIdentity')
    (hfin : ∀ x y, SameResult k (onFinite x y) (onFinite' x y)) :
    SameResult k
      (match s.readAff base with
        | none => Machine.raiseError .param s
        | some .identity => onIdentity
        | some (.finite x y) => onFinite x y)
      (match (s.withControl k).readAff base with
        | none => Machine.raiseError .param (s.withControl k)
        | some .identity => onIdentity'
        | some (.finite x y) => onFinite' x y) := by
  rw [show (s.withControl k).readAff base = s.readAff base from rfl]
  split
  · exact raiseError .param s
  · exact hid
  · exact hfin _ _

end SameResult

/-! ## Commands -/

/-- Every command: its checks are on registers, the configuration, banks and shares, and its draws and writes leave the
control state. -/
theorem exec_sameResult (k : ControlState) (i : Instr) (s : State) :
    SameResult k (exec i s) (exec i (s.withControl k)) := by
  cases i with
  | nop | mov | ldi | pget | pput => exact .succeed false rfl
  | fadd | fsub | fmul | fexp | sget | pgdeg => exact .check (.succeed false rfl)
  | finv | peval | pcget | psdeg => exact .check (.check (.succeed false rfl))
  | xdbl | pcset => exact .check (.check (.check (.succeed false rfl)))
  | xadd => exact .check (.check (.check (.check (.succeed false rfl))))
  | ladder rd re ra base =>
    exact .check (.check (.readAff (.raiseError _ s) fun _ _ => .check (.check (.succeed false rfl))))
  | recov rd base srcK srcK1 =>
    exact .check (.readAff (.raiseError _ s) fun _ _ => .check (.finishAffine rd _ s))
  | smul rd ra base =>
    exact .check (.readAff (.finishAffine rd _ s) fun _ _ => .check (.check (.finishAffine rd _ s)))
  | frand m rd =>
    refine .check (.succeed false ?_)
    rw [State.afterAnswer_withControl]
    rfl
  | prand m b ra =>
    refine .check (.check (.check (.succeed false ?_)))
    rw [draws_withControl]
    rfl
  | share m b ra =>
    refine .check (.check (.check (.check (.check (.check (.succeed false ?_))))))
    rw [draws_withControl]
    rfl

/-- Settles O11: the altered state is the old one with another control state. -/
theorem commandsIgnoreControlState : Obligations.CommandsIgnoreControlState :=
  fun i s t c w f l es r => exec_sameResult ⟨c, w, f, l, es, r⟩ i s t

end Sys2Proof.Machine
end

section
/-! SUPPORT. The busy window (70_reset_and_hazards.md R260; 20_memory.md R70, R71) and the stickiness of OVR: what a
busy block does with host accesses, and the one host write that clears OVR. -/

namespace Sys2Proof.Machine

/-! ## Host accesses to a busy block -/

theorem State.busy_of_phase_ne_idle {s : State} (h : s.phase ≠ .idle) : s.busy = true := decide_eq_true h

theorem State.writeCmd_busy {s : State} (hbusy : s.phase ≠ .idle) (v : Word) :
    s.writeCmd v = { s with status := s.status.overrun } :=
  if_pos (State.busy_of_phase_ne_idle hbusy)

theorem State.writeData_busy {s : State} (hbusy : s.phase ≠ .idle) (l : DataLoc) (i : Nat) (v : Word) :
    s.writeData l i v = { s with status := s.status.overrun } :=
  if_pos (State.busy_of_phase_ne_idle hbusy)

theorem State.hostRead_data_busy {s : State} (hs : s.build.Valid) (hbusy : s.phase ≠ .idle) {l : DataLoc}
    (hl : locPresent s.build l = true) {i : Nat} (hi : i < 16) :
    s.hostRead (slotOffset l + 4 * i) =
      { s with response := some (Config.freeWord s.freeIx), freeIx := s.freeIx + 1 } :=
  State.hostRead_hidden hbusy (by rw [locate_data hs hl hi, Loc.hiddenWhileBusy])

/-! ## OVR -/

/-- STATUS is at one offset of the control page (20_memory.md R61). -/
theorem controlLoc_ne_status {off : Nat} (h : off ≠ 0x00C) : controlLoc off ≠ .status := by
  unfold controlLoc
  rw [if_neg h]
  iterate 10 refine iteInduction (motive := (· ≠ Loc.status)) (fun _ => nofun) fun _ => ?_
  exact nofun

theorem locate_ne_status (b : Build) {off : Nat} (h : off ≠ 0x00C) : locate b off ≠ .status := by
  unfold locate
  split
  · exact controlLoc_ne_status h
  · split <;> exact nofun

/-- A host write of anything but STATUS leaves OVR set. -/
theorem hostWrite_keeps_ovr {s : State} {off : Nat} (hoff : off ≠ 0x00C) (hovr : s.status.ovr = true) (v : Word) :
    (s.hostWrite off v).status.ovr = true := by
  unfold State.hostWrite
  cases hloc : locate s.build off with
  | status => exact absurd hloc (locate_ne_status s.build hoff)
  | cmd =>
    rw [State.writeLoc]
    rcases writeCmd_cases s v with ⟨-, he⟩ | ⟨-, he⟩ <;> rw [he]
    · rfl
    · exact hovr
  | data l i =>
    rw [State.writeLoc]
    rcases writeData_cases s l i v with ⟨-, he⟩ | ⟨-, -, -, he⟩ | ⟨-, -, he⟩ <;> rw [he]
    · rfl
    · rwa [State.setData_status]
    · exact hovr
  | _ => exact hovr

/-- A host write that clears OVR is one of STATUS with bit 8 set (10_state.md R39). -/
theorem hostWrite_clears_ovr {s : State} {off : Nat} {v : Word} (hovr : s.status.ovr = true)
    (h : (s.hostWrite off v).status.ovr = false) : off = 0x00C ∧ v.getLsbD 8 = true := by
  by_cases hoff : off = 0x00C
  · subst hoff
    rw [State.hostWrite_status] at h
    change (s.status.ovr && !v.getLsbD 8) = false at h
    rw [hovr, Bool.true_and, Bool.not_eq_false'] at h
    exact ⟨rfl, h⟩
  · exact absurd ((hostWrite_keeps_ovr hoff hovr v).symm.trans h) (by decide)

/-- The engine's turn leaves OVR (60_exceptions.md R228). -/
theorem engineTurn_ovr {s t : State} (h : engineTurn s = .next t) : t.status.ovr = s.status.ovr := by
  rcases engineTurn_cases s with ⟨-, hs⟩ | ⟨-, -, hs⟩ | ⟨-, -, i, -, hs⟩ | ⟨-, -, e, -, hs⟩ <;> rw [hs] at h
  · cases h
    rfl
  · cases h
    rfl
  · exact exec_ovr h
  · cases h
    rfl

/-- A bus access that is answered is an aligned 32-bit one at an offset of the window (20_memory.md R60, R66). -/
theorem busAccess_next {s t : State} {addr size : Nat} {act : State → Nat → State}
    (h : busAccess addr size act s = .next t) :
    ∃ off, addr = s.build.base + off ∧ size = 4 ∧ t = act s off := by
  rcases busAccess_cases addr size act s with ⟨-, hs⟩ | ⟨-, -, hs⟩ | ⟨-, -, -, hs⟩ | ⟨hin, -, hdef, hs⟩ <;>
    rw [hs] at h <;> cases h
  obtain ⟨hbase, -⟩ := inWindow_eq_true_iff.1 hin
  exact ⟨addr - s.build.base, by omega, (definedAccess_eq_true_iff.1 hdef).1, rfl⟩

/-- An input that clears OVR is an asserted reset or the host's write of STATUS with bit 8 set. -/
theorem takeInput_clears_ovr {s t : State} {e : Input} (h : takeInput e s = .next t) (hovr : s.status.ovr = true)
    (ht : t.status.ovr = false) :
    e = .assertReset ∨ ∃ v : Word, e = .write (s.build.base + 0x00C) 4 v ∧ v.getLsbD 8 = true := by
  have kept : ∀ {p : Prop}, t.status.ovr = s.status.ovr → p := fun h' =>
    absurd (ht.symm.trans (h'.trans hovr)) (by decide)
  cases e with
  | read addr size =>
    obtain ⟨off, -, -, rfl⟩ := busAccess_next h
    exact kept (by rw [State.hostRead_state])
  | write addr size v =>
    obtain ⟨off, rfl, rfl, rfl⟩ := busAccess_next (act := fun u off => u.hostWrite off v) h
    obtain ⟨rfl, hv⟩ := hostWrite_clears_ovr hovr ht
    exact .inr ⟨v, rfl, hv⟩
  | engine => exact kept (engineTurn_ovr h)
  | assertReset => exact .inl rfl
  | releaseReset =>
    cases h
    exact kept (by rw [State.releaseReset_state])

/-- Settles O53: the map finds the words that the window hides; a step that clears OVR is no engine's turn, so it took
one of the two inputs that do. -/
theorem busyWindowDropsWrites : Obligations.BusyWindowDropsWrites := by
  refine ⟨fun s v hs hbusy => ⟨?_, fun l i hl hi => ⟨?_, State.hostRead_data_busy hs hbusy hl hi⟩⟩,
    fun s t h hovr ht => ?_⟩
  · rw [State.hostWrite_cmd, State.writeCmd_busy hbusy, Status.overrun]
  · rw [State.hostWrite_data hs hl hi, State.writeData_busy hbusy, Status.overrun]
  · rcases step_cases s with ⟨-, hs⟩ | ⟨e, es, hcons, hs⟩ <;> rw [hs] at h
    · exact absurd (ht.symm.trans ((engineTurn_ovr h).trans hovr)) (by decide)
    · rw [hcons, List.head?_cons]
      rcases takeInput_clears_ovr h hovr ht with he | ⟨v, he, hv⟩
      · exact .inl (congrArg some he)
      · exact .inr ⟨v, congrArg some he, hv⟩

end Sys2Proof.Machine
end

section
/-! SUPPORT. Reset and the initialisation that follows it (10_state.md R46; 70_reset_and_hazards.md R250 to R253). -/

namespace Sys2Proof.Machine

theorem Cfg.get_reset (c : CfgReg) : Cfg.reset.get c = 0 := by cases c <;> rfl

section
variable (b : Build)

theorem getS_resetOf (r : SReg) : (State.resetOf b).getS r = 0 := Vector.getElem_replicate _

theorem getPR_resetOf (r : PReg) : (State.resetOf b).getPR r = { x := 0, y := 0, z := 0 } :=
  Vector.getElem_replicate _

theorem getDeg_resetOf (k : Bank) : (State.resetOf b).getDeg k = 0 := Vector.getElem_replicate _

theorem coeff_resetOf (k : Bank) (j : Nat) : (State.resetOf b).coeff k j = 0 := Memory.readLE_empty _ _

theorem shm_resetOf (i : Nat) : (State.resetOf b).shm i = 0 := Memory.readLE_empty _ _

end

/-- Reset asserted and released leaves the block of R46; the environment's fields go on. -/
theorem State.releaseReset_assertReset (s : State) :
    s.assertReset.releaseReset =
      { State.resetOf s.build with
          inputs := s.inputs, response := s.response, oracle := s.oracle, freeIx := s.freeIx } := rfl

/-- Out of reset, the engine's turn ends the initialisation (70_reset_and_hazards.md R251). -/
theorem engineTurn_initialising {s : State} (hr : s.resetLine = false) (hphase : s.phase = .initialising) :
    engineTurn s = .next s.endInit := by
  simp [engineTurn, hr, hphase]

/-- Settles O59: the values are those of `State.resetOf`, whatever the state before; STATUS is then BUSY alone, and the
end of the initialisation clears BUSY alone. -/
theorem resetLeavesEveryResetValue : Obligations.ResetLeavesEveryResetValue := fun s =>
  ⟨s.assertReset, _, _, rfl, congrArg Host.Outcome.next s.releaseReset_assertReset, getS_resetOf s.build,
    getPR_resetOf s.build, getDeg_resetOf s.build, coeff_resetOf s.build, shm_resetOf s.build, rfl, Cfg.get_reset, rfl,
    rfl, rfl, rfl, rfl, engineTurn_initialising rfl rfl, rfl, rfl, rfl⟩

end Sys2Proof.Machine
end

section
/-! SUPPORT. Sample words of the vectors (30_encoding.md R97 to R99): a word decodes to the command it encodes, and an
ILLEGAL one fails for the reason its fields show. -/

namespace Sys2Proof

section
variable {nPoly : Nat} {i : Instr} {w : Word}

theorem decode_of_encode_eq (hw : encode i = w) (hi : i.wellFormed nPoly = true) : decode nPoly w = .ok i :=
  hw ▸ decodeOfEncodeIsTheCommand nPoly i hi

/-- The extra check of LADDER comes after its fields' classes (30_encoding.md R99). -/
theorem decode_encode_ladder_equal_dests (rd : PReg) (ra : SReg) (base : PSrc) :
    decode nPoly (encode (.ladder rd rd ra base)) = .error .equalDests := by
  rw [decode, fieldsOf_encode]
  change decodeLadder ⟨0x12, 0, rd, ra, base.code, rd, 0⟩ = _
  simp [decodeLadder, classZ, classPD_ok.2 rfl, classS_ok.2 rfl, classPS_ok.2 rfl, bind, Except.bind]

/-- PRAND on a bank the block does not have (30_encoding.md R92, R97). -/
theorem decode_encode_prand_bank_past {b : Bank} (hb : nPoly ≤ b.val) (m : ScalarMod) (ra : SReg) :
    decode nPoly (encode (.prand m b ra)) = .error .bank := by
  rw [decode, fieldsOf_encode]
  change decodeBankDraw .prand nPoly ⟨0x20, m.code, 0, ra, 0, b, 0⟩ = _
  have hbank : classBK nPoly b.val = .error .bank := by simp [classBK, Nat.not_lt.2 hb]
  simp [decodeBankDraw, classMS_ok.2 rfl, classZ, classS_ok.2 rfl, hbank, bind, Except.bind]

end

/-- Settles O4: six of the words encode well-formed commands (O1); the others name one register twice in a LADDER, bank
4 of a block with banks 0 to 3, and an op value outside the map. -/
theorem sampleWordsDecode : Obligations.SampleWordsDecode := by
  have hladder : encode (.ladder 0 0 1 (.gen .g)) = 0x48018000 := by decide
  have hprand : encode (.prand .q 4 1) = 0x81010400 := by decide
  have hunassigned : decode 4 0xFFFFFFFF = .error .unassignedOp := by
    rw [decode, decodeFields_eq_decodeByOp]
    rfl
  refine ⟨decode_of_encode_eq ?_ ?_, decode_of_encode_eq ?_ ?_, decode_of_encode_eq ?_ ?_,
    decode_of_encode_eq ?_ ?_, decode_of_encode_eq ?_ ?_, decode_of_encode_eq ?_ ?_,
    hladder ▸ decode_encode_ladder_equal_dests 0 1 (.gen .g),
    hprand ▸ decode_encode_prand_bank_past (Nat.le_refl 4) .q 1, hunassigned⟩
  all_goals decide

end Sys2Proof
end
